-- ==== Sys2Proof/Word.lean ====
section
/-! DEFINITION. The one word type of CANMAB: `REG_WIDTH` is 32 bits for every register and every port word
(spec/00_scope.md R8, R10). -/

namespace Sys2Proof

/-- A register or a port word: 32 bits, bit 0 the least significant (R8, R10). -/
abbrev Word := BitVec 32

end Sys2Proof
end

