-- ==== Sys2Proof/Machine/Bits.lean ====
section
/-! DEFINITION. The bit-field operators of spec/00_scope.md R10 to R12 on 32-bit words: one bit, a field, `mask(n)`,
replacing some bits and keeping the others. -/

namespace Sys2Proof.Machine

/-- `v[i]` of R10. -/
def bit (v : Word) (i : Nat) : Bool := v.getLsbD i

/-- `mask(n)` of R11: the low `n` bits, `0xFFFF_FFFF` from 32 on. -/
def mask (n : Nat) : Word := BitVec.ofNat 32 (2 ^ n - 1)

/-- `v[hi:lo]` of R10, as an unsigned word (`hi ≥ lo`). -/
def field (v : Word) (hi lo : Nat) : Word := (v >>> lo) &&& mask (hi + 1 - lo)

/-- `zext_32` of a single bit. -/
def ofBit (b : Bool) : Word := if b then 1#32 else 0#32

/-- `old` with the bits of `m` taken from `new`. -/
def merge (old new m : Word) : Word := (old &&& ~~~m) ||| (new &&& m)

/-- The word with only bit `i` set. -/
def single (i : Nat) : Word := 1#32 <<< i

/-- `v` with bit `i` replaced by `b`. -/
def withBit (v : Word) (i : Nat) (b : Bool) : Word :=
  if b then v ||| single i else v &&& ~~~single i

end Sys2Proof.Machine
end

