-- ==== Sys2Proof/Config.lean ====
section
/-! DEFINITION. What an instance of CANMAB fixes once and for all: the parameters of spec/00_scope.md R8 with the bounds of
R9, and the two constants the spec leaves open (the poll bound of D8, the draws of R13). -/

namespace Sys2Proof

/-- One entry of `BT_TABLE`: prescaler and the two time segments, as the quantities themselves, not minus 1 (R8, R153). -/
structure BitTiming where
  brp : Nat
  ts1 : Nat
  ts2 : Nat
  deriving DecidableEq, Repr

/-- `FMI_NUMBERING` of R8: what a filter-match index counts (R262). -/
inductive FmiNumbering where
  /-- The index of the bank that matched: the source's reading and the default. -/
  | bank
  /-- The bxCAN's numbering of the filters of one FIFO. -/
  | filter
  deriving DecidableEq, Repr

/-- The parameters of R8 as raw data; only a set of them within the bounds of R9 is a `Config`. -/
structure Params where
  fbCount       : Nat
  fifoDepth     : Nat
  btTable       : List BitTiming
  initPollLimit : Nat
  fmiNumbering  : FmiNumbering
  canBase       : Word
  deriving DecidableEq, Repr

/-- The field ranges of one `BT_TABLE` entry (R9). -/
abbrev BitTiming.InRange (t : BitTiming) : Prop :=
  (1 ≤ t.brp ∧ t.brp ≤ 1024) ∧ (1 ≤ t.ts1 ∧ t.ts1 ≤ 16) ∧ (1 ≤ t.ts2 ∧ t.ts2 ≤ 8)

/-- R9: the bounds a model instance is held to. -/
abbrev Params.WellFormed (p : Params) : Prop :=
  (∀ t ∈ p.btTable, t.InRange) ∧ (1 ≤ p.btTable.length ∧ p.btTable.length ≤ 256) ∧
  (1 ≤ p.fbCount ∧ p.fbCount ≤ 28) ∧ (2 ≤ p.fifoDepth ∧ p.fifoDepth ≤ 3) ∧ 1 ≤ p.initPollLimit

/-- A well-formed model instance. An instance outside the bounds of R9 has no `Config`, so it is refused when it is built
and no rule of the machine has to ask. -/
abbrev Config := { p : Params // p.WellFormed }

/-- Building an instance: `none` refuses parameters outside the bounds (R9). -/
def Params.build (p : Params) : Option Config :=
  if h : p.WellFormed then some ⟨p, h⟩ else none

/-- The number of MSR reads by which `INIT_POLL_LIMIT` exceeds 1. The bound itself is OPEN (R8, D8), so this constant has no
body and nothing can be proved of its value (log entry 3). -/
opaque Config.pollLimitExcess : Nat

/-- The draws of R13: the value of the `n`-th free choice of a run. It has no body, so a proof that goes through for it
goes through for every value (log entry 4). -/
opaque Config.freeWord : Nat → Word

/-- The default values of R8; `INIT_POLL_LIMIT`, which has none, is some natural number of at least 1. -/
def Params.standard : Params where
  fbCount       := 28
  fifoDepth     := 3
  btTable       := [⟨1, 13, 2⟩]
  initPollLimit := Config.pollLimitExcess + 1
  fmiNumbering  := .bank
  canBase       := 0x40006400#32

/-- The default instance. -/
def Config.standard : Config :=
  ⟨Params.standard, by
    refine ⟨?_, ?_, ?_, ?_, ?_⟩ <;> simp [Params.standard, BitTiming.InRange]⟩

end Sys2Proof
end

