-- ==== Sys2Proof/Machine/State.lean ====
section
/-! DEFINITION. The whole state of CANMAB as plain data (spec/10_state.md), the moves of its three agents
(spec/00_scope.md R14), and the state after reset (spec/70_reset_and_hazards.md R310). -/

namespace Sys2Proof.Machine

/-! ### Cells that may hold no value -/

/-- A register of which some bits may hold no value (R60): `val` on the bits of `known`, a draw at each read on the
others. In canonical form `val` is 0 outside `known`. -/
structure Cell where
  val   : Word
  known : Word
  deriving DecidableEq, Repr

/-! ### The register files -/

/-- The four registers of a transmit mailbox (R43 to R45). -/
structure Mailbox where
  tir  : Cell
  tdtr : Cell
  tdlr : Cell
  tdhr : Cell
  deriving DecidableEq, Repr

/-- An entry of a receive queue: the four words the output mailbox shows while it is at the head (R46 to R48, R56). The data
words may have lanes without a value (R48, R260). -/
structure Entry where
  ri  : Word
  rdt : Word
  rdl : Cell
  rdh : Cell
  deriving DecidableEq, Repr

/-- A receive FIFO: its queue, oldest first (R56), and the two sticky bits of RFfR. FMPf is the queue's length and RFOMf
reads 0, so neither is stored (R39). -/
structure Fifo where
  queue : List Entry
  full  : Bool
  fovr  : Bool
  deriving DecidableEq, Repr

/-- The two filter registers of a bank (R54). -/
structure FilterBank where
  fr1 : Cell
  fr2 : Cell
  deriving DecidableEq, Repr

/-- The registers of the register file (R35), by name. -/
inductive Reg where
  | mcr | msr | tsr
  | rfr (f : Fin 2)
  | ier | esr | btr
  | tir (i : Fin 3) | tdtr (i : Fin 3) | tdlr (i : Fin 3) | tdhr (i : Fin 3)
  | rir (f : Fin 2) | rdtr (f : Fin 2) | rdlr (f : Fin 2) | rdhr (f : Fin 2)
  | fmr | fm1r | fs1r | ffa1r | fa1r
  | fr1 (b : Fin 28) | fr2 (b : Fin 28)
  deriving DecidableEq, Repr

/-! ### The sequencer -/

/-- What the sequencer holds while a command is in flight (R32). `step` counts the numbered steps of the pseudocode that are
done; `polls` counts the reads of the present poll; `m` is TX's mailbox; the last four are the words RX has read. The latched
command itself is `cmd` of the port. -/
structure InFlight where
  step  : Nat
  polls : Nat
  m     : Fin 3
  ri    : Word
  rdt   : Word
  lo    : Word
  hi    : Word
  deriving DecidableEq, Repr

/-- The sequencer at the start of a command: `step = 0`, `polls = 0` (R96). The mailbox and the four words hold no value
before they are latched or read (R32); that they are 0 here is the model's choice (log entry 6). -/
def InFlight.start : InFlight := ⟨0, 0, 0, 0, 0, 0, 0⟩

/-- `SEQ`: while idle, the other sequencer fields hold no value (R32). -/
inductive Seq where
  | idle
  | busy (p : InFlight)
  deriving DecidableEq, Repr

/-! ### The moves of the host and of the environment -/

/-- A CAN frame on the bus (R249): `data` as its low and high word in the lanes of R99. -/
structure Frame where
  ide : Bool
  id  : Word
  rtr : Bool
  dlc : BitVec 4
  lo  : Word
  hi  : Word
  deriving DecidableEq, Repr

/-- The host's actions (R96); a register access names its byte offset and its width in bytes (R92, R93). -/
inductive HostAction where
  | issue (cmd a0 a1 a2 : Word)
  | result
  | memRead (off width : Nat)
  | memWrite (off width : Nat) (v : Word)
  deriving DecidableEq, Repr

/-- The environment's events (R263). -/
inductive EnvEvent where
  | sleepExit
  | initEnter
  | initExit
  | sleepEnter
  | wakeup
  | txDone (i : Fin 3) (ok : Bool)
  | txAbort (i : Fin 3)
  | rxFrame (f : Frame)
  | statusDrift
  /-- The environment's turn passes without an event: no event is forced (R244). The model's own (log entry 5). -/
  | none
  deriving DecidableEq, Repr

/-- A step of an agent other than the sequencer (R14). -/
inductive Move where
  | host (a : HostAction)
  | env (e : EnvEvent)
  deriving DecidableEq, Repr

/-- A scheduled move: an event comes after `wait` more steps of the sequencer, or as soon as the sequencer is idle; a host
action waits until the sequencer is idle (R96, log entry 5). -/
structure Turn where
  wait : Nat
  move : Move
  deriving DecidableEq, Repr

/-! ### The state -/

/-- The state of CANMAB. `cfg` is the instance and never changes. The last four fields are the model's own: the choices of
the host and the environment that the spec leaves free, as data (log entries 1, 4, 5), and what the host last read. -/
structure State where
  cfg : Config
  cmd  : Word
  arg0 : Word
  arg1 : Word
  arg2 : Word
  res0 : Word
  res1 : Word
  res2 : Word
  res3 : Word
  res4 : Word
  seq : Seq
  mcr : Word
  msr : Word
  tsr : Word
  ier : Word
  esr : Word
  btr : Word
  mailboxes : Vector Mailbox 3
  fifos : Vector Fifo 2
  fmr   : Word
  fm1r  : Word
  fs1r  : Word
  ffa1r : Word
  fa1r  : Word
  banks : Vector FilterBank 28
  txOrder   : List (Fin 3)
  timeStamp : BitVec 16
  agenda : List Turn
  drawTape  : List Word
  drawCount : Nat
  hostData : List Word
  deriving DecidableEq, Repr

/-- The reasons the machine stops. -/
inductive Fault where
  /-- A host access that is not an aligned 32-bit access within 0x000 to 0x31C (R93, R290), at a byte offset and with a
  width in bytes. Raised by the host port only; no command raises it. Safe: the spec itself refuses the access and gives the
  run no final state. -/
  | hostAccessRefused (off width : Nat)
  deriving DecidableEq, Repr

/-- The reasons for which the model has no meaning to give. -/
inductive Refusal where
  /-- The instruction of that name has no meaning in the model. Raised by no arm of `exec`: every command is modelled. Safe:
  the model stops where the hardware goes on. -/
  | notModelled (mnemonic : String)
  deriving DecidableEq, Repr

/-! ### Reset -/

/-- A mailbox after reset: TXRQ = 0 and the reserved bits of TDTiR 0; no other bit holds a value (R35, R43 to R45, R310). -/
def Mailbox.reset : Mailbox := ⟨⟨0, 1#32⟩, ⟨0, 0x0000FEF0#32⟩, ⟨0, 0⟩, ⟨0, 0⟩⟩

/-- A FIFO after reset: empty, no flag set (R310). -/
def Fifo.reset : Fifo := ⟨[], false, false⟩

/-- The filter registers of a bank hold no value after reset (R310). -/
def FilterBank.reset : FilterBank := ⟨⟨0, 0⟩, ⟨0, 0⟩⟩

/-- R310 for any instance of the block: sleep mode, filter-initialization mode, every mailbox empty, both queues empty. The
`cmd`, `arg` and `timeStamp` fields, for which the spec gives no value, are 0 (log entry 6). -/
def State.resetOf (c : Config) : State where
  cfg := c
  cmd := 0
  arg0 := 0
  arg1 := 0
  arg2 := 0
  res0 := 0
  res1 := 0
  res2 := 0
  res3 := 0
  res4 := 0
  seq := .idle
  mcr := 0x00010002#32
  msr := 0x00000C02#32
  tsr := 0x1C000000#32
  ier := 0
  esr := 0
  btr := 0x01230000#32
  mailboxes := Vector.replicate 3 Mailbox.reset
  fifos := Vector.replicate 2 Fifo.reset
  fmr := 0x00000E01#32
  fm1r := 0
  fs1r := 0
  ffa1r := 0
  fa1r := 0
  banks := Vector.replicate 28 FilterBank.reset
  txOrder := []
  timeStamp := 0
  agenda := []
  drawTape := []
  drawCount := 0
  hostData := []

/-- The machine right after reset, in the default instance: idle, with nothing scheduled. -/
def State.reset : State := State.resetOf Config.standard

end Sys2Proof.Machine
end

