-- ==== Sys2Proof/Machine/Flags.lean ====
section
/-! DEFINITION. The status and control bits of the controller by name (spec/10_state.md R36 to R42, R49 to R53, R61), the
controller's mode, and the level outputs derived from them (spec/60_exceptions.md R285). -/

namespace Sys2Proof.Machine

/-! ### MCR and MSR -/

/-- MCR.INRQ (R36). -/
def State.inrq (s : State) : Bool := bit s.mcr 0
/-- MCR.SLEEP (R36). -/
def State.sleepReq (s : State) : Bool := bit s.mcr 1
/-- MCR.RFLM (R36). -/
def State.rflm (s : State) : Bool := bit s.mcr 3
/-- MCR.NART (R36). -/
def State.nart (s : State) : Bool := bit s.mcr 4
/-- MCR.AWUM (R36). -/
def State.awum (s : State) : Bool := bit s.mcr 5
/-- MCR.TTCM (R36). -/
def State.ttcm (s : State) : Bool := bit s.mcr 7

/-- MSR.INAK as a bit of a read value (R37). -/
def inakOf (msr : Word) : Bool := bit msr 0
/-- MSR.SLAK as a bit of a read value (R37). -/
def slakOf (msr : Word) : Bool := bit msr 1

/-- MSR.INAK (R37). -/
def State.inak (s : State) : Bool := inakOf s.msr
/-- MSR.SLAK (R37). -/
def State.slak (s : State) : Bool := slakOf s.msr

/-- The controller's mode (R37). -/
inductive CtrlMode where
  | sleep
  | initialization
  | active
  deriving DecidableEq, Repr

/-- R37: initialization when INAK = 1, sleep when SLAK = 1 and INAK = 0, active when both are 0. -/
def State.mode (s : State) : CtrlMode :=
  if s.inak then .initialization else if s.slak then .sleep else .active

/-- BTR.LBKM (R42). -/
def State.lbkm (s : State) : Bool := bit s.btr 30
/-- BTR.SILM (R42). -/
def State.silm (s : State) : Bool := bit s.btr 31

/-! ### TSR -/

/-- TSR.TMEi as a bit of a read value (R38). -/
def tmeOf (tsr : Word) (i : Fin 3) : Bool := bit tsr (26 + i.val)

/-- TSR.TMEi: mailbox `i` is empty (R38, R191). -/
def State.tme (s : State) (i : Fin 3) : Bool := tmeOf s.tsr i
/-- TSR.RQCPi (R38). -/
def State.rqcp (s : State) (i : Fin 3) : Bool := bit s.tsr (8 * i.val)
/-- TSR.TXOKi (R38). -/
def State.txok (s : State) (i : Fin 3) : Bool := bit s.tsr (8 * i.val + 1)
/-- TSR.ALSTi (R38). -/
def State.alst (s : State) (i : Fin 3) : Bool := bit s.tsr (8 * i.val + 2)
/-- TSR.TERRi (R38). -/
def State.terr (s : State) (i : Fin 3) : Bool := bit s.tsr (8 * i.val + 3)
/-- TSR.ABRQi (R38). -/
def State.abrq (s : State) (i : Fin 3) : Bool := bit s.tsr (8 * i.val + 7)

/-- The set `E` of R190: the empty mailboxes. -/
def State.emptyMailboxes (s : State) : List (Fin 3) := [0, 1, 2].filter s.tme

/-! ### The receive FIFOs -/

/-- FIFO `f`. -/
def State.fifo (s : State) (f : Fin 2) : Fifo := s.fifos[f]

/-- The queue `Q[f]` (R56). -/
def State.queue (s : State) (f : Fin 2) : List Entry := (s.fifo f).queue

/-- RFfR as it reads: FMPf is the length of the queue, RFOMf is 0 (R39, R56). -/
def Fifo.word (q : Fifo) : Word :=
  BitVec.ofNat 32 (q.queue.length % 4) ||| (ofBit q.full <<< 3) ||| (ofBit q.fovr <<< 4)

/-- FMPf as the field of a read value of RFfR (R39). -/
def fmpOf (rf : Word) : Word := field rf 1 0

/-! ### The filter registers -/

/-- FMR.FINIT (R49). -/
def State.finit (s : State) : Bool := bit s.fmr 0
/-- FBMb: identifier-list mode (R50). -/
def State.fbm (s : State) (b : Nat) : Bool := bit s.fm1r b
/-- FSCb: one 32-bit filter (R51). -/
def State.fsc (s : State) (b : Nat) : Bool := bit s.fs1r b
/-- FFAb: the bank's FIFO (R52). -/
def State.ffa (s : State) (b : Nat) : Fin 2 := if bit s.ffa1r b then 1 else 0
/-- FACTb: the bank is active (R53). -/
def State.fact (s : State) (b : Nat) : Bool := bit s.fa1r b

/-! ### The level outputs (R285) -/

/-- `TXDONE[i]`: transmit complete on mailbox `i`. -/
def State.txDoneOut (s : State) (i : Fin 3) : Bool := s.rqcp i

/-- `RXPEND[f]`: message pending on FIFO `f`. -/
def State.rxPendOut (s : State) (f : Fin 2) : Bool := !(s.queue f).isEmpty

/-- `IRQ_TX`: TMEIE gates the three RQCP bits. -/
def State.irqTx (s : State) : Bool := bit s.ier 0 && (s.rqcp 0 || s.rqcp 1 || s.rqcp 2)

/-- `IRQ_RX0` and `IRQ_RX1`: FMPIE, FFIE and FOVIE of the FIFO gate pending, FULL and FOVR. -/
def State.irqRx (s : State) (f : Fin 2) : Bool :=
  (bit s.ier (1 + 3 * f.val) && s.rxPendOut f) ||
  (bit s.ier (2 + 3 * f.val) && (s.fifo f).full) ||
  (bit s.ier (3 + 3 * f.val) && (s.fifo f).fovr)

/-- `IRQ_SCE`: ERRIE, WKUIE and SLKIE gate MSR.ERRI, WKUI and SLAKI. -/
def State.irqSce (s : State) : Bool :=
  (bit s.ier 15 && bit s.msr 2) || (bit s.ier 16 && bit s.msr 3) || (bit s.ier 17 && bit s.msr 4)

end Sys2Proof.Machine
end

