-- ==== Sys2Proof/Syntax.lean ====
section
/-! DEFINITION. The commands of CANMAB: one constructor per row of spec/opcode_table.json, with the operand fields of the
command word (spec/30_encoding.md R121 to R127). The `ARG` words are port latches, not part of the command word (R124). -/

namespace Sys2Proof

/-- The operating mode, `MODE` of INIT and `{SILM, LBKM}` of BTR (R42, R122, D6). -/
inductive OpMode where
  | normal
  | loopback
  | silent
  | silentLoopback
  deriving DecidableEq, Repr

/-- The six feature flags of INIT, in the order of MCR[2] to MCR[7] (R36, R122, D5). -/
structure FeatureFlags where
  txfp : Bool
  rflm : Bool
  nart : Bool
  awum : Bool
  abom : Bool
  ttcm : Bool
  deriving DecidableEq, Repr

/-- `SCALE` of CFGF: bit 0 is two 16-bit filters, bit 1 one 32-bit filter (R51, R123). -/
inductive FilterScale where
  | two16
  | one32
  deriving DecidableEq, Repr

/-- `LIST` of CFGF: bit 0 is mask mode, bit 1 identifier-list mode (R50, R123). -/
inductive FilterMode where
  | mask
  | list
  deriving DecidableEq, Repr

/-- A command. Number operands are plain numbers; `WellFormed.lean` says which of them the command word can hold. -/
inductive Instr where
  /-- INIT: `MODE`, the six feature flags, `BAUD` (R122, R151). -/
  | init (mode : OpMode) (flags : FeatureFlags) (baud : Nat)
  /-- CFGF: `BANK`, `SCALE`, `LIST`, `FIFO` (R123, R171). -/
  | cfgf (bank : Nat) (scale : FilterScale) (mode : FilterMode) (fifo : Fin 2)
  /-- TX: `IDE`, `RTR`, `TGT`, `DLC` (R125, R192). -/
  | tx (ide rtr tgt : Bool) (dlc : Nat)
  /-- RX: `FIFO` (R126, R220). -/
  | rx (fifo : Fin 2)
  deriving DecidableEq, Repr

end Sys2Proof
end

