-- ==== Sys2Proof/WellFormed.lean ====
section
/-! DEFINITION. Which terms of `Instr` a command word can hold: every number operand fits its field
(spec/30_encoding.md R122, R123, R125). A well-formed operand may still be out of the range the command accepts; that is a
status of the command, not an ill-formed term (R133). -/

namespace Sys2Proof

/-- `BAUD` is CMD[23:16] (R122). -/
def baudFits (baud : Nat) : Bool := decide (baud < 256)

/-- `BANK` is CMD[8:4] (R123). -/
def bankFits (bank : Nat) : Bool := decide (bank < 32)

/-- `DLC` is CMD[11:8] (R125). -/
def dlcFits (dlc : Nat) : Bool := decide (dlc < 16)

/-- Every operand fits its field of the command word. -/
def Instr.wellFormed : Instr → Bool
  | .init _ _ baud   => baudFits baud
  | .cfgf bank _ _ _ => bankFits bank
  | .tx _ _ _ dlc    => dlcFits dlc
  | .rx _            => true

end Sys2Proof
end

