-- ==== Sys2Proof/Decode.lean ====
section
/-! DEFINITION. The command decoder, total on every word, and the encoder written from the same tables
(spec/30_encoding.md R120 to R127, R132, R133). -/

namespace Sys2Proof

open Machine (bit field ofBit)

/-- The fixed bits of one command format: a word is of the format when `w &&& mask = pattern`. -/
structure Row where
  mask    : Word
  pattern : Word
  deriving DecidableEq, Repr

/-- INIT: `00000000bbbbbbbb0000tawnrpmm0001` (R122). -/
def rowInit : Row := ⟨0xFF00F00F#32, 0x00000001#32⟩
/-- CFGF: `00000000000000000000flskkkkk0010` (R123). -/
def rowCfgf : Row := ⟨0xFFFFF00F#32, 0x00000002#32⟩
/-- TX: `00000000000000000000dddd0gre0011` (R125). -/
def rowTx : Row := ⟨0xFFFFF08F#32, 0x00000003#32⟩
/-- RX: `000000000000000000000000000f0100` (R126). -/
def rowRx : Row := ⟨0xFFFFFFEF#32, 0x00000004#32⟩

/-- Whether a word has the fixed bits of a format. -/
def Row.accepts (r : Row) (w : Word) : Bool := decide (w &&& r.mask = r.pattern)

/-- Why a word is no command (R132). The block reports ILLEGAL_COMMAND for both. -/
inductive Illegal where
  /-- `CMD[3:0]` is 0x0 or 0x5 to 0xF. -/
  | reservedOpcode (opc : Nat)
  /-- `CMD[3:0]` is 0x1 to 0x4 and a fixed reserved bit of that format is not 0. -/
  | reservedBits (opc : Nat)
  deriving DecidableEq, Repr

/-- The `MODE` field (R122). -/
def OpMode.ofField (n : Nat) : OpMode :=
  match n with
  | 0 => .normal
  | 1 => .loopback
  | 2 => .silent
  | _ => .silentLoopback

/-- The two bits of an operating mode (R42, R122). -/
def OpMode.code : OpMode → Word
  | .normal         => 0#32
  | .loopback       => 1#32
  | .silent         => 2#32
  | .silentLoopback => 3#32

/-- `FLAGS = CMD[11:6] = {TTCM, ABOM, AWUM, NART, RFLM, TXFP}`, bit 0 TXFP (R122, R151). -/
def FeatureFlags.code (f : FeatureFlags) : Word :=
  ofBit f.txfp ||| (ofBit f.rflm <<< 1) ||| (ofBit f.nart <<< 2) |||
  (ofBit f.awum <<< 3) ||| (ofBit f.abom <<< 4) ||| (ofBit f.ttcm <<< 5)

/-- `SCALE` as the bit of the command word and of FS1R (R51, R123). -/
def FilterScale.toBool : FilterScale → Bool
  | .two16 => false
  | .one32 => true

/-- `LIST` as the bit of the command word and of FM1R (R50, R123). -/
def FilterMode.toBool : FilterMode → Bool
  | .mask => false
  | .list => true

/-- A FIFO index as its bit (R52: clear is FIFO 0, set is FIFO 1). -/
def fifoBit (f : Fin 2) : Bool := decide (f = 1)

/-- The FIFO a bit names. -/
def fifoOfBit (b : Bool) : Fin 2 := if b then 1 else 0

/-- The operand fields of an INIT word (R122, R127). -/
def decodeInit (w : Word) : Instr :=
  .init (OpMode.ofField (field w 5 4).toNat)
    ⟨bit w 6, bit w 7, bit w 8, bit w 9, bit w 10, bit w 11⟩ (field w 23 16).toNat

/-- The operand fields of a CFGF word (R123, R127). -/
def decodeCfgf (w : Word) : Instr :=
  .cfgf (field w 8 4).toNat (if bit w 9 then .one32 else .two16) (if bit w 10 then .list else .mask)
    (fifoOfBit (bit w 11))

/-- The operand fields of a TX word (R125, R127). -/
def decodeTx (w : Word) : Instr := .tx (bit w 4) (bit w 5) (bit w 6) (field w 11 8).toNat

/-- The operand field of an RX word (R126, R127). -/
def decodeRx (w : Word) : Instr := .rx (fifoOfBit (bit w 4))

/-- Why a word that no row accepts is illegal (R132). -/
def illegalReason (w : Word) : Illegal :=
  let opc := (field w 3 0).toNat
  if 1 ≤ opc ∧ opc ≤ 4 then .reservedBits opc else .reservedOpcode opc

/-- R133: decoding is total on every 32-bit word. -/
def decode (w : Word) : Except Illegal Instr :=
  if rowInit.accepts w then .ok (decodeInit w)
  else if rowCfgf.accepts w then .ok (decodeCfgf w)
  else if rowTx.accepts w then .ok (decodeTx w)
  else if rowRx.accepts w then .ok (decodeRx w)
  else .error (illegalReason w)

/-- The command word of a command, field by field (R122, R123, R125, R126). -/
def encode : Instr → Word
  | .init mode flags baud =>
      (BitVec.ofNat 32 baud <<< 16) ||| (flags.code <<< 6) ||| (mode.code <<< 4) ||| 1#32
  | .cfgf bank scale mode fifo =>
      (ofBit (fifoBit fifo) <<< 11) ||| (ofBit mode.toBool <<< 10) ||| (ofBit scale.toBool <<< 9) |||
      (BitVec.ofNat 32 bank <<< 4) ||| 2#32
  | .tx ide rtr tgt dlc =>
      (BitVec.ofNat 32 dlc <<< 8) ||| (ofBit tgt <<< 6) ||| (ofBit rtr <<< 5) ||| (ofBit ide <<< 4) ||| 3#32
  | .rx fifo => (ofBit (fifoBit fifo) <<< 4) ||| 4#32

/-- Word `k` (0 the command word, 1 to 3 the operand words) of an instruction given as one number whose bits above
`nbits` are 0. -/
def tableWord (nbits w k : Nat) : Word := BitVec.ofNat 32 (w % 2 ^ nbits / 2 ^ (32 * k))

/-- The command the decoder reads from an instruction written as one number, the command word in bits 31 to 0; `none`
where it refuses the word. -/
def decodeTableWord (nbits w : Nat) : Option Instr :=
  match decode (tableWord nbits w 0) with
  | .ok i    => some i
  | .error _ => none

end Sys2Proof
end

