-- ==== Sys2Proof/Machine/Operands.lean ====
section
/-! DEFINITION. The values the commands and the matcher compute from their operands: identifier split and merge, payload
masks, the bit-timing word, the result words, the frame images. -/

namespace Sys2Proof.Machine

/-! ### Identifiers (spec/42_transmit.md R193, spec/43_receive.md R221) -/

/-- `pack_id` of R193: STID in bits 31:21, EXID in bits 20:3, IDE in bit 2. -/
def packId (ide : Bool) (id : Word) : Word :=
  if ide then (field id 28 18 <<< 21) ||| (field id 17 0 <<< 3) ||| 4#32
  else field id 10 0 <<< 21

/-- `unpack_id` of R221. -/
def unpackId (ide : Bool) (ri : Word) : Word :=
  if ide then (field ri 31 21 <<< 18) ||| field ri 20 3 else field ri 31 21

/-- The identifier fits its width, 11 or 29 bits: the check of R192 step 0 and the shape of R252. -/
def idFits (ide : Bool) (id : Word) : Bool :=
  if ide then decide (field id 31 29 = 0) else decide (field id 31 11 = 0)

/-- TIiR without TXRQ, and RIfR: `pack_id(IDE, ID) | (zext_32(RTR) << 1)` (R192 step 2, R252). -/
def idWord (ide rtr : Bool) (id : Word) : Word := packId ide id ||| (ofBit rtr <<< 1)

/-! ### Payload (spec/42_transmit.md R195) -/

/-- `lo_mask(d)`: the lanes below `d` of payload bytes 0 to 3. -/
def loMask (d : Nat) : Word := mask (8 * min d 4)

/-- `hi_mask(d)`: the lanes below `d` of payload bytes 4 to 7. -/
def hiMask (d : Nat) : Word := mask (8 * (max d 4 - 4))

/-- Payload byte `k` of a pair of data words (R99). -/
def payloadByte (lo hi : Word) (k : Nat) : Word :=
  if k < 4 then field lo (8 * k + 7) (8 * k) else field hi (8 * (k - 4) + 7) (8 * (k - 4))

/-- TDTmR as TX writes it: DLC, TGT, TIME = 0 (R192 step 3, R196). -/
def tdtWord (tgt : Bool) (dlc : Nat) : Word := (ofBit tgt <<< 8) ||| BitVec.ofNat 32 dlc

/-! ### Bit timing (spec/40_init.md R156) -/

/-- The value of INIT step 6. -/
def btrWord (mode : OpMode) (t : BitTiming) : Word :=
  (mode.code <<< 30) ||| (BitVec.ofNat 32 (t.ts2 - 1) <<< 20) ||| (BitVec.ofNat 32 (t.ts1 - 1) <<< 16) |||
  BitVec.ofNat 32 (t.brp - 1)

/-! ### Status and result words (spec/60_exceptions.md R280, R281, spec/30_encoding.md R128 to R131) -/

/-- A status with its detail (R280, R281): a detail belongs to one status, so the two are one name. -/
inductive Status where
  | ok
  | noMailbox
  | fifoEmpty
  | badBaud
  | badBank
  | badDlc
  | badId
  | sleepExit
  | initEntry
  | illegalCommand
  deriving DecidableEq, Repr

/-- `RES[0].STATUS` (R280). -/
def Status.code : Status → Word
  | .ok             => 0#32
  | .noMailbox      => 1#32
  | .fifoEmpty      => 2#32
  | .badBaud        => 3#32
  | .badBank        => 3#32
  | .badDlc         => 3#32
  | .badId          => 3#32
  | .sleepExit      => 4#32
  | .initEntry      => 4#32
  | .illegalCommand => 5#32

/-- `RES[0].DETAIL` (R281). -/
def Status.detail : Status → Word
  | .ok             => 0#32
  | .noMailbox      => 0#32
  | .fifoEmpty      => 0#32
  | .badBaud        => 1#32
  | .badBank        => 2#32
  | .badDlc         => 3#32
  | .badId          => 4#32
  | .sleepExit      => 1#32
  | .initEntry      => 2#32
  | .illegalCommand => 0#32

/-- `RES[0]`: STATUS in bits 3:0, DETAIL in bits 7:4, MBX in bits 9:8 (R128). -/
def statusWord (st : Status) (mbx : Nat) : Word :=
  st.code ||| (st.detail <<< 4) ||| (BitVec.ofNat 32 mbx <<< 8)

/-- `RES[1]` of RX: identifier, RTR in bit 30, IDE in bit 31 (R129). -/
def resultId (ri : Word) : Word :=
  (ofBit (bit ri 2) <<< 31) ||| (ofBit (bit ri 1) <<< 30) ||| unpackId (bit ri 2) ri

/-- `RES[2]` of RX: TIME, FMI and DLC of RDTfR (R130). -/
def resultMeta (rdt : Word) : Word :=
  (field rdt 31 16 <<< 16) ||| (field rdt 15 8 <<< 8) ||| field rdt 3 0

/-- The bytes RX copies: `min(DLC, 8)` (R224, R225). -/
def payloadLength (rdt : Word) : Nat := min (field rdt 3 0).toNat 8

/-! ### Frame images (spec/44_controller_events.md R252, R254) -/

/-- A frame the bus can carry: its identifier fits its width (R252). -/
def Frame.wellFormed (f : Frame) : Bool := idFits f.ide f.id

/-- STID of a frame (R254). -/
def Frame.stid (f : Frame) : Word := if f.ide then field f.id 28 18 else field f.id 10 0

/-- EXID of a frame (R254). -/
def Frame.exid (f : Frame) : Word := if f.ide then field f.id 17 0 else 0#32

/-- `W32(F)` of R254. -/
def Frame.w32 (f : Frame) : Word :=
  (f.stid <<< 21) ||| (f.exid <<< 3) ||| (ofBit f.ide <<< 2) ||| (ofBit f.rtr <<< 1)

/-- `H16(F)` of R254, in the low half of a word. -/
def Frame.h16 (f : Frame) : Word :=
  (f.stid <<< 5) ||| (ofBit f.rtr <<< 4) ||| (ofBit f.ide <<< 3) ||| field f.exid 17 15

end Sys2Proof.Machine
end

