-- ==== Sys2Proof/Machine/Ops.lean ====
section
/-! DEFINITION. The operations every agent shares: draws, the register file with its access types, write protections and
write side effects (spec/20_memory.md R92 to R98), how a command ends (spec/00_scope.md R13), and its place in the command
(spec/10_state.md R32). Each of `readReg`, `writeReg` and `modifyReg` is one micro-operation (R12). -/

namespace Sys2Proof.Machine

/-! ### Draws (R13) -/

/-- One free choice: the next word the state lays down for it, and when none is laid down a word nothing is known of
(log entry 4). -/
def draw (s : State) : Word × State :=
  match s.drawTape with
  | w :: rest => (w, { s with drawTape := rest })
  | []        => (Config.freeWord s.drawCount, { s with drawCount := s.drawCount + 1 })

/-- A draw in a non-empty list: the drawn word chooses the member. -/
def drawIn {α : Type} (first : α) (rest : List α) (s : State) : α × State :=
  let d := draw s
  ((first :: rest).getD (d.1.toNat % (rest.length + 1)) first, d.2)

/-! ### Cells -/

/-- A cell all of whose bits hold the value. -/
def Cell.of (v : Word) : Cell := ⟨v, BitVec.allOnes 32⟩

/-- The cell with the bits of `m` set to those of `v`. -/
def Cell.patch (c : Cell) (m v : Word) : Cell := ⟨merge c.val v m, c.known ||| m⟩

/-- One read of a cell: the bits that hold no value are drawn (R60, D23). -/
def resolve (c : Cell) (s : State) : Word × State :=
  if c.known = BitVec.allOnes 32 then (c.val, s)
  else
    let d := draw s
    (merge d.1 c.val c.known, d.2)

/-! ### Homes of the register files -/

/-- Mailbox `i`. -/
def State.mailbox (s : State) (i : Fin 3) : Mailbox := s.mailboxes[i]

/-- The state with mailbox `i` replaced. -/
def State.setMailbox (s : State) (i : Fin 3) (mb : Mailbox) : State :=
  { s with mailboxes := s.mailboxes.set i.val mb i.isLt }

/-- The state with FIFO `f` replaced. -/
def State.setFifo (s : State) (f : Fin 2) (q : Fifo) : State :=
  { s with fifos := s.fifos.set f.val q f.isLt }

/-- Bank `b`. -/
def State.bank (s : State) (b : Fin 28) : FilterBank := s.banks[b]

/-- The state with bank `b` replaced. -/
def State.setBank (s : State) (b : Fin 28) (fb : FilterBank) : State :=
  { s with banks := s.banks.set b.val fb b.isLt }

/-- The bits of the filter registers that belong to a bank: bits `FB_COUNT` to 31 are reserved (R50 to R53). -/
def State.bankMask (s : State) : Word := mask s.cfg.val.fbCount

/-- Bank `b` exists in this instance (R55). -/
def State.hasBank (s : State) (b : Nat) : Bool := decide (b < s.cfg.val.fbCount)

/-! ### Offsets (R35, R138) -/

/-- The byte offset of a register. -/
def Reg.offset : Reg → Nat
  | .mcr    => 0x000
  | .msr    => 0x004
  | .tsr    => 0x008
  | .rfr f  => 0x00C + 4 * f.val
  | .ier    => 0x014
  | .esr    => 0x018
  | .btr    => 0x01C
  | .tir i  => 0x180 + 0x10 * i.val
  | .tdtr i => 0x184 + 0x10 * i.val
  | .tdlr i => 0x188 + 0x10 * i.val
  | .tdhr i => 0x18C + 0x10 * i.val
  | .rir f  => 0x1B0 + 0x10 * f.val
  | .rdtr f => 0x1B4 + 0x10 * f.val
  | .rdlr f => 0x1B8 + 0x10 * f.val
  | .rdhr f => 0x1BC + 0x10 * f.val
  | .fmr    => 0x200
  | .fm1r   => 0x204
  | .fs1r   => 0x20C
  | .ffa1r  => 0x214
  | .fa1r   => 0x21C
  | .fr1 b  => 0x240 + 8 * b.val
  | .fr2 b  => 0x244 + 8 * b.val

/-- Every register, in the order of R35. -/
def Reg.all : List Reg :=
  List.flatten [
    [Reg.mcr, Reg.msr, Reg.tsr, Reg.rfr 0, Reg.rfr 1, Reg.ier, Reg.esr, Reg.btr],
    (List.finRange 3).flatMap (fun i => [Reg.tir i, Reg.tdtr i, Reg.tdlr i, Reg.tdhr i]),
    (List.finRange 2).flatMap (fun f => [Reg.rir f, Reg.rdtr f, Reg.rdlr f, Reg.rdhr f]),
    [Reg.fmr, Reg.fm1r, Reg.fs1r, Reg.ffa1r, Reg.fa1r],
    (List.finRange 28).flatMap (fun b => [Reg.fr1 b, Reg.fr2 b])]

/-- The register at a byte offset; `none` is a reserved offset (R55). -/
def Reg.at (off : Nat) : Option Reg := Reg.all.find? (fun r => r.offset == off)

/-- The bus address of a register: `CAN_BASE` plus its offset (R91); informative, the rules use offsets. -/
def State.busAddress (s : State) (r : Reg) : Word := s.cfg.val.canBase + BitVec.ofNat 32 r.offset

/-! ### Reads (R92) -/

/-- The stored bits of TSR that a read shows: every field but CODE; the reserved bits read 0 (R38). -/
def tsrMask : Word := 0xFC8F8F8F#32

/-- What the register file holds at a register, as a read shows it: reserved fields are 0, and the bits outside `known` are
drawn at the read. TSR.CODE is such a field (R190); so is the whole output mailbox of an empty FIFO (R57). -/
def view (r : Reg) (s : State) : Cell :=
  match r with
  | .mcr    => .of (s.mcr &&& 0x000100FF#32)
  | .msr    => .of (s.msr &&& 0x00000F1F#32)
  | .tsr    => ⟨s.tsr &&& tsrMask, 0xFCFFFFFF#32⟩
  | .rfr f  => .of (s.fifo f).word
  | .ier    => .of (s.ier &&& 0x00038F7F#32)
  | .esr    => .of (s.esr &&& 0xFFFF0077#32)
  | .btr    => .of (s.btr &&& 0xC37F03FF#32)
  | .tir i  => (s.mailbox i).tir
  | .tdtr i => ⟨(s.mailbox i).tdtr.val &&& 0xFFFF010F#32, (s.mailbox i).tdtr.known ||| 0x0000FEF0#32⟩
  | .tdlr i => (s.mailbox i).tdlr
  | .tdhr i => (s.mailbox i).tdhr
  | .rir f  => match s.queue f with | [] => ⟨0, 0⟩ | e :: _ => .of (e.ri &&& 0xFFFFFFFE#32)
  | .rdtr f => match s.queue f with | [] => ⟨0, 0⟩ | e :: _ => .of (e.rdt &&& 0xFFFFFF0F#32)
  | .rdlr f => match s.queue f with | [] => ⟨0, 0⟩ | e :: _ => e.rdl
  | .rdhr f => match s.queue f with | [] => ⟨0, 0⟩ | e :: _ => e.rdh
  | .fmr    => .of (s.fmr &&& 0x00003F01#32)
  | .fm1r   => .of (s.fm1r &&& s.bankMask)
  | .fs1r   => .of (s.fs1r &&& s.bankMask)
  | .ffa1r  => .of (s.ffa1r &&& s.bankMask)
  | .fa1r   => .of (s.fa1r &&& s.bankMask)
  | .fr1 b  => if s.hasBank b.val then (s.bank b).fr1 else .of 0
  | .fr2 b  => if s.hasBank b.val then (s.bank b).fr2 else .of 0

/-- R190: the CODE a read of TSR shows, drawn among the empty mailboxes, and among all three when none is empty. -/
def drawCode (s : State) : Fin 3 × State :=
  match s.emptyMailboxes with
  | i :: rest => drawIn i rest s
  | []        => drawIn 0 [1, 2] s

/-- One read of TSR: CODE in bits 25:24 is the drawn mailbox. -/
def readTsr (s : State) : Word × State :=
  let d := drawCode s
  ((s.tsr &&& tsrMask) ||| (BitVec.ofNat 32 d.1.val <<< 24), d.2)

/-- `Reg(NAME)`: one 32-bit read (R12, R92). -/
def readReg (r : Reg) (s : State) : Word × State :=
  if r = .tsr then readTsr s else resolve (view r s) s

/-! ### Write side effects (R94) -/

/-- R194: mailbox `i` becomes pending within the write that sets TXRQ; R58 keeps the order of the requests. -/
def transmitRequest (i : Fin 3) (s : State) : State :=
  { s with tsr := withBit s.tsr (26 + i.val) false, txOrder := s.txOrder ++ [i] }

/-- R226: a release removes the head of the queue within the write, and has no effect on an empty FIFO. -/
def release (f : Fin 2) (s : State) : State :=
  s.setFifo f { s.fifo f with queue := (s.queue f).tail }

/-- TXRQ cleared by the controller, which is not subject to write protection (R245, R247). -/
def clearTxrq (i : Fin 3) (s : State) : State :=
  s.setMailbox i { s.mailbox i with tir := (s.mailbox i).tir.patch 1#32 0#32 }

/-- R311: the software master reset. -/
def masterReset (s : State) : State :=
  let r := State.resetOf s.cfg
  let s := clearTxrq 0 (clearTxrq 1 (clearTxrq 2 s))
  { s with mcr := r.mcr, msr := r.msr, tsr := r.tsr, ier := r.ier, esr := r.esr, btr := r.btr,
           fifos := r.fifos, txOrder := r.txOrder }

/-- The bits of TSR a write clears: writing 1 to RQCPi clears RQCPi, TXOKi, ALSTi and TERRi together (R38). -/
def tsrCleared (v : Word) : Word :=
  (if bit v 0 then 0x0000000F#32 else 0#32) ||| (if bit v 8 then 0x00000F00#32 else 0#32) |||
  (if bit v 16 then 0x000F0000#32 else 0#32)

/-- The bits of TSR a write sets: ABRQi, while mailbox `i` is pending (R94). -/
def tsrSet (v : Word) (s : State) : Word :=
  (if bit v 7 && !s.tme 0 then 0x00000080#32 else 0#32) |||
  (if bit v 15 && !s.tme 1 then 0x00008000#32 else 0#32) |||
  (if bit v 23 && !s.tme 2 then 0x00800000#32 else 0#32)

/-! ### Writes (R92, R98) -/

/-- MCR: bits 7:0 and DBF are `rw`; RESET = 1 is the master reset, after which RESET reads 0 (R36, R94, R311). -/
def writeMcr (v : Word) (s : State) : State :=
  if bit v 15 then masterReset s else { s with mcr := merge s.mcr v 0x000100FF#32 }

/-- RFfR: writing 1 clears FULLf and FOVRf, writing 1 to RFOMf releases the output mailbox (R39, R94). -/
def writeRfr (f : Fin 2) (v : Word) (s : State) : State :=
  let q := s.fifo f
  let s := s.setFifo f { q with full := q.full && !bit v 3, fovr := q.fovr && !bit v 4 }
  if bit v 5 then release f s else s

/-- TIiR: ignored while the mailbox is pending; TXRQ = 1 hands the mailbox to the controller (R43, R94, R98). -/
def writeTir (i : Fin 3) (v : Word) (s : State) : State :=
  if s.tme i then
    let s := s.setMailbox i { s.mailbox i with tir := .of v }
    if bit v 0 then transmitRequest i s else s
  else s

/-- `Reg(NAME) <- v`: one 32-bit write, whoever makes it (R92). A protected write is ignored (R98), and a write to a
read-only register changes nothing. -/
def writeReg (r : Reg) (v : Word) (s : State) : State :=
  match r with
  | .mcr    => writeMcr v s
  | .msr    => { s with msr := s.msr &&& ~~~(v &&& 0x0000001C#32) }
  | .tsr    => { s with tsr := (s.tsr &&& ~~~tsrCleared v) ||| tsrSet v s }
  | .rfr f  => writeRfr f v s
  | .ier    => { s with ier := merge s.ier v 0x00038F7F#32 }
  | .esr    => { s with esr := merge s.esr v 0x00000070#32 }
  | .btr    => if s.inak then { s with btr := merge s.btr v 0xC37F03FF#32 } else s
  | .tir i  => writeTir i v s
  | .tdtr i =>
      if s.tme i then s.setMailbox i { s.mailbox i with tdtr := (s.mailbox i).tdtr.patch 0xFFFF010F#32 v } else s
  | .tdlr i => if s.tme i then s.setMailbox i { s.mailbox i with tdlr := .of v } else s
  | .tdhr i => if s.tme i then s.setMailbox i { s.mailbox i with tdhr := .of v } else s
  | .rir _  => s
  | .rdtr _ => s
  | .rdlr _ => s
  | .rdhr _ => s
  | .fmr    => { s with fmr := merge s.fmr v 0x00000001#32 }
  | .fm1r   => if s.finit then { s with fm1r := merge s.fm1r v s.bankMask } else s
  | .fs1r   => if s.finit then { s with fs1r := merge s.fs1r v s.bankMask } else s
  | .ffa1r  => if s.finit then { s with ffa1r := merge s.ffa1r v s.bankMask } else s
  | .fa1r   => { s with fa1r := merge s.fa1r v s.bankMask }
  | .fr1 b  =>
      if s.hasBank b.val && (!s.fact b.val || s.finit) then s.setBank b { s.bank b with fr1 := .of v } else s
  | .fr2 b  =>
      if s.hasBank b.val && (!s.fact b.val || s.finit) then s.setBank b { s.bank b with fr2 := .of v } else s

/-- `Reg(NAME).FIELD <- v`: a read, the field replaced, a write, as one micro-operation (R12). -/
def modifyReg (r : Reg) (change : Word → Word) (s : State) : State :=
  let d := readReg r s
  writeReg r (change d.1) d.2

/-! ### How a command ends (R13, R128, R282, R288) -/

/-- The command ends with a status: `RES[0]` is written and the sequencer is idle. This is the one way a command reports
anything; there is no trap, no saved state and no transfer of control (R288). -/
def finish (st : Status) (mbx : Nat) (s : State) : State :=
  { s with res0 := statusWord st mbx, seq := .idle }

/-- `raise STATUS(detail)` of R13. -/
def raise (st : Status) (s : State) : State := finish st 0 s

/-- `issue(cmd, a0, a1, a2)` of R96. -/
def issue (cmd a0 a1 a2 : Word) (s : State) : State :=
  { s with cmd := cmd, arg0 := a0, arg1 := a1, arg2 := a2, seq := .busy .start }

/-! ### The place in a command (R32) -/

/-- Where the sequencer stands; a command taken up while the sequencer is idle starts at its beginning (log entry 2). -/
def State.pos (s : State) : InFlight :=
  match s.seq with
  | .idle   => .start
  | .busy p => p

/-- The command goes on at `p`. -/
def goto (p : InFlight) (s : State) : State := { s with seq := .busy p }

end Sys2Proof.Machine
end

