-- ==== Sys2Proof/Machine/Filter.lean ====
section
/-! DEFINITION. CFGF, the acceptance-filter configuration sequencer (spec/41_filter.md R171 to R182). -/

namespace Sys2Proof.Machine

/-- One micro-operation of CFGF, the one after the `p.step` steps already done (R171). -/
def cfgfMicro (bank : Nat) (scale : FilterScale) (mode : FilterMode) (fifo : Fin 2) (p : InFlight) (s : State) : State :=
  if h : bank < s.cfg.val.fbCount ∧ bank < 28 then
    let b : Fin 28 := ⟨bank, h.2⟩
    let next := { p with step := p.step + 1 }
    match p.step with
    | 0 => goto next (modifyReg .fmr (fun v => withBit v 0 true) s)
    | 1 => goto next (modifyReg .fa1r (fun v => withBit v bank false) s)
    | 2 => goto next (modifyReg .fs1r (fun v => withBit v bank scale.toBool) s)
    | 3 => goto next (modifyReg .fm1r (fun v => withBit v bank mode.toBool) s)
    | 4 => goto next (writeReg (.fr1 b) s.arg0 s)
    | 5 => goto next (writeReg (.fr2 b) s.arg1 s)
    | 6 => goto next (modifyReg .ffa1r (fun v => withBit v bank (fifoBit fifo)) s)
    | 7 => goto next (modifyReg .fa1r (fun v => withBit v bank true) s)
    | _ => raise .ok (modifyReg .fmr (fun v => withBit v 0 false) s)
  else raise .badBank s

/-- The meaning of CFGF: one of its nine micro-operations, the one the sequencer stands at (R14, R34). -/
def execCfgf (bank : Nat) (scale : FilterScale) (mode : FilterMode) (fifo : Fin 2) (s : State) :
    Host.Outcome State Fault Refusal :=
  .next (cfgfMicro bank scale mode fifo s.pos s)

end Sys2Proof.Machine
end

