-- ==== Sys2Proof/Machine/Init.lean ====
section
/-! DEFINITION. INIT, the controller initialization sequencer (spec/40_init.md R151 to R159). -/

namespace Sys2Proof.Machine

/-- MCR with `MCR[7:2]` replaced by FLAGS and the other bits as read (R155). -/
def withFlags (flags : FeatureFlags) (mcr : Word) : Word := merge mcr (flags.code <<< 2) 0x000000FC#32

/-- One iteration of a poll of MSR (R151, R152): the read, the count, then success, the bound, or another iteration. -/
def pollMsr (seen : Word → Bool) (next : InFlight) (timeout : Status) (p : InFlight) (s : State) : State :=
  let d := readReg .msr s
  let polls := p.polls + 1
  if seen d.1 then goto next d.2
  else if s.cfg.val.initPollLimit ≤ polls then raise timeout d.2
  else goto { p with polls := polls } d.2

/-- One micro-operation of INIT, the one after the `p.step` steps already done (R151). -/
def initMicro (mode : OpMode) (flags : FeatureFlags) (baud : Nat) (p : InFlight) (s : State) : State :=
  match s.cfg.val.btTable[baud]? with
  | none => raise .badBaud s
  | some timing =>
    match p.step with
    | 0 => goto { p with step := 1, polls := 0 } (modifyReg .mcr (fun v => withBit v 1 false) s)
    | 1 => pollMsr (fun v => !slakOf v) { p with step := 2, polls := 0 } .sleepExit p s
    | 2 => goto { p with step := 3, polls := 0 } (modifyReg .mcr (fun v => withBit v 0 true) s)
    | 3 => pollMsr inakOf { p with step := 4, polls := 0 } .initEntry p s
    | 4 => goto { p with step := 5 } (modifyReg .mcr (withFlags flags) s)
    | _ => raise .ok (writeReg .btr (btrWord mode timing) s)

/-- The meaning of INIT: one micro-operation, the one the sequencer stands at (R14). From the first to the last they are at
most 4 and two full polls (R34). -/
def execInit (mode : OpMode) (flags : FeatureFlags) (baud : Nat) (s : State) : Host.Outcome State Fault Refusal :=
  .next (initMicro mode flags baud s.pos s)

end Sys2Proof.Machine
end

