-- ==== Sys2Proof/Machine/Receive.lean ====
section
/-! DEFINITION. RX, the receive frame decoder and FIFO release (spec/43_receive.md R220 to R230). -/

namespace Sys2Proof.Machine

/-- The result words of RX from the four words it read (R129 to R131, R220). -/
def rxResults (p : InFlight) (s : State) : State :=
  let n := payloadLength p.rdt
  { s with res1 := resultId p.ri, res2 := resultMeta p.rdt, res3 := p.lo &&& loMask n, res4 := p.hi &&& hiMask n }

/-- The pending check of step 1 (R220, R222). -/
def rxPending (f : Fin 2) (p : InFlight) (s : State) : State :=
  let d := readReg (.rfr f) s
  if fmpOf d.1 = 0 then raise .fifoEmpty d.2 else goto { p with step := 1 } d.2

/-- One micro-operation of RX, the one after the `p.step` steps already done (R220). The release is the last (R227). -/
def rxMicro (f : Fin 2) (p : InFlight) (s : State) : State :=
  match p.step with
  | 0 => rxPending f p s
  | 1 => let d := readReg (.rir f) s; goto { p with step := 2, ri := d.1 } d.2
  | 2 => let d := readReg (.rdtr f) s; goto { p with step := 3, rdt := d.1 } d.2
  | 3 => let d := readReg (.rdlr f) s; goto { p with step := 4, lo := d.1 } d.2
  | 4 => let d := readReg (.rdhr f) s; goto { p with step := 5, hi := d.1 } d.2
  | _ => raise .ok (rxResults p (writeReg (.rfr f) (single 5) s))

/-- The meaning of RX: one of its six micro-operations, the one the sequencer stands at (R14, R34). -/
def execRx (f : Fin 2) (s : State) : Host.Outcome State Fault Refusal :=
  .next (rxMicro f s.pos s)

end Sys2Proof.Machine
end

