-- ==== Sys2Proof/Machine/Transmit.lean ====
section
/-! DEFINITION. TX, the mailbox arbiter and transmit frame encoder (spec/42_transmit.md R190 to R202). -/

namespace Sys2Proof.Machine

/-- The mailbox a read value of TSR names in CODE; CODE never reads 3 (R190). -/
def codeOf (tsr : Word) : Option (Fin 3) :=
  match (field tsr 25 24).toNat with
  | 0 => some 0
  | 1 => some 1
  | 2 => some 2
  | _ => none

/-- The operand checks of R192 step 0, in the order of R284: the status of the first that fails. -/
def txRejects (ide : Bool) (dlc : Nat) (id : Word) : Option Status :=
  if 8 < dlc then some .badDlc
  else if !idFits ide id then some .badId
  else none

/-- The mailbox a TSR read gives TX: the one CODE names, if it is empty; `none` is NO_MAILBOX (R192 step 1, R202). -/
def txMailbox (tsr : Word) : Option (Fin 3) :=
  if !tmeOf tsr 0 && !tmeOf tsr 1 && !tmeOf tsr 2 then none
  else match codeOf tsr with
    | some m => if tmeOf tsr m then some m else none
    | none   => none

/-- The checks of step 0 and the free-mailbox check of step 1 (R192). -/
def txClaim (ide : Bool) (dlc : Nat) (p : InFlight) (s : State) : State :=
  match txRejects ide dlc s.arg0 with
  | some st => raise st s
  | none =>
    let d := readReg .tsr s
    match txMailbox d.1 with
    | none   => raise .noMailbox d.2
    | some m => goto { p with step := 1, m := m } d.2

/-- One micro-operation of TX, the one after the `p.step` steps already done (R192). -/
def txMicro (ide rtr tgt : Bool) (dlc : Nat) (p : InFlight) (s : State) : State :=
  let next := { p with step := p.step + 1 }
  match p.step with
  | 0 => txClaim ide dlc p s
  | 1 => goto next (writeReg (.tir p.m) (idWord ide rtr s.arg0) s)
  | 2 => goto next (writeReg (.tdtr p.m) (tdtWord tgt dlc) s)
  | 3 => goto next (writeReg (.tdlr p.m) (s.arg1 &&& loMask dlc) s)
  | 4 => goto next (writeReg (.tdhr p.m) (s.arg2 &&& hiMask dlc) s)
  | _ => finish .ok p.m.val (modifyReg (.tir p.m) (fun v => withBit v 0 true) s)

/-- The meaning of TX: one of its six micro-operations, the one the sequencer stands at (R14, R34). -/
def execTx (ide rtr tgt : Bool) (dlc : Nat) (s : State) : Host.Outcome State Fault Refusal :=
  .next (txMicro ide rtr tgt dlc s.pos s)

end Sys2Proof.Machine
end

