-- ==== Sys2Proof/Machine/Dispatch.lean ====
section
/-! DEFINITION. One arm per command: the meaning `exec` gives it, which is one micro-operation of the command (spec/00_scope.md
R14). -/

namespace Sys2Proof.Machine

def exec (i : Instr) (s : State) : Host.Outcome State Fault Refusal :=
  match i with
  | .init mode flags baud => Sys2Proof.Machine.execInit mode flags baud s
  | .cfgf bank scale mode fifo => Sys2Proof.Machine.execCfgf bank scale mode fifo s
  | .tx ide rtr tgt dlc => Sys2Proof.Machine.execTx ide rtr tgt dlc s
  | .rx fifo => Sys2Proof.Machine.execRx fifo s

end Sys2Proof.Machine
end

