-- ==== Sys2Proof/Machine/Acceptance.lean ====
section
/-! DEFINITION. The acceptance matcher (spec/44_controller_events.md R254 to R262) and the store into a receive FIFO
(R252, R253). -/

namespace Sys2Proof.Machine

/-- A filter bank as the matcher sees it: its index, the bits FSCb and FBMb, its FIFO, and the values of its registers. -/
structure MatchBank where
  index : Nat
  fsc   : Bool
  fbm   : Bool
  ffa   : Fin 2
  r1    : Word
  r2    : Word
  deriving DecidableEq, Repr

/-- A filter that matches a frame: bank, position and FIFO (R256, R258). -/
structure Hit where
  bank     : Nat
  position : Nat
  ffa      : Fin 2
  rank     : Nat
  deriving DecidableEq, Repr

/-- The low half of a filter register. -/
def lowHalf (r : Word) : Word := field r 15 0

/-- The high half of a filter register. -/
def highHalf (r : Word) : Word := field r 31 16

/-- `K` of R256: bit 0 of a 32-bit filter value takes no part (R257). -/
def filterK : Word := 0xFFFFFFFE#32

/-- Whether an identifier matches under a mask: `(incoming_id & mask) == (id & mask)` (R177). -/
def maskMatch (incoming id m : Word) : Bool := decide (incoming &&& m = id &&& m)

/-- The match condition of each filter of a bank, in position order (R256). -/
def MatchBank.conditions (b : MatchBank) (f : Frame) : List Bool :=
  match b.fsc, b.fbm with
  | true,  true  => [maskMatch f.w32 b.r1 filterK, maskMatch f.w32 b.r2 filterK]
  | true,  false => [maskMatch f.w32 b.r1 (b.r2 &&& filterK)]
  | false, true  => [decide (f.h16 = lowHalf b.r1), decide (f.h16 = highHalf b.r1),
                     decide (f.h16 = lowHalf b.r2), decide (f.h16 = highHalf b.r2)]
  | false, false => [maskMatch f.h16 (lowHalf b.r1) (highHalf b.r1), maskMatch f.h16 (lowHalf b.r2) (highHalf b.r2)]

/-- The class order of R258: 32-bit over 16-bit, then list over mask. -/
def classRank (fsc fbm : Bool) : Nat := 2 * fsc.toNat + fbm.toNat

/-- The filters of a bank that match a frame, in position order. -/
def MatchBank.hits (b : MatchBank) (f : Frame) : List Hit :=
  (b.conditions f).zipIdx.filterMap fun c =>
    if c.1 then some ⟨b.index, c.2, b.ffa, classRank b.fsc b.fbm⟩ else none

/-- The active banks with the values the matcher reads in their registers, in bank order; a bit that holds no value is
drawn (R60, R256). -/
def activeBanks : List (Fin 28) → State → List MatchBank × State
  | [], s => ([], s)
  | b :: rest, s =>
    if s.hasBank b.val && s.fact b.val then
      let r1 := resolve (s.bank b).fr1 s
      let r2 := resolve (s.bank b).fr2 r1.2
      let others := activeBanks rest r2.2
      (⟨b.val, s.fsc b.val, s.fbm b.val, s.ffa b.val, r1.1, r2.1⟩ :: others.1, others.2)
    else activeBanks rest s

/-- The matching filters of the greatest class present (`C` of R258). -/
def bestClass (hits : List Hit) : List Hit :=
  hits.filter fun h => hits.all fun h' => decide (h'.rank ≤ h.rank)

/-- The FIFO the frame goes to: the one `C` reaches, and a draw when it reaches both (R258). -/
def chooseFifo (c : List Hit) (s : State) : Fin 2 × State :=
  if c.all (fun h => decide (h.ffa = 0)) then (0, s)
  else if c.all (fun h => decide (h.ffa = 1)) then (1, s)
  else drawIn 0 [1] s

/-- The number of filters of a bank (R176, R262). -/
def filterCount (fsc fbm : Bool) : Nat :=
  match fsc, fbm with
  | true,  true  => 2
  | true,  false => 1
  | false, true  => 4
  | false, false => 2

/-- The filter-match index under the instance's numbering (R262). -/
def fmi (s : State) (f : Fin 2) (b p : Nat) : Nat :=
  match s.cfg.val.fmiNumbering with
  | .bank   => b
  | .filter =>
      (((List.range b).filter (fun b' => decide (s.ffa b' = f))).map (fun b' => filterCount (s.fsc b') (s.fbm b'))).sum + p

/-- `accept(F)` of R258: the FIFO and the filter-match index, or `none` when no active filter matches. -/
def accept (f : Frame) (s : State) : Option (Fin 2 × Nat) × State :=
  let banks := activeBanks (List.finRange 28) s
  match bestClass (banks.1.flatMap fun b => b.hits f) with
  | [] => (none, banks.2)
  | c@(_ :: _) =>
    let q := chooseFifo c banks.2
    match c.find? (fun h => decide (h.ffa = q.1)) with
    | some h => (some (q.1, fmi s q.1 h.bank h.position), q.2)
    | none   => (none, q.2)

/-- `stored_data(F)` of R260, R261: the bytes a data frame carries; every other lane holds no value. -/
def storedData (f : Frame) : Cell × Cell :=
  let n := if f.rtr then 0 else min f.dlc.toNat 8
  (⟨f.lo &&& loMask n, loMask n⟩, ⟨f.hi &&& hiMask n, hiMask n⟩)

/-- The entry a frame is stored as (R252). -/
def entryOf (f : Frame) (t : BitVec 16) (index : Nat) : Entry where
  ri  := idWord f.ide f.rtr f.id
  rdt := (t.zeroExtend 32 <<< 16) ||| (BitVec.ofNat 32 index <<< 8) ||| f.dlc.zeroExtend 32
  rdl := (storedData f).1
  rdh := (storedData f).2

/-- `store(f, e)` of R253: append, or on overrun discard the new entry or replace the newest. -/
def store (f : Fin 2) (e : Entry) (s : State) : State :=
  let q := s.fifo f
  if q.queue.length < s.cfg.val.fifoDepth then
    s.setFifo f { q with queue := q.queue ++ [e], full := q.full || decide (q.queue.length + 1 = s.cfg.val.fifoDepth) }
  else if s.rflm then s.setFifo f { q with fovr := true }
  else s.setFifo f { q with queue := q.queue.dropLast ++ [e], fovr := true }

/-- `offer(F, t)` of R252: lost in filter-initialization mode (R251), discarded when no filter accepts it, else stored. -/
def offer (f : Frame) (t : BitVec 16) (s : State) : State :=
  if s.finit then s
  else
    let sel := accept f s
    match sel.1 with
    | none => sel.2
    | some (q, index) => store q (entryOf f t index) sel.2

end Sys2Proof.Machine
end

