-- ==== Sys2Proof/Machine/Environment.lean ====
section
/-! DEFINITION. The events of the controller environment (spec/44_controller_events.md R240 to R252, R263): when each is
enabled, and its effect as one atomic step. -/

namespace Sys2Proof.Machine

/-- EV_TX_DONE's outcome: success always, failure only with NART in normal mode (R246). -/
def outcomeAllowed (ok : Bool) (s : State) : Bool := ok || (s.nart && !s.lbkm && !s.silm)

/-- The operating mode is silent: OPMODE = 2 (R248). -/
def State.silentOnly (s : State) : Bool := s.silm && !s.lbkm

/-- When an event may occur (R240 to R252, R263). -/
def enabled (e : EnvEvent) (s : State) : Bool :=
  match e with
  | .sleepExit   => !s.sleepReq && s.slak
  | .initEnter   => s.inrq && !s.sleepReq && !s.inak
  | .initExit    => !s.inrq && !s.sleepReq && s.inak
  | .sleepEnter  => s.sleepReq && !s.inrq && !s.slak
  | .wakeup      => s.slak
  | .txDone i ok => !s.tme i && decide (s.mode = .active) && !s.silentOnly && outcomeAllowed ok s
  | .txAbort i   => s.abrq i && !s.tme i
  | .rxFrame f   => decide (s.mode = .active) && !s.lbkm && f.wellFormed
  | .statusDrift => true
  | .none        => true

/-- EV_SLEEP_EXIT (R240). -/
def sleepExit (s : State) : State := { s with msr := withBit s.msr 1 false }

/-- EV_INIT_ENTER (R241). -/
def initEnter (s : State) : State := { s with msr := withBit (withBit s.msr 0 true) 1 false }

/-- EV_INIT_EXIT (R242). -/
def initExit (s : State) : State := { s with msr := withBit s.msr 0 false }

/-- EV_SLEEP_ENTER (R243). -/
def sleepEnter (s : State) : State :=
  { s with msr := withBit (withBit (withBit s.msr 1 true) 0 false) 4 true }

/-- EV_WAKEUP (R243). -/
def wakeup (s : State) : State :=
  { s with msr := withBit s.msr 3 true, mcr := if s.awum then withBit s.mcr 1 false else s.mcr }

/-- The time-stamp counter captured at a transmission or an arrival: any 16-bit value (R59, R293). -/
def captureTime (s : State) : State :=
  let d := draw s
  { d.2 with timeStamp := d.1.setWidth 16 }

/-- `frame_of_mailbox(i)` of R249, with the captured time stamp in bytes 6 and 7 under TTCM and TGT. -/
def frameOfMailbox (i : Fin 3) (s : State) : Frame × State :=
  let ri  := resolve (s.mailbox i).tir s
  let tdt := resolve (s.mailbox i).tdtr ri.2
  let lo  := resolve (s.mailbox i).tdlr tdt.2
  let hi  := resolve (s.mailbox i).tdhr lo.2
  let t   := s.timeStamp.zeroExtend 32
  let timed := s.ttcm && bit tdt.1 8 && decide (field tdt.1 3 0 = 8#32)
  let stamp := (field t 7 0 <<< 24) ||| (field t 15 8 <<< 16)
  (⟨bit ri.1 2, unpackId (bit ri.1 2) ri.1, bit ri.1 1, tdt.1.setWidth 4, lo.1,
    if timed then merge hi.1 stamp 0xFFFF0000#32 else hi.1⟩, hi.2)

/-- The TSR bits of mailbox `i` after a request ends: TME = 1, RQCP = 1, the three result bits as given, ABRQ = 0
(R245, R247). -/
def requestEnded (i : Fin 3) (txok alst terr : Bool) (s : State) : State :=
  let base := 8 * i.val
  let tsr := withBit (withBit (withBit s.tsr (26 + i.val) true) base true) (base + 7) false
  { s with tsr := withBit (withBit (withBit tsr (base + 1) txok) (base + 2) alst) (base + 3) terr,
           txOrder := s.txOrder.erase i }

/-- ALST and TERR of a completed request: both 0 on success, and exactly one of them, drawn, on failure (R245). -/
def drawLoss (ok : Bool) (s : State) : (Bool × Bool) × State :=
  if ok then ((false, false), s) else drawIn (true, false) [(false, true)] s

/-- TDTiR.TIME takes the captured time stamp (R245). -/
def stampTime (i : Fin 3) (s : State) : State :=
  s.setMailbox i { s.mailbox i with
    tdtr := (s.mailbox i).tdtr.patch 0xFFFF0000#32 (s.timeStamp.zeroExtend 32 <<< 16) }

/-- EV_TX_DONE(i, ok) up to the offer: the frame that was transmitted, and the state with its mailbox empty again (R245). -/
def transmitted (i : Fin 3) (ok : Bool) (s : State) : Frame × State :=
  let frame := frameOfMailbox i (captureTime s)
  let loss := drawLoss ok frame.2
  (frame.1, stampTime i (requestEnded i ok loss.1.1 loss.1.2 (clearTxrq i loss.2)))

/-- EV_TX_DONE(i, ok) (R245): in the loopback modes the frame is offered for reception. -/
def txDone (i : Fin 3) (ok : Bool) (s : State) : State :=
  let t := transmitted i ok s
  if ok && t.2.lbkm then offer t.1 t.2.timeStamp t.2 else t.2

/-- EV_TX_ABORT(i) (R247). -/
def txAbort (i : Fin 3) (s : State) : State := requestEnded i false false false (clearTxrq i s)

/-- EV_RX_FRAME(F) (R251, R252). -/
def rxFrame (f : Frame) (s : State) : State :=
  let s := captureTime s
  offer f s.timeStamp s

/-- Status drift (R250): TXM, RXM, SAMP, RX and ERRI of MSR, LOW0 to LOW2 of TSR, and every field of ESR take any value. -/
def statusDrift (s : State) : State :=
  let a := draw s
  let b := draw a.2
  let c := draw b.2
  { c.2 with msr := merge s.msr a.1 0x00000F04#32, tsr := merge s.tsr b.1 0xE0000000#32,
             esr := merge s.esr c.1 0xFFFF0077#32 }

/-- The effect of an event. -/
def effect (e : EnvEvent) (s : State) : State :=
  match e with
  | .sleepExit   => sleepExit s
  | .initEnter   => initEnter s
  | .initExit    => initExit s
  | .sleepEnter  => sleepEnter s
  | .wakeup      => wakeup s
  | .txDone i ok => txDone i ok s
  | .txAbort i   => txAbort i s
  | .rxFrame f   => rxFrame f s
  | .statusDrift => statusDrift s
  | .none        => s

/-- The environment's turn: its event if it is enabled, nothing otherwise (R244, log entry 5). -/
def fire (e : EnvEvent) (s : State) : State := if enabled e s then effect e s else s

end Sys2Proof.Machine
end

