-- ==== Sys2Proof/Machine/HostPort.lean ====
section
/-! DEFINITION. The host's actions on the command port and on the register port (spec/20_memory.md R92, R93, R96), and the
host's textual commands with their expansions (spec/30_encoding.md R134, R135). -/

namespace Sys2Proof.Machine

/-- An access the register port accepts: 32 bits wide, aligned, at 0x000 to 0x31C (R92, R93). -/
def accessAllowed (off width : Nat) : Bool := decide (width = 4) && decide (off % 4 = 0) && decide (off ≤ 0x31C)

/-- `MemRead(off, 4)`: a reserved offset reads 0 (R55, R92). -/
def memRead (off : Nat) (s : State) : Word × State :=
  match Reg.at off with
  | some r => readReg r s
  | none   => (0#32, s)

/-- `MemWrite(off, 4, v)`: a write to a reserved offset is ignored (R55, R92). -/
def memWrite (off : Nat) (v : Word) (s : State) : State :=
  match Reg.at off with
  | some r => writeReg r v s
  | none   => s

/-- The state after an action that shows the host some words. -/
def shown (ws : List Word) (s : State) : State := { s with hostData := ws }

/-- A host action, enabled while the sequencer is idle (R96). The one fault of the machine is an access the port refuses
(R93, R290). -/
def hostAct (a : HostAction) (s : State) : Host.Outcome State Fault Refusal :=
  match a with
  | .issue cmd a0 a1 a2 => .next (issue cmd a0 a1 a2 s)
  | .result => .next (shown [s.res0, s.res1, s.res2, s.res3, s.res4] s)
  | .memRead off width =>
      if accessAllowed off width then
        let d := memRead off s
        .next (shown [d.1] d.2)
      else .fault (.hostAccessRefused off width)
  | .memWrite off width v =>
      if accessAllowed off width then .next (memWrite off v s)
      else .fault (.hostAccessRefused off width)

/-! ### The textual commands (R134, R135) -/

/-- A line of R134 and the pseudo-commands of R135, with the operands the line names. -/
inductive Line where
  | init (mode : OpMode) (baud : Nat) (flags : FeatureFlags)
  | cfgf (bank : Nat) (scale : FilterScale) (mode : FilterMode) (fifo : Fin 2) (fr1 fr2 : Word)
  | tx (ide : Bool) (id : Word) (dlc : Nat) (rtr tgt : Bool) (lo hi : Word)
  | rx (fifo : Fin 2)
  | rd (off : Nat)
  | wr (off : Nat) (v : Word)
  /-- `CFGF.ALL <bank>, <fifo>`: accept every identifier. -/
  | cfgfAll (bank : Nat) (fifo : Fin 2)
  /-- `TXR <ide>, <id>, <dlc>`: a remote frame. -/
  | txr (ide : Bool) (id : Word) (dlc : Nat)
  deriving DecidableEq, Repr

/-- R135: a pseudo-command is exactly one command. -/
def Line.expand : Line → Line
  | .cfgfAll bank fifo => .cfgf bank .one32 .mask fifo 0#32 0#32
  | .txr ide id dlc    => .tx ide id dlc true false 0#32 0#32
  | l                  => l

/-- The host action of a line that is no pseudo-command: the command word and the operand words it issues, or the register
access it makes. An operand word a command does not read is given as 0. -/
def Line.coreAction : Line → HostAction
  | .init mode baud flags                => .issue (encode (.init mode flags baud)) 0 0 0
  | .cfgf bank scale mode fifo fr1 fr2   => .issue (encode (.cfgf bank scale mode fifo)) fr1 fr2 0
  | .tx ide id dlc rtr tgt lo hi         => .issue (encode (.tx ide rtr tgt dlc)) id lo hi
  | .rx fifo                             => .issue (encode (.rx fifo)) 0 0 0
  | .rd off                              => .memRead off 4
  | .wr off v                            => .memWrite off 4 v
  | .cfgfAll bank fifo                   => .issue (encode (.cfgf bank .one32 .mask fifo)) 0 0 0
  | .txr ide id dlc                      => .issue (encode (.tx ide true false dlc)) id 0 0

/-- The host action of a line (R134, R135). -/
def Line.action (l : Line) : HostAction := l.expand.coreAction

end Sys2Proof.Machine
end

