-- ==== Sys2Proof/Machine/Schedule.lean ====
section
/-! DEFINITION. Whose step comes next (spec/00_scope.md R14, spec/20_memory.md R96): the sequencer's, the host's or the
environment's, as the agenda of the state lays it down. -/

namespace Sys2Proof.Machine

/-- One step of the sequencer nearer: the wait of the agenda's first event. A host action does not count steps (log
entry 5). -/
def ageAgenda : List Turn → List Turn
  | ⟨n + 1, .env e⟩ :: rest => ⟨n, .env e⟩ :: rest
  | agenda => agenda

/-- A step of the sequencer passes. -/
def elapse (s : State) : State := { s with agenda := ageAgenda s.agenda }

/-- The sequencer's step: one micro-operation of the command in `CMD` (R14); a word that is no command ends with
ILLEGAL_COMMAND (R132, R283); while idle the block waits (R310, log entry 1). -/
def sequencer (s : State) : Host.Outcome State Fault Refusal :=
  match s.seq with
  | .idle => .next s
  | .busy _ =>
    match decode s.cmd with
    | .ok i    => exec i (elapse s)
    | .error _ => .next (raise .illegalCommand (elapse s))

/-- Whether a scheduled move comes now: a host action when the sequencer is idle (R96), an event when its turn has come or
no step of the sequencer is left to wait for. -/
def Turn.due (t : Turn) (s : State) : Bool :=
  match t.move with
  | .host _ => decide (s.seq = .idle)
  | .env _  => decide (t.wait = 0) || decide (s.seq = .idle)

/-- A move of the host or of the environment. -/
def perform (m : Move) (s : State) : Host.Outcome State Fault Refusal :=
  match m with
  | .host a => hostAct a s
  | .env e  => .next (fire e s)

/-- One step of the machine. -/
def advance (s : State) : Host.Outcome State Fault Refusal :=
  match s.agenda with
  | [] => sequencer s
  | t :: rest => if t.due s then perform t.move { s with agenda := rest } else sequencer s

/-- A command given as one number is issued on the command port with nothing scheduled before it, so that the next step runs
it (R96, log entry 7). -/
def issueTableWord (s : State) (nbits w : Nat) : State :=
  issue (tableWord nbits w 0) (tableWord nbits w 1) (tableWord nbits w 2) (tableWord nbits w 3) { s with agenda := [] }

end Sys2Proof.Machine
end

