-- ==== Sys2Proof/Machine/Step.lean ====
section
/-! DEFINITION. One step of the machine, and how the host's tools put a command where the next step runs it. -/

namespace Sys2Proof.Machine

/-- One step: a host action, an environment event, or one micro-operation of the sequencer (spec/00_scope.md R14). Which
agent moves is data of the state (log entry 1). -/
def step (s : State) : Host.Outcome State Fault Refusal := advance s

/-- The state with a command issued, so that the next step runs it. -/
def State.withFetchWord (s : State) (nbits w : Nat) : State := issueTableWord s nbits w

end Sys2Proof.Machine
end

