-- ==== Sys2Proof/Machine/Assembler.lean ====
section
/-! DEFINITION. The text of the spec's command lines (spec/30_encoding.md R134, R135; numbers as in spec/00_scope.md R11): one
command a line, operands separated by commas, `;` starting a comment. -/

namespace Sys2Proof.Machine

/-- A piece of a line. -/
abbrev Text := List Char

/-- The text without leading and trailing blanks. -/
def trim (t : Text) : Text := ((t.dropWhile (· == ' ')).reverse.dropWhile (· == ' ')).reverse

/-- The operands of a line: the pieces between commas, without their blanks; blank text has none. -/
def operands (t : Text) : List Text := if trim t = [] then [] else (t.splitOn ',').map trim

/-- The value of a digit of base 16. -/
def digit (c : Char) : Option Nat :=
  let n := c.toNat
  if 48 ≤ n ∧ n ≤ 57 then some (n - 48)
  else if 65 ≤ n ∧ n ≤ 70 then some (n - 55)
  else if 97 ≤ n ∧ n ≤ 102 then some (n - 87)
  else none

/-- The value of a non-empty list of digits in a base. -/
def digits (base : Nat) (t : Text) : Option Nat :=
  if t = [] then none
  else t.foldl (fun acc c => do
    let n ← acc
    let d ← digit c
    if d < base then some (n * base + d) else none) (some 0)

/-- A number: decimal, or hexadecimal after `0x`, with optional `_` separators (R11, R134). -/
def number (t : Text) : Option Nat :=
  match t with
  | '0' :: 'x' :: rest => digits 16 (rest.filter (· != '_'))
  | _ => digits 10 (t.filter (· != '_'))

/-- A number of 32 bits. -/
def wordOperand (t : Text) : Option Word := do
  let n ← number t
  if n < 2 ^ 32 then some (BitVec.ofNat 32 n) else none

/-- `<mode>` of INIT. -/
def modeOperand (t : Text) : Option OpMode :=
  if t = ['n', 'o', 'r', 'm', 'a', 'l'] then some .normal
  else if t = ['l', 'o', 'o', 'p', 'b', 'a', 'c', 'k'] then some .loopback
  else if t = ['s', 'i', 'l', 'e', 'n', 't'] then some .silent
  else if t = ['s', 'i', 'l', 'e', 'n', 't', '-', 'l', 'o', 'o', 'p', 'b', 'a', 'c', 'k'] then some .silentLoopback
  else none

/-- `<scale>`, `16` or `32`. -/
def scaleOperand (t : Text) : Option FilterScale :=
  if t = ['1', '6'] then some .two16 else if t = ['3', '2'] then some .one32 else none

/-- `<fmode>`, `mask` or `list`. -/
def filterModeOperand (t : Text) : Option FilterMode :=
  if t = ['m', 'a', 's', 'k'] then some .mask else if t = ['l', 'i', 's', 't'] then some .list else none

/-- `<fifo>`, `0` or `1`. -/
def fifoOperand (t : Text) : Option (Fin 2) := if t = ['0'] then some 0 else if t = ['1'] then some 1 else none

/-- `<ide>`, `std` or `ext`. -/
def ideOperand (t : Text) : Option Bool :=
  if t = ['s', 't', 'd'] then some false else if t = ['e', 'x', 't'] then some true else none

/-- An optional named operand: whether it stands first, and what is left. -/
def namedOperand (name : Text) (ops : List Text) : Bool × List Text :=
  match ops with
  | t :: rest => if t = name then (true, rest) else (false, ops)
  | [] => (false, [])

/-- The named flags of INIT, in the order of R134; an absent flag is 0. -/
def flagOperands (ops : List Text) : Option FeatureFlags :=
  let txfp := namedOperand ['t', 'x', 'f', 'p'] ops
  let rflm := namedOperand ['r', 'f', 'l', 'm'] txfp.2
  let nart := namedOperand ['n', 'a', 'r', 't'] rflm.2
  let awum := namedOperand ['a', 'w', 'u', 'm'] nart.2
  let abom := namedOperand ['a', 'b', 'o', 'm'] awum.2
  let ttcm := namedOperand ['t', 't', 'c', 'm'] abom.2
  if ttcm.2 = [] then some ⟨txfp.1, rflm.1, nart.1, awum.1, abom.1, ttcm.1⟩ else none

/-- `INIT <mode>, <baud>[, flags]`. -/
def parseInit (ops : List Text) : Option Line :=
  match ops with
  | mode :: baud :: flags => do
    let m ← modeOperand mode
    let b ← number baud
    let f ← flagOperands flags
    if baudFits b then some (.init m b f) else none
  | _ => none

/-- `CFGF <bank>, <scale>, <fmode>, <fifo>, <fr1>, <fr2>`. -/
def parseCfgf (ops : List Text) : Option Line :=
  match ops with
  | [bank, scale, fmode, fifo, fr1, fr2] => do
    let b ← number bank
    let s ← scaleOperand scale
    let m ← filterModeOperand fmode
    let f ← fifoOperand fifo
    let r1 ← wordOperand fr1
    let r2 ← wordOperand fr2
    if bankFits b then some (.cfgf b s m f r1 r2) else none
  | _ => none

/-- `TX <ide>, <id>, <dlc>[, rtr][, tgt], <lo>, <hi>`. -/
def parseTx (ops : List Text) : Option Line :=
  match ops with
  | ide :: id :: dlc :: rest =>
    let rtr := namedOperand ['r', 't', 'r'] rest
    let tgt := namedOperand ['t', 'g', 't'] rtr.2
    match tgt.2 with
    | [lo, hi] => do
      let e ← ideOperand ide
      let i ← wordOperand id
      let d ← number dlc
      let l ← wordOperand lo
      let h ← wordOperand hi
      if dlcFits d then some (.tx e i d rtr.1 tgt.1 l h) else none
    | _ => none
  | _ => none

/-- `TXR <ide>, <id>, <dlc>`. -/
def parseTxr (ops : List Text) : Option Line :=
  match ops with
  | [ide, id, dlc] => do
    let e ← ideOperand ide
    let i ← wordOperand id
    let d ← number dlc
    if dlcFits d then some (.txr e i d) else none
  | _ => none

/-- `CFGF.ALL <bank>, <fifo>`. -/
def parseCfgfAll (ops : List Text) : Option Line :=
  match ops with
  | [bank, fifo] => do
    let b ← number bank
    let f ← fifoOperand fifo
    if bankFits b then some (.cfgfAll b f) else none
  | _ => none

/-- A line of R134 or R135; `none` is no line of the language. -/
def parseLine (line : Text) : Option Line :=
  let t := trim (line.takeWhile (· != ';'))
  let name := t.takeWhile (· != ' ')
  let ops := operands (t.dropWhile (· != ' '))
  if name = ['I', 'N', 'I', 'T'] then parseInit ops
  else if name = ['C', 'F', 'G', 'F'] then parseCfgf ops
  else if name = ['T', 'X'] then parseTx ops
  else if name = ['R', 'X'] then
    match ops with
    | [f] => (fifoOperand f).map .rx
    | _ => none
  else if name = ['R', 'D'] then
    match ops with
    | [off] => (number off).map .rd
    | _ => none
  else if name = ['W', 'R'] then
    match ops with
    | [off, v] => do
      let o ← number off
      let w ← wordOperand v
      some (.wr o w)
    | _ => none
  else if name = ['C', 'F', 'G', 'F', '.', 'A', 'L', 'L'] then parseCfgfAll ops
  else if name = ['T', 'X', 'R'] then parseTxr ops
  else none

end Sys2Proof.Machine
end

