-- ==== Sys2Proof/Safety.lean ====
section
/-! DEFINITION. What counts as a safe run, and the invariants claims are stated with. -/

namespace Sys2Proof

open Machine

/-- A run of any length from `s` neither faults nor is refused. -/
def Safe (s : State) : Prop := ∀ k, ∃ t, Host.Core.run core k s = .next t

/-- Every register access the host has scheduled is one the port accepts (R92, R93). -/
def Machine.State.HostAccessesAllowed (s : State) : Prop :=
  ∀ t ∈ s.agenda,
    (∀ off width, t.move = .host (.memRead off width) → accessAllowed off width = true) ∧
    (∀ off width v, t.move = .host (.memWrite off width v) → accessAllowed off width = true)

/-- A run has ended: the sequencer is idle and no host action is left (R319). Events may still follow. -/
def Machine.State.Finished (s : State) : Prop :=
  s.seq = .idle ∧ ∀ t ∈ s.agenda, ∀ a, t.move ≠ .host a

/-- `exec` takes command `i` from where the sequencer stands in `s` to its end in exactly `n` micro-operations, each of which
answers a next state; `t` is the state it answers at the end (R34, R102). A command that is rejected before its first
micro-operation takes one step too (log entry 16). -/
def Machine.Completes (i : Instr) : Nat → State → State → Prop
  | 0, _, _ => False
  | 1, s, t => exec i s = .next t ∧ t.seq = .idle
  | n + 2, s, t => ∃ u, exec i s = .next u ∧ u.seq ≠ .idle ∧ Completes i (n + 1) u t

/-- `exec` takes command `i` from `s` to `t` by one micro-operation, or by all that are left. -/
def Machine.Reaches (i : Instr) (s t : State) : Prop := exec i s = .next t ∨ ∃ n, Completes i n s t

/-- From `s` to `t` the register file is accessed at most once, by a read, a write or a field write, and beside it only the
sequencer and the result words change: one micro-operation (R12). -/
def Machine.OneAccess (s t : State) : Prop :=
  ∃ u, (u = s ∨ (∃ r, u = (readReg r s).2) ∨ (∃ r v, u = writeReg r v s) ∨ (∃ r change, u = modifyReg r change s)) ∧
    t = { u with seq := t.seq, res0 := t.res0, res1 := t.res1, res2 := t.res2, res3 := t.res3, res4 := t.res4 }

/-! ### Invariants -/

/-- TXRQ of a mailbox holds a value, and it is 1 exactly when the mailbox is pending (R43, R191, R194). -/
def Machine.State.MailboxFlags (s : State) : Prop :=
  ∀ i : Fin 3, bit (s.mailbox i).tir.known 0 = true ∧ bit (s.mailbox i).tir.val 0 = !s.tme i

/-- No queue holds more than `FIFO_DEPTH` frames (R56). -/
def Machine.State.QueuesFit (s : State) : Prop :=
  ∀ f : Fin 2, (s.queue f).length ≤ s.cfg.val.fifoDepth

/-- The controller never acknowledges sleep and initialization at once (R37, R240 to R243). -/
def Machine.State.OneMode (s : State) : Prop := ¬(s.inak = true ∧ s.slak = true)

/-- An abort is requested only of a pending mailbox (R94, R247). -/
def Machine.State.AbortsPending (s : State) : Prop := ∀ i : Fin 3, s.abrq i = true → s.tme i = false

/-- The order of requests names exactly the pending mailboxes, each once (R58). -/
def Machine.State.OrderPending (s : State) : Prop :=
  s.txOrder.Nodup ∧ ∀ i : Fin 3, i ∈ s.txOrder ↔ s.tme i = false

/-- The reserved bits 7:4 and 15:9 of a TDTiR cell hold 0 (R44). -/
def Machine.Cell.ReservedZero (c : Cell) : Prop :=
  c.val &&& 0x0000FEF0#32 = 0 ∧ c.known &&& 0x0000FEF0#32 = 0x0000FEF0#32

/-- Reserved bits of the stored registers, TSR.CODE and MCR.RESET are 0, and FMR.CAN2SB is 0x0E (R36 to R42, R49 to R53). -/
def Machine.State.ReservedClear (s : State) : Prop :=
  s.mcr &&& ~~~0x000100FF#32 = 0 ∧ s.msr &&& ~~~0x00000F1F#32 = 0 ∧ s.tsr &&& ~~~tsrMask = 0 ∧
  s.ier &&& ~~~0x00038F7F#32 = 0 ∧ s.esr &&& ~~~0xFFFF0077#32 = 0 ∧ s.btr &&& ~~~0xC37F03FF#32 = 0 ∧
  s.fmr &&& ~~~1#32 = 0x00000E00#32 ∧
  s.fm1r &&& ~~~s.bankMask = 0 ∧ s.fs1r &&& ~~~s.bankMask = 0 ∧
  s.ffa1r &&& ~~~s.bankMask = 0 ∧ s.fa1r &&& ~~~s.bankMask = 0

/-- The reserved bits of the mailbox registers, all of them in TDTiR, hold 0 (R44). -/
def Machine.State.MailboxReservedClear (s : State) : Prop := ∀ i : Fin 3, (s.mailbox i).tdtr.ReservedZero

/-- A cell in canonical form: a bit that holds no value is stored 0. -/
def Machine.Cell.Canonical (c : Cell) : Prop := c.val &&& ~~~c.known = 0

/-- Every cell of the register file is in canonical form, so that equal register files are equal data. -/
def Machine.State.CellsCanonical (s : State) : Prop :=
  (∀ i : Fin 3, (s.mailbox i).tir.Canonical ∧ (s.mailbox i).tdtr.Canonical ∧
    (s.mailbox i).tdlr.Canonical ∧ (s.mailbox i).tdhr.Canonical) ∧
  (∀ b : Fin 28, (s.bank b).fr1.Canonical ∧ (s.bank b).fr2.Canonical) ∧
  (∀ f : Fin 2, ∀ e ∈ s.queue f, e.rdl.Canonical ∧ e.rdh.Canonical)

/-- What the register file keeps in every run: the well-formedness of the stored controller state. -/
structure Machine.State.Consistent (s : State) : Prop where
  mailboxFlags   : s.MailboxFlags
  queuesFit      : s.QueuesFit
  oneMode        : s.OneMode
  abortsPending  : s.AbortsPending
  orderPending   : s.OrderPending
  reservedClear  : s.ReservedClear
  cellsCanonical : s.CellsCanonical
  mailboxReserved : s.MailboxReservedClear

/-- The sequencer's turn: a command is in flight and no other agent's move is due. -/
def Machine.State.SequencerTurn (s : State) : Prop :=
  s.seq ≠ .idle ∧ ∀ t rest, s.agenda = t :: rest → t.due s = false

/-- What INIT has done by its present place stays done: out of the sleep request, initialization requested and acknowledged,
the flags written (R155, R157). -/
def Machine.State.InitSoFar (flags : FeatureFlags) (p : InFlight) (s : State) : Prop :=
  (1 ≤ p.step → s.sleepReq = false) ∧ (3 ≤ p.step → s.inrq = true) ∧ (4 ≤ p.step → s.inak = true) ∧
  (5 ≤ p.step → field s.mcr 7 2 = flags.code)

/-- CFGF at its present place: filter-initialization mode since step 1, the bank inactive from step 2 to step 7, and every
value written so far in place (R172, R178). -/
def Machine.State.CfgfSoFar (bank : Nat) (scale : FilterScale) (mode : FilterMode) (fifo : Fin 2) (p : InFlight)
    (s : State) : Prop :=
  (1 ≤ p.step → s.finit = true) ∧ (2 ≤ p.step ∧ p.step ≤ 7 → s.fact bank = false) ∧
  (3 ≤ p.step → s.fsc bank = scale.toBool) ∧ (4 ≤ p.step → s.fbm bank = mode.toBool) ∧
  (5 ≤ p.step → ∀ b : Fin 28, b.val = bank → (s.bank b).fr1 = .of s.arg0) ∧
  (6 ≤ p.step → ∀ b : Fin 28, b.val = bank → (s.bank b).fr2 = .of s.arg1) ∧
  (7 ≤ p.step → s.ffa bank = fifo)

/-- TX at its present place: the claimed mailbox is still empty and holds what has been written so far, so that it holds the
whole frame when it becomes pending (R197, R198). -/
def Machine.State.TxSoFar (ide rtr tgt : Bool) (dlc : Nat) (p : InFlight) (s : State) : Prop :=
  (1 ≤ p.step → s.tme p.m = true) ∧ (2 ≤ p.step → (s.mailbox p.m).tir = .of (idWord ide rtr s.arg0)) ∧
  (3 ≤ p.step → (s.mailbox p.m).tdtr.val &&& 0xFFFF010F#32 = tdtWord tgt dlc ∧
    (s.mailbox p.m).tdtr.known &&& 0xFFFF010F#32 = 0xFFFF010F#32) ∧
  (4 ≤ p.step → (s.mailbox p.m).tdlr = .of (s.arg1 &&& loMask dlc)) ∧
  (5 ≤ p.step → (s.mailbox p.m).tdhr = .of (s.arg2 &&& hiMask dlc))

/-- RX at its present place: the FIFO still holds the frame it found, and the words read so far are that frame's (R228). -/
def Machine.State.RxSoFar (f : Fin 2) (p : InFlight) (s : State) : Prop :=
  1 ≤ p.step → ∃ e rest, s.queue f = e :: rest ∧
    (2 ≤ p.step → p.ri = e.ri &&& 0xFFFFFFFE#32) ∧ (3 ≤ p.step → p.rdt = e.rdt &&& 0xFFFFFF0F#32) ∧
    (4 ≤ p.step → p.lo &&& e.rdl.known = e.rdl.val &&& e.rdl.known) ∧
    (5 ≤ p.step → p.hi &&& e.rdh.known = e.rdh.val &&& e.rdh.known)

/-- What the sequencer may rely on at its present place in the command in flight, whatever the environment has done in
between. -/
def Machine.State.InFlightSafe (s : State) : Prop :=
  ∀ p, s.seq = .busy p →
    match decode s.cmd with
    | .ok (.init _ flags _) => s.InitSoFar flags p
    | .ok (.cfgf bank scale mode fifo) => s.CfgfSoFar bank scale mode fifo p
    | .ok (.tx ide rtr tgt dlc) => s.TxSoFar ide rtr tgt dlc p
    | .ok (.rx f) => s.RxSoFar f p
    | .error _ => True

end Sys2Proof
end

