-- ==== Sys2Proof/Certificates/Slice0/Obligations.lean ====
section
/-! DEFINITION. The statements for the provers. Each docstring names the rule of spec/ it formalises. -/

open Sys2Proof Sys2Proof.Machine

/-! ### Encoding -/

/-- R122, R123, R125, R126, R133: the decoder gives back every well-formed command from its word. -/
def Obligations.DecodeOfEncode : Prop :=
  ∀ i : Instr, i.wellFormed = true → decode (encode i) = .ok i

/-- R120 to R127: a word has one meaning, so a word that decodes is the word of the command it decodes to, and no bit of it
is dropped. -/
def Obligations.EncodeOfDecode : Prop :=
  ∀ (w : Word) (i : Instr), decode w = .ok i → i.wellFormed = true ∧ encode i = w

/-- The reserved words of R132, as arithmetic on the word. -/
def Sys2Proof.ReservedWord (w : Word) : Prop :=
  let opc := w.toNat % 16
  opc = 0 ∨ 5 ≤ opc ∨
  (opc = 1 ∧ (w.toNat / 2 ^ 12 % 16 ≠ 0 ∨ w.toNat / 2 ^ 24 ≠ 0)) ∨
  (opc = 2 ∧ w.toNat / 2 ^ 12 ≠ 0) ∨
  (opc = 3 ∧ (w.toNat / 2 ^ 7 % 2 ≠ 0 ∨ w.toNat / 2 ^ 12 ≠ 0)) ∨
  (opc = 4 ∧ w.toNat / 2 ^ 5 ≠ 0)

/-- R132: the illegal words are exactly those, and an illegal command in flight performs no micro-operation, writes only
`RES[0]` and completes. That its end is one step is log entry 16; that the wait of the agenda's first event goes down by that
step is log entry 5. -/
def Obligations.IllegalCommandWritesOnlyStatus : Prop :=
  (∀ w : Word, (∃ e, decode w = .error e) ↔ ReservedWord w) ∧
  (∀ s : State, s.SequencerTurn → ReservedWord s.cmd →
    step s = .next { s with agenda := ageAgenda s.agenda, res0 := 0x00000005#32, seq := .idle })

/-- R122, R123, R125, R126: words written out from the patterns decode to the commands they stand for. -/
def Obligations.SpecWordsDecode : Prop :=
  decode 0b00000000000000000000111111000001#32 = .ok (.init .normal ⟨true, true, true, true, true, true⟩ 0) ∧
  decode 0b00000000101010100000000101110001#32 = .ok (.init .silentLoopback ⟨true, false, true, false, false, false⟩ 170) ∧
  decode 0b00000000000000000000011110110010#32 = .ok (.cfgf 27 .one32 .list 0) ∧
  decode 0b00000000000000000000110001010010#32 = .ok (.cfgf 5 .two16 .list 1) ∧
  decode 0b00000000000000000000001100010011#32 = .ok (.tx true false false 3) ∧
  decode 0b00000000000000000000100001100011#32 = .ok (.tx false true true 8) ∧
  decode 0b00000000000000000000000000010100#32 = .ok (.rx 1)

/-- The text of a number (R11, R134): decimal digits, or `0x` and hexadecimal digits with `_` separators. -/
def Sys2Proof.NumberText (n : Nat) (t : Text) : Prop :=
  (∃ ds : List (Fin 10), ds ≠ [] ∧ t = ds.map (fun d => Nat.digitChar d.val) ∧ n = ds.foldl (fun a d => a * 10 + d.val) 0) ∨
  (∃ (ds : List (Fin 16)) (rest : Text), ds ≠ [] ∧ t = '0' :: 'x' :: rest ∧
    List.Forall₂ (fun c d => c = Nat.digitChar d.val ∨ c = (Nat.digitChar d.val).toUpper) (rest.filter (· != '_')) ds ∧
    n = ds.foldl (fun a d => a * 16 + d.val) 0)

/-- A line of R134: the command's name, its operands separated by commas, and what follows them: nothing or a comment. -/
def Sys2Proof.lineText (name : String) (ops : List Text) (comment : Text) : Text :=
  name.toList ++ ' ' :: [',', ' '].intercalate ops ++ comment

/-- `<mode>` of INIT in R134. -/
def Sys2Proof.modeText : OpMode → Text
  | .normal         => "normal".toList
  | .loopback       => "loopback".toList
  | .silent         => "silent".toList
  | .silentLoopback => "silent-loopback".toList

/-- A named flag of R134: present for 1, absent for 0. -/
def Sys2Proof.flagText (name : String) (b : Bool) : List Text := if b then [name.toList] else []

/-- The named flags of INIT in the order of R134. -/
def Sys2Proof.flagTexts (f : FeatureFlags) : List Text :=
  flagText "txfp" f.txfp ++ flagText "rflm" f.rflm ++ flagText "nart" f.nart ++ flagText "awum" f.awum ++
    flagText "abom" f.abom ++ flagText "ttcm" f.ttcm

/-- `<scale>`, `<fmode>`, `<fifo>` and `<ide>` of R134. -/
def Sys2Proof.scaleText (x : FilterScale) : Text := if x = .one32 then "32".toList else "16".toList
def Sys2Proof.fmodeText (x : FilterMode) : Text := if x = .list then "list".toList else "mask".toList
def Sys2Proof.fifoText (x : Fin 2) : Text := if x = 1 then "1".toList else "0".toList
def Sys2Proof.ideText (x : Bool) : Text := if x then "ext".toList else "std".toList

/-- Every line of R134 and R135, with its operands as R134 writes them, reads as the line it is. -/
def Sys2Proof.LinesRead : Prop :=
  ∀ comment : Text, comment = [] ∨ comment.head? = some ';' →
  (∀ mode flags baud b, NumberText baud b → baud < 256 →
    parseLine (lineText "INIT" (modeText mode :: b :: flagTexts flags) comment) = some (.init mode baud flags)) ∧
  (∀ scale mode fifo bank b (fr1 fr2 : Word) r1 r2, NumberText bank b → bank < 32 → NumberText fr1.toNat r1 →
    NumberText fr2.toNat r2 →
    parseLine (lineText "CFGF" [b, scaleText scale, fmodeText mode, fifoText fifo, r1, r2] comment) =
      some (.cfgf bank scale mode fifo fr1 fr2)) ∧
  (∀ ide rtr tgt dlc d (id lo hi : Word) i l h, NumberText dlc d → dlc < 16 → NumberText id.toNat i →
    NumberText lo.toNat l → NumberText hi.toNat h →
    parseLine (lineText "TX" ([ideText ide, i, d] ++ flagText "rtr" rtr ++ flagText "tgt" tgt ++ [l, h]) comment) =
      some (.tx ide id dlc rtr tgt lo hi)) ∧
  (∀ fifo, parseLine (lineText "RX" [fifoText fifo] comment) = some (.rx fifo)) ∧
  (∀ off o, NumberText off o → parseLine (lineText "RD" [o] comment) = some (.rd off)) ∧
  (∀ off o (v : Word) w, NumberText off o → NumberText v.toNat w →
    parseLine (lineText "WR" [o, w] comment) = some (.wr off v)) ∧
  (∀ fifo bank b, NumberText bank b → bank < 32 →
    parseLine (lineText "CFGF.ALL" [b, fifoText fifo] comment) = some (.cfgfAll bank fifo)) ∧
  (∀ ide dlc d (id : Word) i, NumberText dlc d → dlc < 16 → NumberText id.toNat i →
    parseLine (lineText "TXR" [ideText ide, i, d] comment) = some (.txr ide id dlc))

/-- R134, R135: a line of the textual syntax with operands that fit their fields issues one command word, which decodes to the
command the line names, with the line's operand words; a pseudo-command issues its expansion. The text of each line reads as
that line, and a text that reads as a line has operands that fit (log entry 18). -/
def Obligations.LinesIssueTheirCommands : Prop :=
  (∀ mode baud flags, baud < 256 → ∃ w a0 a1 a2, (Line.init mode baud flags).action = .issue w a0 a1 a2 ∧
    decode w = .ok (.init mode flags baud)) ∧
  (∀ bank scale mode fifo fr1 fr2, bank < 32 → ∃ w a2, (Line.cfgf bank scale mode fifo fr1 fr2).action = .issue w fr1 fr2 a2 ∧
    decode w = .ok (.cfgf bank scale mode fifo)) ∧
  (∀ ide id dlc rtr tgt lo hi, dlc < 16 → ∃ w, (Line.tx ide id dlc rtr tgt lo hi).action = .issue w id lo hi ∧
    decode w = .ok (.tx ide rtr tgt dlc)) ∧
  (∀ fifo, ∃ w a0 a1 a2, (Line.rx fifo).action = .issue w a0 a1 a2 ∧ decode w = .ok (.rx fifo)) ∧
  (∀ off v, (Line.rd off).action = .memRead off 4 ∧ (Line.wr off v).action = .memWrite off 4 v) ∧
  (∀ bank fifo, (Line.cfgfAll bank fifo).action = (Line.cfgf bank .one32 .mask fifo 0 0).action) ∧
  (∀ ide id dlc, (Line.txr ide id dlc).action = (Line.tx ide id dlc true false 0 0).action) ∧
  LinesRead ∧
  (∀ text l, parseLine text = some l → match l with
    | .init _ baud _ => baud < 256
    | .cfgf bank _ _ _ _ _ | .cfgfAll bank _ => bank < 32
    | .tx _ _ dlc _ _ _ _ | .txr _ _ dlc => dlc < 16
    | .rx _ | .rd _ | .wr _ _ => True)

/-! ### Steps and agents -/

/-- R14: on the sequencer's turn a step is `exec` of the command in flight, one micro-operation. Around it the step only
counts down the wait of the first event of the agenda (log entry 5), and a host action waits (R96). -/
def Obligations.StepRunsDecodedCommand : Prop :=
  ∀ (s : State) (i : Instr), s.seq ≠ .idle → decode s.cmd = .ok i →
    (s.agenda = [] → step s = exec i s) ∧
    (∀ n e rest, s.agenda = ⟨n + 1, .env e⟩ :: rest → step s = exec i { s with agenda := ⟨n, .env e⟩ :: rest }) ∧
    (∀ n a rest, s.agenda = ⟨n, .host a⟩ :: rest → step s = exec i s)

/-- R96: what each host action does while the sequencer is idle; while it is busy the host has no move. -/
def Obligations.HostMovesOnlyWhileIdle : Prop :=
  (∀ (s : State) n cmd a0 a1 a2 rest, s.seq = .idle → s.agenda = ⟨n, .host (.issue cmd a0 a1 a2)⟩ :: rest →
    ∃ p : InFlight, p.step = 0 ∧ p.polls = 0 ∧
      step s = .next { s with agenda := rest, cmd := cmd, arg0 := a0, arg1 := a1, arg2 := a2, seq := .busy p }) ∧
  (∀ (s : State) n rest, s.seq = .idle → s.agenda = ⟨n, .host .result⟩ :: rest →
    step s = .next { s with agenda := rest, hostData := [s.res0, s.res1, s.res2, s.res3, s.res4] }) ∧
  (∀ (s : State) n off rest, s.seq = .idle → s.agenda = ⟨n, .host (.memRead off 4)⟩ :: rest → off % 4 = 0 → off ≤ 0x31C →
    ∃ tape k, step s = .next { s with
      agenda := rest, drawTape := tape, drawCount := k, hostData := [(memRead off { s with agenda := rest }).1] }) ∧
  (∀ (s : State) n off v rest, s.seq = .idle → s.agenda = ⟨n, .host (.memWrite off 4 v)⟩ :: rest → off % 4 = 0 →
    off ≤ 0x31C → step s = .next (memWrite off v { s with agenda := rest })) ∧
  (∀ (s t : State) n a rest, s.seq ≠ .idle → s.agenda = ⟨n, .host a⟩ :: rest → step s = .next t →
    t.agenda = s.agenda ∧ t.hostData = s.hostData ∧ t.cmd = s.cmd ∧ t.arg0 = s.arg0 ∧ t.arg1 = s.arg1 ∧ t.arg2 = s.arg2)

/-- R93: the port refuses a host access that is not an aligned 32-bit access within 0x000 to 0x31C. -/
def Obligations.HostAccessRefused : Prop :=
  ∀ (s : State) n off width v rest, s.seq = .idle → (width ≠ 4 ∨ off % 4 ≠ 0 ∨ 0x31C < off) →
    (s.agenda = ⟨n, .host (.memRead off width)⟩ :: rest → step s = .fault (.hostAccessRefused off width)) ∧
    (s.agenda = ⟨n, .host (.memWrite off width v)⟩ :: rest → step s = .fault (.hostAccessRefused off width))

/-- R290: apart from refused accesses nothing stops the machine: from a state whose scheduled accesses are all allowed every
step answers a next state, which is such a state again, so a run from it is safe for ever. -/
def Obligations.OnlyRefusedAccessStops : Prop :=
  ∀ s : State, s.HostAccessesAllowed → (∃ t, step s = .next t ∧ t.HostAccessesAllowed) ∧ Safe s

/-- R14, R244: an event is one step of its own, before the next micro-operation or while the sequencer is idle; an event
that is not enabled does not happen. -/
def Obligations.EventIsOneStep : Prop :=
  ∀ (s : State) n e rest, s.agenda = ⟨n, .env e⟩ :: rest → (n = 0 ∨ s.seq = .idle) →
    step s = .next (if enabled e { s with agenda := rest } then effect e { s with agenda := rest }
      else { s with agenda := rest })

/-- R12, R14, R34: `exec` of a command is one micro-operation, with at most one register access; from any place in it a
command ends within `max(9, 4 + 2 * INIT_POLL_LIMIT)` of them; and with nothing scheduled in between, the machine's steps
take it there. -/
def Obligations.EveryCommandEnds : Prop :=
  (∀ (i : Instr) (s : State), ∃ t, exec i s = .next t ∧ OneAccess s t) ∧
  (∀ (i : Instr) (s : State), ∃ n t, n ≤ max 9 (4 + 2 * s.cfg.val.initPollLimit) ∧ Completes i n s t) ∧
  (∀ (i : Instr) (n : Nat) (s t : State), s.seq ≠ .idle → s.agenda = [] → decode s.cmd = .ok i → Completes i n s t →
    Host.Core.run core n s = .next t)

/-- With the sequencer idle and nothing scheduled a step answers the same state: the model's choice (log entry 1) for R310,
by which the block waits for the host's next `issue`. -/
def Obligations.IdleBlockWaits : Prop :=
  ∀ s : State, s.seq = .idle → s.agenda = [] → step s = .next s

/-! ### INIT -/

/-- R151, V9g: INIT from initialization mode completes OK in six micro-operations; it leaves MCR and BTR as R155, R156 and
R157 say, and nothing else changes. -/
def Obligations.InitFromInitializationMode : Prop :=
  ∀ mode flags baud (t : BitTiming) (s : State), s.pos.step = 0 → s.cfg.val.btTable[baud]? = some t →
    s.slak = false → s.inak = true →
    Completes (.init mode flags baud) 6 s { s with
      mcr := (s.mcr &&& 0xFFFFFF00#32) ||| (flags.code <<< 2) ||| 1#32
      btr := (s.btr &&& 0x3C80FC00#32) ||| (mode.code <<< 30) ||| (BitVec.ofNat 32 (t.ts2 - 1) <<< 20) |||
        (BitVec.ofNat 32 (t.ts1 - 1) <<< 16) ||| BitVec.ofNat 32 (t.brp - 1)
      res0 := 0#32
      seq := .idle }

/-- R151, R152, R155, R156: INIT at its second poll, once the controller has acknowledged initialization mode, writes the
flags and the bit timing and completes OK, with the poll's first read that sees INAK. This is how INIT ends after a reset. -/
def Obligations.InitAfterAcknowledge : Prop :=
  ∀ mode flags baud (t : BitTiming) (s : State), s.pos.step = 3 → s.cfg.val.btTable[baud]? = some t →
    s.inak = true →
    Completes (.init mode flags baud) 3 s { s with
      mcr := (s.mcr &&& 0xFFFFFF03#32) ||| (flags.code <<< 2)
      btr := (s.btr &&& 0x3C80FC00#32) ||| (mode.code <<< 30) ||| (BitVec.ofNat 32 (t.ts2 - 1) <<< 20) |||
        (BitVec.ofNat 32 (t.ts1 - 1) <<< 16) ||| BitVec.ofNat 32 (t.brp - 1)
      res0 := 0#32
      seq := .idle }

/-- R152, R158: what INIT leaves when the controller does not acknowledge. Each poll fails after exactly INIT_POLL_LIMIT
reads, whatever the bound is: so many micro-operations beside the writes before it, and from within a poll so many as are
left. -/
def Obligations.InitTimeoutLeavesRequests : Prop :=
  ∀ mode flags baud (s : State), baud < s.cfg.val.btTable.length →
    (s.pos.step = 0 → s.slak = true →
      Completes (.init mode flags baud) (s.cfg.val.initPollLimit + 1) s
        { s with mcr := s.mcr &&& ~~~2#32, res0 := 0x00000014#32, seq := .idle }) ∧
    (s.pos.step = 0 → s.slak = false → s.inak = false →
      Completes (.init mode flags baud) (s.cfg.val.initPollLimit + 3) s
        { s with mcr := (s.mcr &&& ~~~2#32) ||| 1#32, res0 := 0x00000024#32, seq := .idle }) ∧
    (s.pos.step = 1 → s.pos.polls < s.cfg.val.initPollLimit → s.slak = true →
      Completes (.init mode flags baud) (s.cfg.val.initPollLimit - s.pos.polls) s
        { s with res0 := 0x00000014#32, seq := .idle }) ∧
    (s.pos.step = 3 → s.pos.polls < s.cfg.val.initPollLimit → s.inak = false →
      Completes (.init mode flags baud) (s.cfg.val.initPollLimit - s.pos.polls) s
        { s with res0 := 0x00000024#32, seq := .idle })

/-- R154: a baud index without a table entry leaves every register unchanged and writes only `RES[0]`. -/
def Obligations.InitRejectsBaudBeforeAnyWrite : Prop :=
  ∀ mode flags baud (s : State), s.cfg.val.btTable.length ≤ baud →
    exec (.init mode flags baud) s = .next { s with res0 := 0x00000013#32, seq := .idle }

/-- R159: wherever INIT stands and whatever it does, by one micro-operation or to its end, it touches only MCR[7:0], BTR,
`RES[0]` and the sequencer, and BTR only in initialization mode (R98). -/
def Obligations.InitLeavesTheRest : Prop :=
  ∀ mode flags baud (s t : State), Reaches (.init mode flags baud) s t →
    t = { s with mcr := t.mcr, btr := t.btr, res0 := t.res0, seq := t.seq } ∧
    t.mcr &&& 0xFFFFFF00#32 = s.mcr &&& 0xFFFFFF00#32 ∧ (s.inak = false → t.btr = s.btr)

/-! ### CFGF -/

/-- R171: a CFGF with a valid bank completes OK in nine micro-operations and leaves the bank as its operands say; no other
bit of the machine changes. -/
def Obligations.CfgfConfiguresBank : Prop :=
  ∀ (b : Fin 28) scale mode fifo (s : State), s.pos.step = 0 → b.val < s.cfg.val.fbCount →
    Completes (.cfgf b.val scale mode fifo) 9 s { s with
      fmr := s.fmr &&& ~~~1#32
      fs1r := withBit s.fs1r b.val (decide (scale = .one32))
      fm1r := withBit s.fm1r b.val (decide (mode = .list))
      ffa1r := withBit s.ffa1r b.val (decide (fifo = 1))
      fa1r := withBit s.fa1r b.val true
      banks := s.banks.set b.val ⟨.of s.arg0, .of s.arg1⟩ b.isLt
      res0 := 0#32
      seq := .idle }

/-- R173: an invalid bank index writes only `RES[0]`. -/
def Obligations.CfgfRejectsBankBeforeAnyWrite : Prop :=
  ∀ bank scale mode fifo (s : State), s.cfg.val.fbCount ≤ bank →
    exec (.cfgf bank scale mode fifo) s = .next { s with res0 := 0x00000023#32, seq := .idle }

/-- R180: after a CFGF that completes OK, host reads give back the bank as configured, for every width and mode. -/
def Obligations.CfgfReadsBack : Prop :=
  ∀ (b : Fin 28) scale mode fifo n (s t : State), s.pos.step = 0 → b.val < s.cfg.val.fbCount →
    Completes (.cfgf b.val scale mode fifo) n s t →
    memRead (0x240 + 8 * b.val) t = (s.arg0, t) ∧ memRead (0x244 + 8 * b.val) t = (s.arg1, t) ∧
    bit (memRead 0x20C t).1 b.val = decide (scale = .one32) ∧ bit (memRead 0x204 t).1 b.val = decide (mode = .list) ∧
    bit (memRead 0x214 t).1 b.val = decide (fifo = 1) ∧ bit (memRead 0x21C t).1 b.val = true ∧
    bit (memRead 0x200 t).1 0 = false

/-- R179: a CFGF issued again with the same operands on the state it left completes in that same state, and a CFGF changes no
bit of another bank. -/
def Obligations.CfgfIdempotent : Prop :=
  (∀ bank scale mode fifo n (s t : State), s.pos.step = 0 → Completes (.cfgf bank scale mode fifo) n s t →
    Completes (.cfgf bank scale mode fifo) n (issue s.cmd s.arg0 s.arg1 s.arg2 t) t) ∧
  (∀ bank scale mode fifo (s t : State), Reaches (.cfgf bank scale mode fifo) s t →
    ∀ c : Fin 28, c.val ≠ bank → t.bank c = s.bank c ∧ t.fsc c.val = s.fsc c.val ∧ t.fbm c.val = s.fbm c.val ∧
      t.ffa c.val = s.ffa c.val ∧ t.fact c.val = s.fact c.val)

/-- The frame of CFGF wherever it stands, by one micro-operation or to its end: the filter registers, `RES[0]` and the
sequencer; of FMR only FINIT, and no bit or register of another bank (R171, R179). -/
def Obligations.CfgfLeavesTheRest : Prop :=
  ∀ bank scale mode fifo (s t : State), Reaches (.cfgf bank scale mode fifo) s t →
    t = { s with fmr := t.fmr, fs1r := t.fs1r, fm1r := t.fm1r, ffa1r := t.ffa1r, fa1r := t.fa1r, banks := t.banks,
                 res0 := t.res0, seq := t.seq } ∧
    t.fmr &&& ~~~1#32 = s.fmr &&& ~~~1#32 ∧
    (∀ j, j ≠ bank → bit t.fs1r j = bit s.fs1r j ∧ bit t.fm1r j = bit s.fm1r j ∧ bit t.ffa1r j = bit s.ffa1r j ∧
      bit t.fa1r j = bit s.fa1r j) ∧
    (∀ c : Fin 28, c.val ≠ bank → t.bank c = s.bank c)

/-! ### TX -/

/-- R190: a read of TSR shows in CODE an empty mailbox whenever there is one, every empty mailbox can be the one, and when
none is empty it shows one of the three; it never reads 3. -/
def Obligations.CodeNamesAnEmptyMailbox : Prop :=
  (∀ s : State, ∃ m : Fin 3, field (readTsr s).1 25 24 = BitVec.ofNat 32 m.val ∧
    ((∃ i, s.tme i = true) → s.tme m = true)) ∧
  (∀ (s : State) (m : Fin 3), (s.tme m = true ∨ ∀ i, s.tme i = false) →
    ∃ w, field (readTsr { s with drawTape := w :: s.drawTape }).1 25 24 = BitVec.ofNat 32 m.val)

/-- R192: a TX with valid operands and a free mailbox completes OK in six micro-operations with the mailbox it used; that
mailbox holds the frame and is pending, and no other register changes. -/
def Obligations.TxHandsTheFrameToAMailbox : Prop :=
  ∀ ide rtr tgt dlc (s : State), s.pos.step = 0 → dlc ≤ 8 → s.arg0.toNat < (if ide then 2 ^ 29 else 2 ^ 11) →
    (∃ i, s.tme i = true) →
    ∃ (m : Fin 3) (tape : List Word) (k : Nat), s.tme m = true ∧
      Completes (.tx ide rtr tgt dlc) 6 s { s with
        drawTape := tape, drawCount := k
        tsr := withBit s.tsr (26 + m.val) false
        txOrder := s.txOrder ++ [m]
        mailboxes := s.mailboxes.set m.val
          { tir := .of (packId ide s.arg0 ||| (ofBit rtr <<< 1) ||| 1#32)
            tdtr := (s.mailbox m).tdtr.patch 0xFFFF010F#32 ((ofBit tgt <<< 8) ||| BitVec.ofNat 32 dlc)
            tdlr := .of (s.arg1 &&& mask (8 * min dlc 4))
            tdhr := .of (s.arg2 &&& mask (8 * (max dlc 4 - 4))) } m.isLt
        res0 := BitVec.ofNat 32 m.val <<< 8
        seq := .idle }

/-- R199, R284: NO_MAILBOX and both operand statuses write only `RES[0]` and no register, BAD_DLC before BAD_ID and both
before the mailbox check. -/
def Obligations.TxFailureMutatesNothing : Prop :=
  ∀ ide rtr tgt dlc (s : State), s.pos.step = 0 →
    (8 < dlc → exec (.tx ide rtr tgt dlc) s = .next { s with res0 := 0x00000033#32, seq := .idle }) ∧
    (dlc ≤ 8 → (if ide then 2 ^ 29 else 2 ^ 11) ≤ s.arg0.toNat →
      exec (.tx ide rtr tgt dlc) s = .next { s with res0 := 0x00000043#32, seq := .idle }) ∧
    (dlc ≤ 8 → s.arg0.toNat < (if ide then 2 ^ 29 else 2 ^ 11) → (∀ i, s.tme i = false) →
      ∃ tape k, exec (.tx ide rtr tgt dlc) s = .next { s with
        drawTape := tape, drawCount := k, res0 := 0x00000001#32, seq := .idle })

/-- The frame of TX wherever it stands, by one micro-operation or to its end (R192, R199): it touches one mailbox and that
mailbox's TME bit, `RES[0]` and the sequencer. A TX at its start chooses an empty mailbox; one further on keeps to the
mailbox it claimed. -/
def Obligations.TxLeavesTheRest : Prop :=
  ∀ ide rtr tgt dlc (s t : State), Reaches (.tx ide rtr tgt dlc) s t →
    t = { s with tsr := t.tsr, txOrder := t.txOrder, mailboxes := t.mailboxes, res0 := t.res0, seq := t.seq,
                 drawTape := t.drawTape, drawCount := t.drawCount } ∧
    ∃ m : Fin 3, (1 ≤ s.pos.step → m = s.pos.m) ∧ (s.tme m = false → t.tsr = s.tsr ∧ t.mailboxes = s.mailboxes) ∧
      (∀ i, i ≠ m → t.mailbox i = s.mailbox i) ∧ (∀ j, j ≠ 26 + m.val → bit t.tsr j = bit s.tsr j) ∧
      (t.txOrder = s.txOrder ∨ t.txOrder = s.txOrder ++ [m])

/-- R193: where the bits of an identifier go. -/
def Obligations.PackIdPlacesTheIdentifier : Prop :=
  (∀ id : Word, packId false id = (id &&& 0x7FF#32) <<< 21) ∧
  (∀ id : Word, id.toNat < 2 ^ 29 → packId true id = (id <<< 3) ||| 4#32) ∧
  (∀ id : Word, packId true id =
    (((id >>> 18) &&& 0x7FF#32) <<< 21) ||| ((id &&& 0x3FFFF#32) <<< 3) ||| 4#32)

/-- R195: byte by byte, the payload masks keep the bytes below the length and clear the others. -/
def Obligations.PayloadMasksKeepBytesBelowLength : Prop :=
  ∀ (lo hi : Word) (d k : Nat), d ≤ 8 → k < 8 →
    payloadByte (lo &&& loMask d) (hi &&& hiMask d) k = if k < d then payloadByte lo hi k else 0#32

/-! ### RX -/

/-- R220, R224 to R227: RX on a FIFO that holds a frame completes OK in six micro-operations, returns the frame at its head
and releases it; no other register changes. Bits of the data words that hold no value are drawn (R48). -/
def Obligations.RxReturnsTheHeadFrame : Prop :=
  ∀ (f : Fin 2) (e : Entry) (rest : List Entry) (s : State), s.pos.step = 0 → s.queue f = e :: rest →
    (s.queue f).length ≤ s.cfg.val.fifoDepth →
    ∃ (lo hi : Word) (tape : List Word) (k : Nat),
      lo &&& e.rdl.known = e.rdl.val &&& e.rdl.known ∧ hi &&& e.rdh.known = e.rdh.val &&& e.rdh.known ∧
      Completes (.rx f) 6 s { s with
        drawTape := tape, drawCount := k
        fifos := s.fifos.set f.val { s.fifo f with queue := rest } f.isLt
        res0 := 0#32
        res1 := (ofBit (bit e.ri 2) <<< 31) ||| (ofBit (bit e.ri 1) <<< 30) |||
          (if bit e.ri 2 then e.ri >>> 3 else e.ri >>> 21)
        res2 := e.rdt &&& 0xFFFFFF0F#32
        res3 := lo &&& mask (8 * min (min (e.rdt &&& 0xF#32).toNat 8) 4)
        res4 := hi &&& mask (8 * (max (min (e.rdt &&& 0xF#32).toNat 8) 4 - 4))
        seq := .idle }

/-- R222: RX on an empty FIFO fails with FIFO_EMPTY at its first read and writes no register. -/
def Obligations.RxOnEmptyFifoWritesNothing : Prop :=
  ∀ (f : Fin 2) (s : State), s.pos.step = 0 → s.queue f = [] →
    exec (.rx f) s = .next { s with res0 := 0x00000002#32, seq := .idle }

/-- R229: RX on FIFO `f`, wherever it stands, by one micro-operation or to its end, touches only FIFO `f`, the result words
and the sequencer; of FIFO `f` it removes at most the head, and FULL and FOVR stay (R226). -/
def Obligations.RxLeavesTheOtherFifo : Prop :=
  ∀ (f : Fin 2) (s t : State), Reaches (.rx f) s t →
    t = { s with fifos := t.fifos, res0 := t.res0, res1 := t.res1, res2 := t.res2, res3 := t.res3, res4 := t.res4,
                 seq := t.seq, drawTape := t.drawTape, drawCount := t.drawCount } ∧
    (∀ g, g ≠ f → t.fifo g = s.fifo g) ∧ (t.fifo f).full = (s.fifo f).full ∧ (t.fifo f).fovr = (s.fifo f).fovr ∧
    (t.queue f = s.queue f ∨ t.queue f = (s.queue f).tail)

/-- R221: decoding is the mirror of encoding, for every identifier that fits its width; IDE and RTR come back too. -/
def Obligations.UnpackOfPackIdentifier : Prop :=
  (∀ ide rtr (id : Word), id.toNat < (if ide then 2 ^ 29 else 2 ^ 11) →
    unpackId ide (packId ide id ||| (ofBit rtr <<< 1)) = id ∧ bit (packId ide id ||| (ofBit rtr <<< 1)) 2 = ide ∧
    bit (packId ide id ||| (ofBit rtr <<< 1)) 1 = rtr) ∧
  (∀ ri : Word, unpackId true ri = ri >>> 3 ∧ unpackId false ri = ri >>> 21)

/-! ### The register file -/

/-- R94: no register read has a side effect; only what is left to draw moves on. -/
def Obligations.ReadsHaveNoSideEffect : Prop :=
  ∀ (r : Reg) (s : State), ∃ tape k, (readReg r s).2 = { s with drawTape := tape, drawCount := k }

/-- R98: the writes the controller protects are ignored, with no other effect. -/
def Obligations.ProtectedWritesIgnored : Prop :=
  ∀ (s : State) (v : Word),
    (s.inak = false → writeReg .btr v s = s) ∧
    (∀ i, s.tme i = false → writeReg (.tir i) v s = s ∧ writeReg (.tdtr i) v s = s ∧ writeReg (.tdlr i) v s = s ∧
      writeReg (.tdhr i) v s = s) ∧
    (s.finit = false → writeReg .fm1r v s = s ∧ writeReg .fs1r v s = s ∧ writeReg .ffa1r v s = s) ∧
    (∀ b : Fin 28, s.fact b.val = true → s.finit = false → writeReg (.fr1 b) v s = s ∧ writeReg (.fr2 b) v s = s) ∧
    (∀ f, writeReg (.rir f) v s = s ∧ writeReg (.rdtr f) v s = s ∧ writeReg (.rdlr f) v s = s ∧
      writeReg (.rdhr f) v s = s) ∧
    (∃ w, writeReg .msr v s = { s with msr := w } ∧ w &&& 0xFFFFFFE3#32 = s.msr &&& 0xFFFFFFE3#32)

/-- A write leaves every other register as it was, but for the side effects of R94: a transmit request of an empty mailbox
(TSR), a release of a frame (the output mailbox of its FIFO), and the master reset. -/
def Obligations.WriteLeavesOtherRegisters : Prop :=
  ∀ (r q : Reg) (v : Word) (s : State), q ≠ r → (r = .mcr → bit v 15 = false) →
    (∀ i, r = .tir i → bit v 0 = true → s.tme i = true → q ≠ .tsr) →
    (∀ f, r = .rfr f → bit v 5 = true → s.queue f ≠ [] → q ≠ .rir f ∧ q ≠ .rdtr f ∧ q ≠ .rdlr f ∧ q ≠ .rdhr f) →
    view q (writeReg r v s) = view q s

/-- R92, R98, R100: a write that no protection stops stores the writable bits of its register, and the next read shows them;
a `rc_w1` flag is cleared by a 1 and left by a 0. -/
def Obligations.WritesStoreTheWritableBits : Prop :=
  ∀ (s : State) (v : Word),
    (bit v 15 = false → view .mcr (writeReg .mcr v s) = .of (v &&& 0x000100FF#32)) ∧
    view .ier (writeReg .ier v s) = .of (v &&& 0x00038F7F#32) ∧
    view .esr (writeReg .esr v s) = .of ((s.esr &&& 0xFFFF0007#32) ||| (v &&& 0x00000070#32)) ∧
    (s.inak = true → view .btr (writeReg .btr v s) = .of (v &&& 0xC37F03FF#32)) ∧
    view .fmr (writeReg .fmr v s) = .of ((s.fmr &&& 0x00003F00#32) ||| (v &&& 1#32)) ∧
    view .fa1r (writeReg .fa1r v s) = .of (v &&& s.bankMask) ∧
    (s.finit = true → view .fm1r (writeReg .fm1r v s) = .of (v &&& s.bankMask) ∧
      view .fs1r (writeReg .fs1r v s) = .of (v &&& s.bankMask) ∧
      view .ffa1r (writeReg .ffa1r v s) = .of (v &&& s.bankMask)) ∧
    (∀ b : Fin 28, b.val < s.cfg.val.fbCount → (s.fact b.val = false ∨ s.finit = true) →
      view (.fr1 b) (writeReg (.fr1 b) v s) = .of v ∧ view (.fr2 b) (writeReg (.fr2 b) v s) = .of v) ∧
    (∀ i, s.tme i = true → view (.tir i) (writeReg (.tir i) v s) = .of v ∧
      view (.tdlr i) (writeReg (.tdlr i) v s) = .of v ∧ view (.tdhr i) (writeReg (.tdhr i) v s) = .of v ∧
      view (.tdtr i) (writeReg (.tdtr i) v s) = .of (v &&& 0xFFFF010F#32)) ∧
    (∀ j, 2 ≤ j → j ≤ 4 → bit (writeReg .msr v s).msr j = (bit s.msr j && !bit v j)) ∧
    (∀ f, ((writeReg (.rfr f) v s).fifo f).full = ((s.fifo f).full && !bit v 3) ∧
      ((writeReg (.rfr f) v s).fifo f).fovr = ((s.fifo f).fovr && !bit v 4))

/-- R38, R94: a write of TSR clears the four result flags of a mailbox where RQCP is written 1, requests an abort where ABRQ is
written 1 and the mailbox is pending, and changes no other bit. -/
def Obligations.TsrWriteClearsAndRequests : Prop :=
  ∀ (s : State) (v : Word) (i : Fin 3),
    let t := writeReg .tsr v s
    (bit v (8 * i.val) = true → t.rqcp i = false ∧ t.txok i = false ∧ t.alst i = false ∧ t.terr i = false) ∧
    (bit v (8 * i.val) = false → t.rqcp i = s.rqcp i ∧ t.txok i = s.txok i ∧ t.alst i = s.alst i ∧ t.terr i = s.terr i) ∧
    t.abrq i = (s.abrq i || (bit v (8 * i.val + 7) && !s.tme i)) ∧
    t.tsr &&& 0xFF707070#32 = s.tsr &&& 0xFF707070#32 ∧ t = { s with tsr := t.tsr }

/-- R194: a write of TXRQ = 1 to an empty mailbox makes it pending within the same write, and its registers write-protected;
of TSR only TMEi changes, and the request is the last in the order of R58. To a pending mailbox the write is ignored. -/
def Obligations.TransmitRequestMakesPending : Prop :=
  ∀ (i : Fin 3) (v w : Word) (s : State), bit v 0 = true →
    (s.tme i = true →
      let t := writeReg (.tir i) v s
      t = { s with
        mailboxes := s.mailboxes.set i.val { s.mailbox i with tir := .of v } i.isLt
        tsr := s.tsr &&& ~~~(1#32 <<< (26 + i.val))
        txOrder := s.txOrder ++ [i] } ∧
      t.tme i = false ∧ writeReg (.tir i) w t = t ∧ writeReg (.tdtr i) w t = t ∧ writeReg (.tdlr i) w t = t ∧
      writeReg (.tdhr i) w t = t) ∧
    (s.tme i = false → writeReg (.tir i) v s = s)

/-- R226: a write of RFOM = 1, whatever its other bits, removes the head of the queue within the write: the pending count and
the output mailbox show what is left. A write of RFOM alone changes nothing else, FULL and FOVR stay, and on an empty FIFO it
has no effect; RFOM reads 0. -/
def Obligations.ReleaseRemovesTheHead : Prop :=
  ∀ (f : Fin 2) (s : State),
    (∀ v, bit v 5 = true → (writeReg (.rfr f) v s).queue f = (s.queue f).tail) ∧
    writeReg (.rfr f) 0x00000020#32 s =
      { s with fifos := s.fifos.set f.val { s.fifo f with queue := (s.queue f).tail } f.isLt } ∧
    (s.queue f = [] → writeReg (.rfr f) 0x00000020#32 s = s) ∧
    ((s.queue f).length ≤ s.cfg.val.fifoDepth →
      (field (view (.rfr f) (writeReg (.rfr f) 0x00000020#32 s)).val 1 0).toNat = (s.queue f).length - 1) ∧
    (∀ e e' rest, s.queue f = e :: e' :: rest →
      view (.rir f) (writeReg (.rfr f) 0x00000020#32 s) = .of (e'.ri &&& 0xFFFFFFFE#32) ∧
      view (.rdtr f) (writeReg (.rfr f) 0x00000020#32 s) = .of (e'.rdt &&& 0xFFFFFF0F#32) ∧
      view (.rdlr f) (writeReg (.rfr f) 0x00000020#32 s) = e'.rdl ∧
      view (.rdhr f) (writeReg (.rfr f) 0x00000020#32 s) = e'.rdh) ∧
    bit (view (.rfr f) s).val 5 = false

/-- R311: the master reset. That it empties the order of the requests is the model's choice (log entry 13), and so is that MCR
takes its reset value whatever else is written (log entry 17). -/
def Obligations.MasterResetKeepsFiltersAndPort : Prop :=
  ∀ (v : Word) (s : State), bit v 15 = true →
    let t := writeReg .mcr v s
    t = { s with
      mcr := 0x00010002#32, msr := 0x00000C02#32, tsr := 0x1C000000#32, ier := 0, esr := 0, btr := 0x01230000#32
      fifos := Vector.replicate 2 ⟨[], false, false⟩, txOrder := [], mailboxes := t.mailboxes } ∧
    (∀ i, (t.mailbox i).tdtr = (s.mailbox i).tdtr ∧ (t.mailbox i).tdlr = (s.mailbox i).tdlr ∧
      (t.mailbox i).tdhr = (s.mailbox i).tdhr ∧ bit (t.mailbox i).tir.val 0 = false ∧
      (t.mailbox i).tir.val &&& 0xFFFFFFFE#32 = (s.mailbox i).tir.val &&& 0xFFFFFFFE#32 ∧
      (t.mailbox i).tir.known &&& 0xFFFFFFFE#32 = (s.mailbox i).tir.known &&& 0xFFFFFFFE#32) ∧
    t.mode = .sleep ∧ bit (readReg .mcr t).1 15 = false

/-- R55: every register is found at its offset, and an offset of the window that is no register's reads 0 and ignores writes; so does a
filter register of a bank the instance does not have. An offset outside the window is refused. -/
def Obligations.ReservedOffsetsReadZero : Prop :=
  (∀ r : Reg, Reg.at r.offset = some r) ∧
  (∀ (off : Nat) (v : Word) (s : State), off % 4 = 0 → off ≤ 0x31C → (∀ r : Reg, r.offset ≠ off) →
    memRead off s = (0#32, s) ∧ memWrite off v s = s) ∧
  (∀ (b : Fin 28) (v : Word) (s : State), s.cfg.val.fbCount ≤ b.val →
    readReg (.fr1 b) s = (0#32, s) ∧ readReg (.fr2 b) s = (0#32, s) ∧ writeReg (.fr1 b) v s = s ∧
    writeReg (.fr2 b) v s = s) ∧
  (∀ off width : Nat, 0x31F < off → accessAllowed off width = false)

/-! ### The environment -/

/-- R240 to R243: the mode events, each exactly when it is enabled. -/
def Obligations.ModeEvents : Prop :=
  ∀ s : State,
    (fire .sleepExit s = if s.sleepReq = false ∧ s.slak = true then { s with msr := s.msr &&& ~~~2#32 } else s) ∧
    (fire .initEnter s = if s.inrq = true ∧ s.sleepReq = false ∧ s.inak = false
      then { s with msr := (s.msr ||| 1#32) &&& ~~~2#32 } else s) ∧
    (fire .initExit s = if s.inrq = false ∧ s.sleepReq = false ∧ s.inak = true
      then { s with msr := s.msr &&& ~~~1#32 } else s) ∧
    (fire .sleepEnter s = if s.sleepReq = true ∧ s.inrq = false ∧ s.slak = false
      then { s with msr := (s.msr ||| 0x12#32) &&& ~~~1#32 } else s) ∧
    (fire .wakeup s = if s.slak = true
      then { s with msr := s.msr ||| 8#32, mcr := if s.awum then s.mcr &&& ~~~2#32 else s.mcr } else s)

/-- R245, R248, R249: a completed transmission. Its frame is the one read from the mailbox with the captured time stamp, any
value, and a success in a loopback mode offers that frame, with that time stamp, after the mailbox is empty again; nothing else
is offered. The frame read has the time stamp in bytes 6 and 7 under TTCM, TGT and DLC = 8. -/
def Obligations.TxDoneReportsCompletion : Prop :=
  (∀ (i : Fin 3) (ok : Bool) (s : State), enabled (.txDone i ok) s = true →
    let t := fire (.txDone i ok) s
    t.tme i = true ∧ t.rqcp i = true ∧ t.txok i = ok ∧ t.abrq i = false ∧
    (ok = true → t.alst i = false ∧ t.terr i = false) ∧ (ok = false → t.alst i = !t.terr i) ∧
    bit (t.mailbox i).tir.val 0 = false ∧ bit (t.mailbox i).tir.known 0 = true ∧
    (t.mailbox i).tdtr.val >>> 16 = t.timeStamp.zeroExtend 32 ∧ (t.mailbox i).tdtr.known >>> 16 = 0xFFFF#32 ∧
    (∀ j, j ≠ i → t.mailbox j = s.mailbox j ∧ t.tme j = s.tme j ∧ t.rqcp j = s.rqcp j ∧ t.txok j = s.txok j ∧
      t.alst j = s.alst j ∧ t.terr j = s.terr j ∧ t.abrq j = s.abrq j) ∧
    (ok = false ∨ s.lbkm = false → t.fifos = s.fifos)) ∧
  (∀ (i : Fin 3) (ok : Bool) (s : State), enabled (.txDone i ok) s = true →
    ∃ (u v : State) (f : Frame) (ts : BitVec 16) (tape : List Word) (k : Nat),
      frameOfMailbox i { s with timeStamp := ts, drawTape := tape, drawCount := k } = (f, v) ∧ transmitted i ok s = (f, u) ∧
      u.timeStamp = ts ∧ u.tme i = true ∧ u.fifos = s.fifos ∧
      fire (.txDone i ok) s = if ok = true ∧ s.lbkm = true then offer f ts u else u) ∧
  (∀ (i : Fin 3) (ok : Bool) (ts : BitVec 16) (s : State), ∃ w,
    (transmitted i ok { s with drawTape := w :: s.drawTape }).2.timeStamp = ts) ∧
  (∀ (i : Fin 3) (ri tdt lo hi : Word) (s : State), s.mailbox i = ⟨.of ri, .of tdt, .of lo, .of hi⟩ →
    ∃ f, frameOfMailbox i s = (f, s) ∧ f.ide = bit ri 2 ∧ f.rtr = bit ri 1 ∧
      f.id = (if bit ri 2 then ri >>> 3 else ri >>> 21) ∧ f.dlc.toNat = tdt.toNat % 16 ∧ f.lo = lo ∧
      (s.ttcm = true ∧ bit tdt 8 = true ∧ tdt.toNat % 16 = 8 →
        payloadByte f.lo f.hi 4 = payloadByte lo hi 4 ∧ payloadByte f.lo f.hi 5 = payloadByte lo hi 5 ∧
        (payloadByte f.lo f.hi 6).toNat = s.timeStamp.toNat / 256 ∧
        (payloadByte f.lo f.hi 7).toNat = s.timeStamp.toNat % 256) ∧
      (¬(s.ttcm = true ∧ bit tdt 8 = true ∧ tdt.toNat % 16 = 8) → f.hi = hi))

/-- R246, R248: when a transmission can complete, and how. -/
def Obligations.TxDoneEnabledExactly : Prop :=
  ∀ (i : Fin 3) (ok : Bool) (s : State), enabled (.txDone i ok) s = true ↔
    (s.tme i = false ∧ s.inak = false ∧ s.slak = false ∧ ¬(s.silm = true ∧ s.lbkm = false) ∧
      (ok = true ∨ (s.nart = true ∧ s.lbkm = false ∧ s.silm = false)))

/-- R247: an abort, enabled only when requested of a pending mailbox; no frame is offered. -/
def Obligations.TxAbortFreesTheMailbox : Prop :=
  ∀ (i : Fin 3) (s : State),
    let t := fire (.txAbort i) s
    (s.abrq i = true ∧ s.tme i = false →
      t.tme i = true ∧ t.rqcp i = true ∧ t.txok i = false ∧ t.alst i = false ∧ t.terr i = false ∧ t.abrq i = false ∧
      bit (t.mailbox i).tir.val 0 = false ∧ t.fifos = s.fifos ∧
      ∀ j, j ≠ i → t.mailbox j = s.mailbox j ∧ t.tme j = s.tme j ∧ t.rqcp j = s.rqcp j) ∧
    (¬(s.abrq i = true ∧ s.tme i = false) → t = s)

/-- Two values of TSR agree on every bit that is no flag of mailbox `i` (R38). -/
def Sys2Proof.TsrOutside (i : Fin 3) (new old : Word) : Prop :=
  ∀ j, j ≠ 26 + i.val → j ≠ 8 * i.val + 7 → (j < 8 * i.val ∨ 8 * i.val + 3 < j) → bit new j = bit old j

/-- R263: what no environment event changes, and for each event that it writes nothing but what the table of R263 gives it
(the time stamp and what is left to draw apart, and the order of requests, log entry 13). Of the FIFOs, a completed loopback
transmission and an arrival can change only the one that `accept` selects for their frame (R252, R258). Status drift can give
its fields every value (R250). -/
def Obligations.EventsLeaveConfigurationAlone : Prop :=
  ∀ (e : EnvEvent) (s : State),
    let t := fire e s
    t.fmr = s.fmr ∧ t.fm1r = s.fm1r ∧ t.fs1r = s.fs1r ∧ t.ffa1r = s.ffa1r ∧ t.fa1r = s.fa1r ∧ t.banks = s.banks ∧
    t.btr = s.btr ∧ t.ier = s.ier ∧ t.mcr &&& 0xFFFFFFFD#32 = s.mcr &&& 0xFFFFFFFD#32 ∧
    t.cmd = s.cmd ∧ t.arg0 = s.arg0 ∧ t.arg1 = s.arg1 ∧ t.arg2 = s.arg2 ∧ t.res0 = s.res0 ∧ t.res1 = s.res1 ∧
    t.res2 = s.res2 ∧ t.res3 = s.res3 ∧ t.res4 = s.res4 ∧ t.seq = s.seq ∧ t.cfg = s.cfg ∧ t.agenda = s.agenda ∧
    (∀ i, (t.mailbox i).tdlr = (s.mailbox i).tdlr ∧ (t.mailbox i).tdhr = (s.mailbox i).tdhr ∧
      (t.mailbox i).tir.val &&& 0xFFFFFFFE#32 = (s.mailbox i).tir.val &&& 0xFFFFFFFE#32 ∧
      (t.mailbox i).tir.known &&& 0xFFFFFFFE#32 = (s.mailbox i).tir.known &&& 0xFFFFFFFE#32 ∧
      (t.mailbox i).tdtr.val &&& 0x0000FFFF#32 = (s.mailbox i).tdtr.val &&& 0x0000FFFF#32 ∧
      (t.mailbox i).tdtr.known &&& 0x0000FFFF#32 = (s.mailbox i).tdtr.known &&& 0x0000FFFF#32) ∧
    (∀ i, s.tme i = true → t.tme i = true ∧ t.mailbox i = s.mailbox i) ∧
    (∀ f x rest, s.queue f = x :: rest → ∃ rest', t.queue f = x :: rest') ∧
    (match e with
      | .sleepExit | .initEnter | .initExit | .sleepEnter | .wakeup =>
          t = { s with msr := t.msr, mcr := t.mcr } ∧ t.msr &&& ~~~0x0000001B#32 = s.msr &&& ~~~0x0000001B#32
      | .txDone i ok =>
          t = { s with tsr := t.tsr, mailboxes := t.mailboxes, txOrder := t.txOrder, fifos := t.fifos,
                       timeStamp := t.timeStamp, drawTape := t.drawTape, drawCount := t.drawCount } ∧
          TsrOutside i t.tsr s.tsr ∧ (∀ j, j ≠ i → t.mailbox j = s.mailbox j) ∧
          (ok = false ∨ s.lbkm = false → t.fifos = s.fifos) ∧
          (∀ q, (∀ index, (accept (transmitted i ok s).1 (transmitted i ok s).2).1 ≠ some (q, index)) → t.fifo q = s.fifo q)
      | .txAbort i =>
          t = { s with tsr := t.tsr, mailboxes := t.mailboxes, txOrder := t.txOrder } ∧ TsrOutside i t.tsr s.tsr ∧
          (∀ j, j ≠ i → t.mailbox j = s.mailbox j)
      | .rxFrame f =>
          t = { s with fifos := t.fifos, timeStamp := t.timeStamp, drawTape := t.drawTape, drawCount := t.drawCount } ∧
          (∀ q, (∀ index, (accept f (captureTime s)).1 ≠ some (q, index)) → t.fifo q = s.fifo q)
      | .statusDrift =>
          t = { s with msr := t.msr, tsr := t.tsr, esr := t.esr, drawTape := t.drawTape, drawCount := t.drawCount } ∧
          t.msr &&& ~~~0x00000F04#32 = s.msr &&& ~~~0x00000F04#32 ∧
          t.tsr &&& ~~~0xE0000000#32 = s.tsr &&& ~~~0xE0000000#32 ∧
          t.esr &&& ~~~0xFFFF0077#32 = s.esr &&& ~~~0xFFFF0077#32 ∧
          (∀ a b c : Word, ∃ tape, fire .statusDrift { s with drawTape := tape } = { s with
            msr := (s.msr &&& ~~~0x00000F04#32) ||| (a &&& 0x00000F04#32)
            tsr := (s.tsr &&& ~~~0xE0000000#32) ||| (b &&& 0xE0000000#32)
            esr := (s.esr &&& ~~~0xFFFF0077#32) ||| (c &&& 0xFFFF0077#32) })
      | .none => t = s)

/-- R251: no frame is accepted in filter-initialization mode, none arrives in sleep or initialization mode, and none arrives
from the bus in loopback or silent-loopback mode. R252, R260, R261: otherwise an arriving frame draws its time stamp, any
value, and is offered; an offered frame that no filter accepts changes no FIFO, and one that a filter accepts is stored with
its identifier, RTR, IDE, its DLC as received, the filter-match index, the time stamp, and the bytes it carries and no
others. -/
def Obligations.ReceptionStoresOrSuspends : Prop :=
  ∀ (f : Frame) (s : State),
    (s.finit = true → (fire (.rxFrame f) s).fifos = s.fifos) ∧
    (s.finit = true → ∀ i ok, (fire (.txDone i ok) s).fifos = s.fifos) ∧
    (s.inak = true ∨ s.slak = true ∨ s.lbkm = true → fire (.rxFrame f) s = s) ∧
    (s.inak = false → s.slak = false → s.lbkm = false → idFits f.ide f.id = true →
      ∃ (ts : BitVec 16) (tape : List Word) (k : Nat),
        fire (.rxFrame f) s = offer f ts { s with timeStamp := ts, drawTape := tape, drawCount := k }) ∧
    (s.inak = false → s.slak = false → s.lbkm = false → idFits f.ide f.id = true → ∀ ts : BitVec 16, ∃ w,
      fire (.rxFrame f) { s with drawTape := w :: s.drawTape } = offer f ts { s with timeStamp := ts }) ∧
    (∀ ts, s.finit = false → (accept f s).1 = none → ∃ tape k, offer f ts s = { s with drawTape := tape, drawCount := k }) ∧
    (∀ (ts : BitVec 16) q index, s.finit = false → (accept f s).1 = some (q, index) →
      ∃ (e : Entry) (tape : List Word) (k : Nat),
        offer f ts s = store q e { s with drawTape := tape, drawCount := k } ∧
        e.ri = packId f.ide f.id ||| (ofBit f.rtr <<< 1) ∧
        e.rdt = (ts.zeroExtend 32 <<< 16) ||| (BitVec.ofNat 32 index <<< 8) ||| f.dlc.zeroExtend 32 ∧
        (∀ k, k < 8 →
          (f.rtr = false ∧ k < f.dlc.toNat →
            payloadByte e.rdl.known e.rdh.known k = 0xFF#32 ∧ payloadByte e.rdl.val e.rdh.val k = payloadByte f.lo f.hi k) ∧
          (¬(f.rtr = false ∧ k < f.dlc.toNat) → payloadByte e.rdl.known e.rdh.known k = 0#32)))

/-- R253: a store appends, or on overrun sets FOVR and discards the new frame or replaces the newest; the head of the queue
and the other FIFO stay. -/
def Obligations.StoreAppendsOrOverruns : Prop :=
  ∀ (f : Fin 2) (e : Entry) (s : State),
    ((s.queue f).length < s.cfg.val.fifoDepth →
      (store f e s).queue f = s.queue f ++ [e] ∧ ((store f e s).fifo f).fovr = (s.fifo f).fovr ∧
      ((store f e s).fifo f).full = ((s.fifo f).full || decide ((s.queue f).length + 1 = s.cfg.val.fifoDepth))) ∧
    (s.cfg.val.fifoDepth ≤ (s.queue f).length →
      ((store f e s).fifo f).fovr = true ∧ ((store f e s).fifo f).full = (s.fifo f).full ∧
      (store f e s).queue f = if s.rflm then s.queue f else (s.queue f).dropLast ++ [e]) ∧
    (∀ x rest, s.queue f = x :: rest → ∃ rest', (store f e s).queue f = x :: rest') ∧
    (∀ g, g ≠ f → (store f e s).fifo g = s.fifo g) ∧ store f e s = { s with fifos := (store f e s).fifos }

/-- A filter of an active bank of the instance that matches a frame by the values stored in the bank's registers (R256). -/
def Sys2Proof.FilterMatches (s : State) (f : Frame) (b : Fin 28) (p : Nat) : Prop :=
  b.val < s.cfg.val.fbCount ∧ s.fact b.val = true ∧
  ((⟨b.val, s.fsc b.val, s.fbm b.val, s.ffa b.val, (s.bank b).fr1.val, (s.bank b).fr2.val⟩ : MatchBank).conditions f)[p]?
    = some true

/-- The class order of R258: `(fsc', fbm')` is at most `(fsc, fbm)`, 32-bit over 16-bit, then list over mask. -/
def Sys2Proof.ClassAtMost (fsc' fbm' fsc fbm : Bool) : Prop :=
  (fsc' = true → fsc = true) ∧ (fsc' = fsc → fbm' = true → fbm = true)

/-- R258, R259: with the registers of the active banks written, a frame is accepted exactly when an active filter matches it,
by a filter of the greatest class that matches, into that filter's FIFO, and the first such filter by bank and position; every
FIFO that the filters of that class reach can be the one. -/
def Obligations.AcceptanceFollowsClassAndOrder : Prop :=
  ∀ (f : Frame) (s : State),
    (∀ b : Fin 28, s.fact b.val = true →
      (s.bank b).fr1.known = BitVec.allOnes 32 ∧ (s.bank b).fr2.known = BitVec.allOnes 32) →
    ((accept f s).1 = none ↔ ∀ b p, ¬ FilterMatches s f b p) ∧
    (∀ q index, (accept f s).1 = some (q, index) → ∃ b p, FilterMatches s f b p ∧ s.ffa b.val = q ∧
      index = fmi s q b.val p ∧
      (∀ b' p', FilterMatches s f b' p' →
        ClassAtMost (s.fsc b'.val) (s.fbm b'.val) (s.fsc b.val) (s.fbm b.val) ∧
        (s.fsc b'.val = s.fsc b.val → s.fbm b'.val = s.fbm b.val → s.ffa b'.val = q →
          b.val < b'.val ∨ (b = b' ∧ p ≤ p')))) ∧
    (∀ b p, FilterMatches s f b p →
      (∀ b' p', FilterMatches s f b' p' →
        ClassAtMost (s.fsc b'.val) (s.fbm b'.val) (s.fsc b.val) (s.fbm b.val)) →
      ∃ w index, (accept f { s with drawTape := w :: s.drawTape }).1 = some (s.ffa b.val, index))

/-- R256: the match condition of a single 32-bit mask bank, a 32-bit list bank and the 16-bit banks, on the frame's images as
numbers; a mask bit 1 must match (R177). A bank has no filter at a further position, and a bank that is inactive, or that the
instance does not have, has none. R254: the images of a frame whose identifier fits its width. -/
def Obligations.FilterConditions : Prop :=
  (∀ (f : Frame) (s : State) (b : Fin 28), b.val < s.cfg.val.fbCount → s.fact b.val = true →
    let r1 := (s.bank b).fr1.val
    let r2 := (s.bank b).fr2.val
    (s.fsc b.val = true → s.fbm b.val = true →
      (FilterMatches s f b 0 ↔ f.w32 >>> 1 = r1 >>> 1) ∧ (FilterMatches s f b 1 ↔ f.w32 >>> 1 = r2 >>> 1) ∧
      ∀ p, 2 ≤ p → ¬ FilterMatches s f b p) ∧
    (s.fsc b.val = true → s.fbm b.val = false →
      (FilterMatches s f b 0 ↔ ∀ j, 1 ≤ j → bit r2 j = true → bit f.w32 j = bit r1 j) ∧
      ∀ p, 1 ≤ p → ¬ FilterMatches s f b p) ∧
    (s.fsc b.val = false → s.fbm b.val = true →
      (FilterMatches s f b 0 ↔ f.h16 = r1 &&& 0xFFFF#32) ∧ (FilterMatches s f b 1 ↔ f.h16 = r1 >>> 16) ∧
      (FilterMatches s f b 2 ↔ f.h16 = r2 &&& 0xFFFF#32) ∧ (FilterMatches s f b 3 ↔ f.h16 = r2 >>> 16) ∧
      ∀ p, 4 ≤ p → ¬ FilterMatches s f b p) ∧
    (s.fsc b.val = false → s.fbm b.val = false →
      (FilterMatches s f b 0 ↔ ∀ j, j < 16 → bit r1 (16 + j) = true → bit f.h16 j = bit r1 j) ∧
      (FilterMatches s f b 1 ↔ ∀ j, j < 16 → bit r2 (16 + j) = true → bit f.h16 j = bit r2 j) ∧
      ∀ p, 2 ≤ p → ¬ FilterMatches s f b p)) ∧
  (∀ (f : Frame) (s : State) (b : Fin 28) p, ¬(b.val < s.cfg.val.fbCount ∧ s.fact b.val = true) → ¬ FilterMatches s f b p) ∧
  (∀ (rtr : Bool) (id : Word) (dlc : BitVec 4) (lo hi : Word),
    (id.toNat < 2 ^ 11 → (⟨false, id, rtr, dlc, lo, hi⟩ : Frame).w32 = (id <<< 21) ||| (ofBit rtr <<< 1) ∧
      (⟨false, id, rtr, dlc, lo, hi⟩ : Frame).h16 = (id <<< 5) ||| (ofBit rtr <<< 4)) ∧
    (id.toNat < 2 ^ 29 → (⟨true, id, rtr, dlc, lo, hi⟩ : Frame).w32 = (id <<< 3) ||| 4#32 ||| (ofBit rtr <<< 1) ∧
      (⟨true, id, rtr, dlc, lo, hi⟩ : Frame).h16 =
        ((id >>> 18) <<< 5) ||| (ofBit rtr <<< 4) ||| 8#32 ||| ((id >>> 15) &&& 7#32)))

/-- R262: the filter-match index is the bank under the default numbering, and the running number of the filter within its FIFO
under the other; it always fits its field, and both order the filters of a FIFO by bank, then position. -/
def Obligations.FilterMatchIndexNumbersFilters : Prop :=
  ∀ (s : State) (f : Fin 2) (b p : Nat), b < s.cfg.val.fbCount → p < filterCount (s.fsc b) (s.fbm b) →
    fmi s f b p < 112 ∧ (s.cfg.val.fmiNumbering = .bank → fmi s f b p = b) ∧
    (s.cfg.val.fmiNumbering = .filter → fmi s f b p = fmi s f b 0 + p) ∧
    (s.cfg.val.fmiNumbering = .filter → (∀ b', b' < b → s.ffa b' ≠ f) → fmi s f b p = p) ∧
    (s.cfg.val.fmiNumbering = .filter → s.ffa b = f → ∀ b', b < b' → (∀ c, b < c → c < b' → s.ffa c ≠ f) →
      fmi s f b' 0 = fmi s f b 0 + (if s.fsc b then (if s.fbm b then 2 else 1) else (if s.fbm b then 4 else 2))) ∧
    (∀ b' p', s.ffa b = f → s.ffa b' = f → (b < b' ∨ (b = b' ∧ p < p')) → fmi s f b p ≤ fmi s f b' p' ∧
      (s.cfg.val.fmiNumbering = .filter → fmi s f b p < fmi s f b' p'))

/-- R135, R171: after CFGF.ALL on a bank, every frame that arrives in an active mode from the bus is stored. -/
def Obligations.CfgfAllAcceptsEveryFrame : Prop :=
  ∀ (b : Fin 28) fifo (f : Frame) n (s t : State), s.pos.step = 0 → b.val < s.cfg.val.fbCount →
    s.arg0 = 0#32 → s.arg1 = 0#32 → Completes (.cfgf b.val .one32 .mask fifo) n s t →
    t.finit = false ∧ (accept f t).1 ≠ none

/-- R230: a frame that TX puts in a mailbox, and that the loopback accepts into an empty FIFO, comes back by the next RX on that
FIFO with the same identifier, IDE, RTR and DLC, and the time stamp of its transmission. The payload bytes of a data frame come
back (under TTCM, TGT and DLC = 8 bytes 6 and 7 are that time stamp, R249); the payload lanes of a remote frame may come back
with any values (R261). -/
def Obligations.LoopbackRoundTrip : Prop :=
  ∀ (i : Fin 3) ide rtr tgt dlc (id lo hi a0 a1 a2 : Word) (q : Fin 2) (s : State),
    dlc ≤ 8 → id.toNat < (if ide then 2 ^ 29 else 2 ^ 11) →
    (s.mailbox i).tir = .of (packId ide id ||| (ofBit rtr <<< 1) ||| 1#32) →
    (s.mailbox i).tdtr = .of ((ofBit tgt <<< 8) ||| BitVec.ofNat 32 dlc) →
    (s.mailbox i).tdlr = .of (lo &&& loMask dlc) → (s.mailbox i).tdhr = .of (hi &&& hiMask dlc) →
    enabled (.txDone i true) s = true → s.lbkm = true → s.queue q = [] → (fire (.txDone i true) s).queue q ≠ [] →
    let t := fire (.txDone i true) s
    let time := t.timeStamp.zeroExtend 32
    let returned := fun u : State => u.res0 = 0#32 ∧ u.res1 = (ofBit ide <<< 31) ||| (ofBit rtr <<< 30) ||| id ∧
      u.res2 &&& 0xF#32 = BitVec.ofNat 32 dlc ∧ u.res2 >>> 16 = time ∧ u.queue q = []
    (∃ u, Completes (.rx q) 6 (issue (encode (.rx q)) a0 a1 a2 t) u ∧ returned u ∧
      (rtr = false → u.res3 = lo &&& loMask dlc ∧
        u.res4 = (if s.ttcm = true ∧ tgt = true ∧ dlc = 8
          then (hi &&& 0xFFFF#32) ||| ((time >>> 8) <<< 16) ||| (time <<< 24) else hi &&& hiMask dlc))) ∧
    (rtr = true → ∀ x y : Word, ∃ tape u,
      Completes (.rx q) 6 (issue (encode (.rx q)) a0 a1 a2 { t with drawTape := tape }) u ∧ returned u ∧
      u.res3 = x &&& loMask dlc ∧ u.res4 = y &&& hiMask dlc)

/-! ### Reset, outputs and invariants -/

/-- R310: what the host reads after power-on reset in any instance, the mode, and V56: every output is 0. -/
def Obligations.ResetValues : Prop :=
  ∀ c : Config,
    let s := State.resetOf c
    s.seq = .idle ∧ [s.res0, s.res1, s.res2, s.res3, s.res4] = [0, 0, 0, 0, 0] ∧
    (memRead 0x000 s).1 = 0x00010002#32 ∧ (memRead 0x004 s).1 = 0x00000C02#32 ∧
    (memRead 0x008 s).1 &&& 0xFCFFFFFF#32 = 0x1C000000#32 ∧ (memRead 0x00C s).1 = 0#32 ∧ (memRead 0x010 s).1 = 0#32 ∧
    (memRead 0x014 s).1 = 0#32 ∧ (memRead 0x018 s).1 = 0#32 ∧ (memRead 0x01C s).1 = 0x01230000#32 ∧
    (memRead 0x200 s).1 = 0x00000E01#32 ∧ (memRead 0x204 s).1 = 0#32 ∧ (memRead 0x20C s).1 = 0#32 ∧
    (memRead 0x214 s).1 = 0#32 ∧ (memRead 0x21C s).1 = 0#32 ∧
    (∀ i : Fin 3, bit (memRead (0x180 + 0x10 * i.val) s).1 0 = false) ∧
    s.mode = .sleep ∧ (∀ i, s.txDoneOut i = false) ∧ (∀ f, s.rxPendOut f = false ∧ s.irqRx f = false) ∧
    s.irqTx = false ∧ s.irqSce = false

/-- R285, R286: TXDONE is pending from the end of a request until the host writes 1 to RQCP: over every step but that write
and a master reset it stays (R317 (e)). RXPEND is pending while the FIFO holds a frame: over every step but a release, by the
host or by RX on that FIFO, and a master reset it stays. -/
def Obligations.NotificationsPendUntilCleared : Prop :=
  (∀ (s : State),
    (∀ i ok, enabled (.txDone i ok) s = true → (fire (.txDone i ok) s).txDoneOut i = true) ∧
    (∀ i, enabled (.txAbort i) s = true → (fire (.txAbort i) s).txDoneOut i = true) ∧
    (∀ (i : Fin 3) (v : Word), bit v (8 * i.val) = true → (writeReg .tsr v s).txDoneOut i = false) ∧
    (∀ (i : Fin 3) (v : Word), bit v (8 * i.val) = false → (writeReg .tsr v s).txDoneOut i = s.txDoneOut i) ∧
    (∀ f, s.rxPendOut f = true ↔ s.queue f ≠ []) ∧
    (∀ f v, (writeReg (.rfr f) v s).rxPendOut f = true → s.rxPendOut f = true)) ∧
  (∀ (i : Fin 3) (s t : State), step s = .next t → s.txDoneOut i = true →
    (∀ n off v rest, s.seq = .idle → s.agenda = ⟨n, .host (.memWrite off 4 v)⟩ :: rest →
      (off = 0x008 → bit v (8 * i.val) = false) ∧ (off = 0x000 → bit v 15 = false)) → t.txDoneOut i = true) ∧
  (∀ (f : Fin 2) (s t : State), step s = .next t → s.rxPendOut f = true →
    (∀ n off v rest, s.seq = .idle → s.agenda = ⟨n, .host (.memWrite off 4 v)⟩ :: rest →
      (off = 0x00C + 4 * f.val → bit v 5 = false) ∧ (off = 0x000 → bit v 15 = false)) →
    (s.seq ≠ .idle → decode s.cmd ≠ .ok (.rx f)) → t.rxPendOut f = true)

/-- R285: the event outputs, and the interrupt request lines, each flag gated by its enable bit of IER. -/
def Obligations.InterruptLinesAreGated : Prop :=
  ∀ s : State,
    (∀ i : Fin 3, s.txDoneOut i = bit s.tsr (8 * i.val)) ∧
    (∀ f, (s.queue f).length ≤ s.cfg.val.fifoDepth → (s.rxPendOut f = true ↔ fmpOf (view (.rfr f) s).val ≠ 0)) ∧
    (s.irqTx = true ↔ bit s.ier 0 = true ∧ ∃ i, s.txDoneOut i = true) ∧
    (s.irqRx 0 = true ↔ (bit s.ier 1 = true ∧ s.rxPendOut 0 = true) ∨ (bit s.ier 2 = true ∧ (s.fifo 0).full = true) ∨
      (bit s.ier 3 = true ∧ (s.fifo 0).fovr = true)) ∧
    (s.irqRx 1 = true ↔ (bit s.ier 4 = true ∧ s.rxPendOut 1 = true) ∨ (bit s.ier 5 = true ∧ (s.fifo 1).full = true) ∨
      (bit s.ier 6 = true ∧ (s.fifo 1).fovr = true)) ∧
    (s.irqSce = true ↔ (bit s.ier 15 = true ∧ bit s.msr 2 = true) ∨ (bit s.ier 16 = true ∧ bit s.msr 3 = true) ∨
      (bit s.ier 17 = true ∧ bit s.msr 4 = true))

/-- The reset state of every instance is consistent. -/
def Obligations.ResetIsConsistent : Prop :=
  ∀ c : Config, (State.resetOf c).Consistent ∧ (State.resetOf c).InFlightSafe

/-- Every step, whoever makes it, keeps the register file consistent: TXRQ = 1 exactly while the mailbox is pending (R43,
R191), the queues fit (R56), one mode at a time (R37), aborts only of pending mailboxes (R94), the request order names the
pending mailboxes (R58), reserved bits stay as they read (R55), cells stay canonical. -/
def Obligations.StepKeepsConsistent : Prop :=
  ∀ s t : State, s.Consistent → step s = .next t → t.Consistent

/-- R172, R178, R197, R198, R227, R228: whatever the environment does between micro-operations, what the command in flight has
done stays done: CFGF's bank is inactive in its window, TX's mailbox stays empty and holds what was written, RX's words are of
one frame that is still at the head. -/
def Obligations.StepKeepsCommandInFlight : Prop :=
  ∀ s t : State, s.InFlightSafe → step s = .next t → t.InFlightSafe

/-- R30: the parameters are not state: no step changes the instance. -/
def Obligations.StepKeepsInstance : Prop := ∀ s t : State, step s = .next t → t.cfg = s.cfg
end

