-- ==== Sys2Proof/Laws/Bits.lean ====
section
/-! SUPPORT. What each bit of a word built by the bit-field operators is. -/

namespace Sys2Proof.Machine

theorem word_ext {v w : Word} (h : ∀ j, j < 32 → bit v j = bit w j) : v = w :=
  BitVec.eq_of_getLsbD_eq fun i hi => h i hi

theorem bit_of_ge (v : Word) {j : Nat} (h : 32 ≤ j) : bit v j = false := BitVec.getLsbD_of_ge v j h

@[simp] theorem bit_and (v w : Word) (j : Nat) : bit (v &&& w) j = (bit v j && bit w j) := BitVec.getLsbD_and
@[simp] theorem bit_or (v w : Word) (j : Nat) : bit (v ||| w) j = (bit v j || bit w j) := BitVec.getLsbD_or
@[simp] theorem bit_not (v : Word) (j : Nat) : bit (~~~v) j = (decide (j < 32) && !bit v j) := BitVec.getLsbD_not
@[simp] theorem bit_zero (j : Nat) : bit 0#32 j = false := BitVec.getLsbD_zero
@[simp] theorem bit_allOnes (j : Nat) : bit (BitVec.allOnes 32) j = decide (j < 32) := BitVec.getLsbD_allOnes

@[simp] theorem bit_shiftLeft (v : Word) (n j : Nat) :
    bit (v <<< n) j = (decide (j < 32) && !decide (j < n) && bit v (j - n)) := by
  simp [bit, BitVec.getLsbD_shiftLeft]

@[simp] theorem bit_shiftRight (v : Word) (n j : Nat) : bit (v >>> n) j = bit v (n + j) := by
  simp [bit, BitVec.getLsbD_ushiftRight]

@[simp] theorem bit_ofNat (n j : Nat) : bit (BitVec.ofNat 32 n) j = (decide (j < 32) && n.testBit j) := by
  simp [bit, BitVec.getLsbD_ofNat]

@[simp] theorem bit_mask (n j : Nat) : bit (mask n) j = (decide (j < 32) && decide (j < n)) := by
  simp [mask, Nat.testBit_two_pow_sub_one]

theorem testBit_one (k : Nat) : Nat.testBit 1 k = decide (k = 0) := by
  cases k <;> simp [Nat.testBit_succ]

@[simp] theorem bit_single (i j : Nat) : bit (single i) j = (decide (j < 32) && decide (j = i)) := by
  unfold single
  rw [bit_shiftLeft]
  by_cases h : j < i
  · simp [h, show ¬ j = i by omega]
  · rw [bit_ofNat]
    by_cases e : j = i
    · subst e; simp
    · simp [h, e, testBit_one, show ¬ j - i = 0 by omega]

@[simp] theorem bit_ofBit (b : Bool) (j : Nat) : bit (ofBit b) j = (decide (j = 0) && b) := by
  cases b
  · simp [ofBit]
  · by_cases h : j = 0 <;> simp [ofBit, h, testBit_one]

theorem bit_field (v : Word) (hi lo j : Nat) :
    bit (field v hi lo) j = (bit v (lo + j) && decide (j < 32) && decide (j < hi + 1 - lo)) := by
  simp [field, Bool.and_assoc]

theorem bit_merge (old new m : Word) (j : Nat) : bit (merge old new m) j = if bit m j then bit new j else bit old j := by
  by_cases hj : j < 32
  · cases h : bit m j <;> simp [merge, h, hj]
  · simp [bit_of_ge _ (Nat.le_of_not_lt hj)]

theorem bit_withBit (v : Word) (i j : Nat) (b : Bool) :
    bit (withBit v i b) j = if j = i ∧ i < 32 then b else bit v j := by
  by_cases hj : j < 32
  · cases b <;> by_cases h : j = i <;> simp [withBit, h, hj] <;> (subst h; simp [hj])
  · simp [bit_of_ge _ (Nat.le_of_not_lt hj), show ¬ (j = i ∧ i < 32) by omega]

theorem bit_withBit_self (v : Word) {i : Nat} (b : Bool) (h : i < 32) : bit (withBit v i b) i = b := by
  simp [bit_withBit, h]

theorem bit_withBit_of_ne (v : Word) {i j : Nat} (b : Bool) (h : j ≠ i) : bit (withBit v i b) j = bit v j := by
  simp [bit_withBit, h]

/-- Writing back what is there changes nothing. -/
theorem withBit_bit (v : Word) {i : Nat} : withBit v i (bit v i) = v := by
  refine word_ext fun j _ => ?_
  rw [bit_withBit]
  split
  · next h => rw [h.1]
  · rfl

theorem withBit_withBit (v : Word) (i : Nat) (a b : Bool) : withBit (withBit v i a) i b = withBit v i b := by
  refine word_ext fun j _ => ?_
  simp only [bit_withBit]
  split <;> rfl

/-- A field write by read, change and write back under a write mask that holds the bit is the field write itself. -/
theorem merge_withBit_read (old m : Word) {i : Nat} (b : Bool) (h : bit m i = true) :
    merge old (withBit (old &&& m) i b) m = withBit old i b := by
  refine word_ext fun j _ => ?_
  rw [bit_merge, bit_withBit, bit_withBit, bit_and]
  by_cases e : j = i ∧ i < 32
  · simp [e.1, h, e.2]
  · rw [if_neg e, if_neg e]
    cases hm : bit m j <;> simp

theorem merge_allOnes (old new : Word) : merge old new (BitVec.allOnes 32) = new := by
  refine word_ext fun j hj => ?_
  rw [bit_merge, bit_allOnes, if_pos (by simpa using hj)]

end Sys2Proof.Machine
end

