-- ==== Sys2Proof/Laws/State.lean ====
section
/-! SUPPORT. One lemma per field per update of the state, and what the accessors of the register files read after an update;
all true by unfolding, so that no later proof unfolds a record update. -/

namespace Sys2Proof.Machine

@[simp] theorem setMailbox_cfg (s : State) (i : Fin 3) (mb : Mailbox) : (s.setMailbox i mb).cfg = s.cfg := rfl
@[simp] theorem setMailbox_cmd (s : State) (i : Fin 3) (mb : Mailbox) : (s.setMailbox i mb).cmd = s.cmd := rfl
@[simp] theorem setMailbox_arg0 (s : State) (i : Fin 3) (mb : Mailbox) : (s.setMailbox i mb).arg0 = s.arg0 := rfl
@[simp] theorem setMailbox_arg1 (s : State) (i : Fin 3) (mb : Mailbox) : (s.setMailbox i mb).arg1 = s.arg1 := rfl
@[simp] theorem setMailbox_arg2 (s : State) (i : Fin 3) (mb : Mailbox) : (s.setMailbox i mb).arg2 = s.arg2 := rfl
@[simp] theorem setMailbox_res0 (s : State) (i : Fin 3) (mb : Mailbox) : (s.setMailbox i mb).res0 = s.res0 := rfl
@[simp] theorem setMailbox_res1 (s : State) (i : Fin 3) (mb : Mailbox) : (s.setMailbox i mb).res1 = s.res1 := rfl
@[simp] theorem setMailbox_res2 (s : State) (i : Fin 3) (mb : Mailbox) : (s.setMailbox i mb).res2 = s.res2 := rfl
@[simp] theorem setMailbox_res3 (s : State) (i : Fin 3) (mb : Mailbox) : (s.setMailbox i mb).res3 = s.res3 := rfl
@[simp] theorem setMailbox_res4 (s : State) (i : Fin 3) (mb : Mailbox) : (s.setMailbox i mb).res4 = s.res4 := rfl
@[simp] theorem setMailbox_seq (s : State) (i : Fin 3) (mb : Mailbox) : (s.setMailbox i mb).seq = s.seq := rfl
@[simp] theorem setMailbox_mcr (s : State) (i : Fin 3) (mb : Mailbox) : (s.setMailbox i mb).mcr = s.mcr := rfl
@[simp] theorem setMailbox_msr (s : State) (i : Fin 3) (mb : Mailbox) : (s.setMailbox i mb).msr = s.msr := rfl
@[simp] theorem setMailbox_tsr (s : State) (i : Fin 3) (mb : Mailbox) : (s.setMailbox i mb).tsr = s.tsr := rfl
@[simp] theorem setMailbox_ier (s : State) (i : Fin 3) (mb : Mailbox) : (s.setMailbox i mb).ier = s.ier := rfl
@[simp] theorem setMailbox_esr (s : State) (i : Fin 3) (mb : Mailbox) : (s.setMailbox i mb).esr = s.esr := rfl
@[simp] theorem setMailbox_btr (s : State) (i : Fin 3) (mb : Mailbox) : (s.setMailbox i mb).btr = s.btr := rfl
@[simp] theorem setMailbox_fifos (s : State) (i : Fin 3) (mb : Mailbox) : (s.setMailbox i mb).fifos = s.fifos := rfl
@[simp] theorem setMailbox_fmr (s : State) (i : Fin 3) (mb : Mailbox) : (s.setMailbox i mb).fmr = s.fmr := rfl
@[simp] theorem setMailbox_fm1r (s : State) (i : Fin 3) (mb : Mailbox) : (s.setMailbox i mb).fm1r = s.fm1r := rfl
@[simp] theorem setMailbox_fs1r (s : State) (i : Fin 3) (mb : Mailbox) : (s.setMailbox i mb).fs1r = s.fs1r := rfl
@[simp] theorem setMailbox_ffa1r (s : State) (i : Fin 3) (mb : Mailbox) : (s.setMailbox i mb).ffa1r = s.ffa1r := rfl
@[simp] theorem setMailbox_fa1r (s : State) (i : Fin 3) (mb : Mailbox) : (s.setMailbox i mb).fa1r = s.fa1r := rfl
@[simp] theorem setMailbox_banks (s : State) (i : Fin 3) (mb : Mailbox) : (s.setMailbox i mb).banks = s.banks := rfl
@[simp] theorem setMailbox_txOrder (s : State) (i : Fin 3) (mb : Mailbox) : (s.setMailbox i mb).txOrder = s.txOrder := rfl
@[simp] theorem setMailbox_timeStamp (s : State) (i : Fin 3) (mb : Mailbox) : (s.setMailbox i mb).timeStamp = s.timeStamp := rfl
@[simp] theorem setMailbox_agenda (s : State) (i : Fin 3) (mb : Mailbox) : (s.setMailbox i mb).agenda = s.agenda := rfl
@[simp] theorem setMailbox_drawTape (s : State) (i : Fin 3) (mb : Mailbox) : (s.setMailbox i mb).drawTape = s.drawTape := rfl
@[simp] theorem setMailbox_drawCount (s : State) (i : Fin 3) (mb : Mailbox) : (s.setMailbox i mb).drawCount = s.drawCount := rfl
@[simp] theorem setMailbox_hostData (s : State) (i : Fin 3) (mb : Mailbox) : (s.setMailbox i mb).hostData = s.hostData := rfl

@[simp] theorem setFifo_cfg (s : State) (f : Fin 2) (q : Fifo) : (s.setFifo f q).cfg = s.cfg := rfl
@[simp] theorem setFifo_cmd (s : State) (f : Fin 2) (q : Fifo) : (s.setFifo f q).cmd = s.cmd := rfl
@[simp] theorem setFifo_arg0 (s : State) (f : Fin 2) (q : Fifo) : (s.setFifo f q).arg0 = s.arg0 := rfl
@[simp] theorem setFifo_arg1 (s : State) (f : Fin 2) (q : Fifo) : (s.setFifo f q).arg1 = s.arg1 := rfl
@[simp] theorem setFifo_arg2 (s : State) (f : Fin 2) (q : Fifo) : (s.setFifo f q).arg2 = s.arg2 := rfl
@[simp] theorem setFifo_res0 (s : State) (f : Fin 2) (q : Fifo) : (s.setFifo f q).res0 = s.res0 := rfl
@[simp] theorem setFifo_res1 (s : State) (f : Fin 2) (q : Fifo) : (s.setFifo f q).res1 = s.res1 := rfl
@[simp] theorem setFifo_res2 (s : State) (f : Fin 2) (q : Fifo) : (s.setFifo f q).res2 = s.res2 := rfl
@[simp] theorem setFifo_res3 (s : State) (f : Fin 2) (q : Fifo) : (s.setFifo f q).res3 = s.res3 := rfl
@[simp] theorem setFifo_res4 (s : State) (f : Fin 2) (q : Fifo) : (s.setFifo f q).res4 = s.res4 := rfl
@[simp] theorem setFifo_seq (s : State) (f : Fin 2) (q : Fifo) : (s.setFifo f q).seq = s.seq := rfl
@[simp] theorem setFifo_mcr (s : State) (f : Fin 2) (q : Fifo) : (s.setFifo f q).mcr = s.mcr := rfl
@[simp] theorem setFifo_msr (s : State) (f : Fin 2) (q : Fifo) : (s.setFifo f q).msr = s.msr := rfl
@[simp] theorem setFifo_tsr (s : State) (f : Fin 2) (q : Fifo) : (s.setFifo f q).tsr = s.tsr := rfl
@[simp] theorem setFifo_ier (s : State) (f : Fin 2) (q : Fifo) : (s.setFifo f q).ier = s.ier := rfl
@[simp] theorem setFifo_esr (s : State) (f : Fin 2) (q : Fifo) : (s.setFifo f q).esr = s.esr := rfl
@[simp] theorem setFifo_btr (s : State) (f : Fin 2) (q : Fifo) : (s.setFifo f q).btr = s.btr := rfl
@[simp] theorem setFifo_mailboxes (s : State) (f : Fin 2) (q : Fifo) : (s.setFifo f q).mailboxes = s.mailboxes := rfl
@[simp] theorem setFifo_fmr (s : State) (f : Fin 2) (q : Fifo) : (s.setFifo f q).fmr = s.fmr := rfl
@[simp] theorem setFifo_fm1r (s : State) (f : Fin 2) (q : Fifo) : (s.setFifo f q).fm1r = s.fm1r := rfl
@[simp] theorem setFifo_fs1r (s : State) (f : Fin 2) (q : Fifo) : (s.setFifo f q).fs1r = s.fs1r := rfl
@[simp] theorem setFifo_ffa1r (s : State) (f : Fin 2) (q : Fifo) : (s.setFifo f q).ffa1r = s.ffa1r := rfl
@[simp] theorem setFifo_fa1r (s : State) (f : Fin 2) (q : Fifo) : (s.setFifo f q).fa1r = s.fa1r := rfl
@[simp] theorem setFifo_banks (s : State) (f : Fin 2) (q : Fifo) : (s.setFifo f q).banks = s.banks := rfl
@[simp] theorem setFifo_txOrder (s : State) (f : Fin 2) (q : Fifo) : (s.setFifo f q).txOrder = s.txOrder := rfl
@[simp] theorem setFifo_timeStamp (s : State) (f : Fin 2) (q : Fifo) : (s.setFifo f q).timeStamp = s.timeStamp := rfl
@[simp] theorem setFifo_agenda (s : State) (f : Fin 2) (q : Fifo) : (s.setFifo f q).agenda = s.agenda := rfl
@[simp] theorem setFifo_drawTape (s : State) (f : Fin 2) (q : Fifo) : (s.setFifo f q).drawTape = s.drawTape := rfl
@[simp] theorem setFifo_drawCount (s : State) (f : Fin 2) (q : Fifo) : (s.setFifo f q).drawCount = s.drawCount := rfl
@[simp] theorem setFifo_hostData (s : State) (f : Fin 2) (q : Fifo) : (s.setFifo f q).hostData = s.hostData := rfl

@[simp] theorem setBank_cfg (s : State) (b : Fin 28) (fb : FilterBank) : (s.setBank b fb).cfg = s.cfg := rfl
@[simp] theorem setBank_cmd (s : State) (b : Fin 28) (fb : FilterBank) : (s.setBank b fb).cmd = s.cmd := rfl
@[simp] theorem setBank_arg0 (s : State) (b : Fin 28) (fb : FilterBank) : (s.setBank b fb).arg0 = s.arg0 := rfl
@[simp] theorem setBank_arg1 (s : State) (b : Fin 28) (fb : FilterBank) : (s.setBank b fb).arg1 = s.arg1 := rfl
@[simp] theorem setBank_arg2 (s : State) (b : Fin 28) (fb : FilterBank) : (s.setBank b fb).arg2 = s.arg2 := rfl
@[simp] theorem setBank_res0 (s : State) (b : Fin 28) (fb : FilterBank) : (s.setBank b fb).res0 = s.res0 := rfl
@[simp] theorem setBank_res1 (s : State) (b : Fin 28) (fb : FilterBank) : (s.setBank b fb).res1 = s.res1 := rfl
@[simp] theorem setBank_res2 (s : State) (b : Fin 28) (fb : FilterBank) : (s.setBank b fb).res2 = s.res2 := rfl
@[simp] theorem setBank_res3 (s : State) (b : Fin 28) (fb : FilterBank) : (s.setBank b fb).res3 = s.res3 := rfl
@[simp] theorem setBank_res4 (s : State) (b : Fin 28) (fb : FilterBank) : (s.setBank b fb).res4 = s.res4 := rfl
@[simp] theorem setBank_seq (s : State) (b : Fin 28) (fb : FilterBank) : (s.setBank b fb).seq = s.seq := rfl
@[simp] theorem setBank_mcr (s : State) (b : Fin 28) (fb : FilterBank) : (s.setBank b fb).mcr = s.mcr := rfl
@[simp] theorem setBank_msr (s : State) (b : Fin 28) (fb : FilterBank) : (s.setBank b fb).msr = s.msr := rfl
@[simp] theorem setBank_tsr (s : State) (b : Fin 28) (fb : FilterBank) : (s.setBank b fb).tsr = s.tsr := rfl
@[simp] theorem setBank_ier (s : State) (b : Fin 28) (fb : FilterBank) : (s.setBank b fb).ier = s.ier := rfl
@[simp] theorem setBank_esr (s : State) (b : Fin 28) (fb : FilterBank) : (s.setBank b fb).esr = s.esr := rfl
@[simp] theorem setBank_btr (s : State) (b : Fin 28) (fb : FilterBank) : (s.setBank b fb).btr = s.btr := rfl
@[simp] theorem setBank_mailboxes (s : State) (b : Fin 28) (fb : FilterBank) : (s.setBank b fb).mailboxes = s.mailboxes := rfl
@[simp] theorem setBank_fifos (s : State) (b : Fin 28) (fb : FilterBank) : (s.setBank b fb).fifos = s.fifos := rfl
@[simp] theorem setBank_fmr (s : State) (b : Fin 28) (fb : FilterBank) : (s.setBank b fb).fmr = s.fmr := rfl
@[simp] theorem setBank_fm1r (s : State) (b : Fin 28) (fb : FilterBank) : (s.setBank b fb).fm1r = s.fm1r := rfl
@[simp] theorem setBank_fs1r (s : State) (b : Fin 28) (fb : FilterBank) : (s.setBank b fb).fs1r = s.fs1r := rfl
@[simp] theorem setBank_ffa1r (s : State) (b : Fin 28) (fb : FilterBank) : (s.setBank b fb).ffa1r = s.ffa1r := rfl
@[simp] theorem setBank_fa1r (s : State) (b : Fin 28) (fb : FilterBank) : (s.setBank b fb).fa1r = s.fa1r := rfl
@[simp] theorem setBank_txOrder (s : State) (b : Fin 28) (fb : FilterBank) : (s.setBank b fb).txOrder = s.txOrder := rfl
@[simp] theorem setBank_timeStamp (s : State) (b : Fin 28) (fb : FilterBank) : (s.setBank b fb).timeStamp = s.timeStamp := rfl
@[simp] theorem setBank_agenda (s : State) (b : Fin 28) (fb : FilterBank) : (s.setBank b fb).agenda = s.agenda := rfl
@[simp] theorem setBank_drawTape (s : State) (b : Fin 28) (fb : FilterBank) : (s.setBank b fb).drawTape = s.drawTape := rfl
@[simp] theorem setBank_drawCount (s : State) (b : Fin 28) (fb : FilterBank) : (s.setBank b fb).drawCount = s.drawCount := rfl
@[simp] theorem setBank_hostData (s : State) (b : Fin 28) (fb : FilterBank) : (s.setBank b fb).hostData = s.hostData := rfl

@[simp] theorem goto_cfg (s : State) (p : InFlight) : (goto p s).cfg = s.cfg := rfl
@[simp] theorem goto_cmd (s : State) (p : InFlight) : (goto p s).cmd = s.cmd := rfl
@[simp] theorem goto_arg0 (s : State) (p : InFlight) : (goto p s).arg0 = s.arg0 := rfl
@[simp] theorem goto_arg1 (s : State) (p : InFlight) : (goto p s).arg1 = s.arg1 := rfl
@[simp] theorem goto_arg2 (s : State) (p : InFlight) : (goto p s).arg2 = s.arg2 := rfl
@[simp] theorem goto_res0 (s : State) (p : InFlight) : (goto p s).res0 = s.res0 := rfl
@[simp] theorem goto_res1 (s : State) (p : InFlight) : (goto p s).res1 = s.res1 := rfl
@[simp] theorem goto_res2 (s : State) (p : InFlight) : (goto p s).res2 = s.res2 := rfl
@[simp] theorem goto_res3 (s : State) (p : InFlight) : (goto p s).res3 = s.res3 := rfl
@[simp] theorem goto_res4 (s : State) (p : InFlight) : (goto p s).res4 = s.res4 := rfl
@[simp] theorem goto_mcr (s : State) (p : InFlight) : (goto p s).mcr = s.mcr := rfl
@[simp] theorem goto_msr (s : State) (p : InFlight) : (goto p s).msr = s.msr := rfl
@[simp] theorem goto_tsr (s : State) (p : InFlight) : (goto p s).tsr = s.tsr := rfl
@[simp] theorem goto_ier (s : State) (p : InFlight) : (goto p s).ier = s.ier := rfl
@[simp] theorem goto_esr (s : State) (p : InFlight) : (goto p s).esr = s.esr := rfl
@[simp] theorem goto_btr (s : State) (p : InFlight) : (goto p s).btr = s.btr := rfl
@[simp] theorem goto_mailboxes (s : State) (p : InFlight) : (goto p s).mailboxes = s.mailboxes := rfl
@[simp] theorem goto_fifos (s : State) (p : InFlight) : (goto p s).fifos = s.fifos := rfl
@[simp] theorem goto_fmr (s : State) (p : InFlight) : (goto p s).fmr = s.fmr := rfl
@[simp] theorem goto_fm1r (s : State) (p : InFlight) : (goto p s).fm1r = s.fm1r := rfl
@[simp] theorem goto_fs1r (s : State) (p : InFlight) : (goto p s).fs1r = s.fs1r := rfl
@[simp] theorem goto_ffa1r (s : State) (p : InFlight) : (goto p s).ffa1r = s.ffa1r := rfl
@[simp] theorem goto_fa1r (s : State) (p : InFlight) : (goto p s).fa1r = s.fa1r := rfl
@[simp] theorem goto_banks (s : State) (p : InFlight) : (goto p s).banks = s.banks := rfl
@[simp] theorem goto_txOrder (s : State) (p : InFlight) : (goto p s).txOrder = s.txOrder := rfl
@[simp] theorem goto_timeStamp (s : State) (p : InFlight) : (goto p s).timeStamp = s.timeStamp := rfl
@[simp] theorem goto_agenda (s : State) (p : InFlight) : (goto p s).agenda = s.agenda := rfl
@[simp] theorem goto_drawTape (s : State) (p : InFlight) : (goto p s).drawTape = s.drawTape := rfl
@[simp] theorem goto_drawCount (s : State) (p : InFlight) : (goto p s).drawCount = s.drawCount := rfl
@[simp] theorem goto_hostData (s : State) (p : InFlight) : (goto p s).hostData = s.hostData := rfl

@[simp] theorem finish_cfg (s : State) (st : Status) (n : Nat) : (finish st n s).cfg = s.cfg := rfl
@[simp] theorem finish_cmd (s : State) (st : Status) (n : Nat) : (finish st n s).cmd = s.cmd := rfl
@[simp] theorem finish_arg0 (s : State) (st : Status) (n : Nat) : (finish st n s).arg0 = s.arg0 := rfl
@[simp] theorem finish_arg1 (s : State) (st : Status) (n : Nat) : (finish st n s).arg1 = s.arg1 := rfl
@[simp] theorem finish_arg2 (s : State) (st : Status) (n : Nat) : (finish st n s).arg2 = s.arg2 := rfl
@[simp] theorem finish_res1 (s : State) (st : Status) (n : Nat) : (finish st n s).res1 = s.res1 := rfl
@[simp] theorem finish_res2 (s : State) (st : Status) (n : Nat) : (finish st n s).res2 = s.res2 := rfl
@[simp] theorem finish_res3 (s : State) (st : Status) (n : Nat) : (finish st n s).res3 = s.res3 := rfl
@[simp] theorem finish_res4 (s : State) (st : Status) (n : Nat) : (finish st n s).res4 = s.res4 := rfl
@[simp] theorem finish_mcr (s : State) (st : Status) (n : Nat) : (finish st n s).mcr = s.mcr := rfl
@[simp] theorem finish_msr (s : State) (st : Status) (n : Nat) : (finish st n s).msr = s.msr := rfl
@[simp] theorem finish_tsr (s : State) (st : Status) (n : Nat) : (finish st n s).tsr = s.tsr := rfl
@[simp] theorem finish_ier (s : State) (st : Status) (n : Nat) : (finish st n s).ier = s.ier := rfl
@[simp] theorem finish_esr (s : State) (st : Status) (n : Nat) : (finish st n s).esr = s.esr := rfl
@[simp] theorem finish_btr (s : State) (st : Status) (n : Nat) : (finish st n s).btr = s.btr := rfl
@[simp] theorem finish_mailboxes (s : State) (st : Status) (n : Nat) : (finish st n s).mailboxes = s.mailboxes := rfl
@[simp] theorem finish_fifos (s : State) (st : Status) (n : Nat) : (finish st n s).fifos = s.fifos := rfl
@[simp] theorem finish_fmr (s : State) (st : Status) (n : Nat) : (finish st n s).fmr = s.fmr := rfl
@[simp] theorem finish_fm1r (s : State) (st : Status) (n : Nat) : (finish st n s).fm1r = s.fm1r := rfl
@[simp] theorem finish_fs1r (s : State) (st : Status) (n : Nat) : (finish st n s).fs1r = s.fs1r := rfl
@[simp] theorem finish_ffa1r (s : State) (st : Status) (n : Nat) : (finish st n s).ffa1r = s.ffa1r := rfl
@[simp] theorem finish_fa1r (s : State) (st : Status) (n : Nat) : (finish st n s).fa1r = s.fa1r := rfl
@[simp] theorem finish_banks (s : State) (st : Status) (n : Nat) : (finish st n s).banks = s.banks := rfl
@[simp] theorem finish_txOrder (s : State) (st : Status) (n : Nat) : (finish st n s).txOrder = s.txOrder := rfl
@[simp] theorem finish_timeStamp (s : State) (st : Status) (n : Nat) : (finish st n s).timeStamp = s.timeStamp := rfl
@[simp] theorem finish_agenda (s : State) (st : Status) (n : Nat) : (finish st n s).agenda = s.agenda := rfl
@[simp] theorem finish_drawTape (s : State) (st : Status) (n : Nat) : (finish st n s).drawTape = s.drawTape := rfl
@[simp] theorem finish_drawCount (s : State) (st : Status) (n : Nat) : (finish st n s).drawCount = s.drawCount := rfl
@[simp] theorem finish_hostData (s : State) (st : Status) (n : Nat) : (finish st n s).hostData = s.hostData := rfl

@[simp] theorem shown_cfg (s : State) (ws : List Word) : (shown ws s).cfg = s.cfg := rfl
@[simp] theorem shown_cmd (s : State) (ws : List Word) : (shown ws s).cmd = s.cmd := rfl
@[simp] theorem shown_arg0 (s : State) (ws : List Word) : (shown ws s).arg0 = s.arg0 := rfl
@[simp] theorem shown_arg1 (s : State) (ws : List Word) : (shown ws s).arg1 = s.arg1 := rfl
@[simp] theorem shown_arg2 (s : State) (ws : List Word) : (shown ws s).arg2 = s.arg2 := rfl
@[simp] theorem shown_res0 (s : State) (ws : List Word) : (shown ws s).res0 = s.res0 := rfl
@[simp] theorem shown_res1 (s : State) (ws : List Word) : (shown ws s).res1 = s.res1 := rfl
@[simp] theorem shown_res2 (s : State) (ws : List Word) : (shown ws s).res2 = s.res2 := rfl
@[simp] theorem shown_res3 (s : State) (ws : List Word) : (shown ws s).res3 = s.res3 := rfl
@[simp] theorem shown_res4 (s : State) (ws : List Word) : (shown ws s).res4 = s.res4 := rfl
@[simp] theorem shown_seq (s : State) (ws : List Word) : (shown ws s).seq = s.seq := rfl
@[simp] theorem shown_mcr (s : State) (ws : List Word) : (shown ws s).mcr = s.mcr := rfl
@[simp] theorem shown_msr (s : State) (ws : List Word) : (shown ws s).msr = s.msr := rfl
@[simp] theorem shown_tsr (s : State) (ws : List Word) : (shown ws s).tsr = s.tsr := rfl
@[simp] theorem shown_ier (s : State) (ws : List Word) : (shown ws s).ier = s.ier := rfl
@[simp] theorem shown_esr (s : State) (ws : List Word) : (shown ws s).esr = s.esr := rfl
@[simp] theorem shown_btr (s : State) (ws : List Word) : (shown ws s).btr = s.btr := rfl
@[simp] theorem shown_mailboxes (s : State) (ws : List Word) : (shown ws s).mailboxes = s.mailboxes := rfl
@[simp] theorem shown_fifos (s : State) (ws : List Word) : (shown ws s).fifos = s.fifos := rfl
@[simp] theorem shown_fmr (s : State) (ws : List Word) : (shown ws s).fmr = s.fmr := rfl
@[simp] theorem shown_fm1r (s : State) (ws : List Word) : (shown ws s).fm1r = s.fm1r := rfl
@[simp] theorem shown_fs1r (s : State) (ws : List Word) : (shown ws s).fs1r = s.fs1r := rfl
@[simp] theorem shown_ffa1r (s : State) (ws : List Word) : (shown ws s).ffa1r = s.ffa1r := rfl
@[simp] theorem shown_fa1r (s : State) (ws : List Word) : (shown ws s).fa1r = s.fa1r := rfl
@[simp] theorem shown_banks (s : State) (ws : List Word) : (shown ws s).banks = s.banks := rfl
@[simp] theorem shown_txOrder (s : State) (ws : List Word) : (shown ws s).txOrder = s.txOrder := rfl
@[simp] theorem shown_timeStamp (s : State) (ws : List Word) : (shown ws s).timeStamp = s.timeStamp := rfl
@[simp] theorem shown_agenda (s : State) (ws : List Word) : (shown ws s).agenda = s.agenda := rfl
@[simp] theorem shown_drawTape (s : State) (ws : List Word) : (shown ws s).drawTape = s.drawTape := rfl
@[simp] theorem shown_drawCount (s : State) (ws : List Word) : (shown ws s).drawCount = s.drawCount := rfl

@[simp] theorem elapse_cfg (s : State) : (elapse s).cfg = s.cfg := rfl
@[simp] theorem elapse_cmd (s : State) : (elapse s).cmd = s.cmd := rfl
@[simp] theorem elapse_arg0 (s : State) : (elapse s).arg0 = s.arg0 := rfl
@[simp] theorem elapse_arg1 (s : State) : (elapse s).arg1 = s.arg1 := rfl
@[simp] theorem elapse_arg2 (s : State) : (elapse s).arg2 = s.arg2 := rfl
@[simp] theorem elapse_res0 (s : State) : (elapse s).res0 = s.res0 := rfl
@[simp] theorem elapse_res1 (s : State) : (elapse s).res1 = s.res1 := rfl
@[simp] theorem elapse_res2 (s : State) : (elapse s).res2 = s.res2 := rfl
@[simp] theorem elapse_res3 (s : State) : (elapse s).res3 = s.res3 := rfl
@[simp] theorem elapse_res4 (s : State) : (elapse s).res4 = s.res4 := rfl
@[simp] theorem elapse_seq (s : State) : (elapse s).seq = s.seq := rfl
@[simp] theorem elapse_mcr (s : State) : (elapse s).mcr = s.mcr := rfl
@[simp] theorem elapse_msr (s : State) : (elapse s).msr = s.msr := rfl
@[simp] theorem elapse_tsr (s : State) : (elapse s).tsr = s.tsr := rfl
@[simp] theorem elapse_ier (s : State) : (elapse s).ier = s.ier := rfl
@[simp] theorem elapse_esr (s : State) : (elapse s).esr = s.esr := rfl
@[simp] theorem elapse_btr (s : State) : (elapse s).btr = s.btr := rfl
@[simp] theorem elapse_mailboxes (s : State) : (elapse s).mailboxes = s.mailboxes := rfl
@[simp] theorem elapse_fifos (s : State) : (elapse s).fifos = s.fifos := rfl
@[simp] theorem elapse_fmr (s : State) : (elapse s).fmr = s.fmr := rfl
@[simp] theorem elapse_fm1r (s : State) : (elapse s).fm1r = s.fm1r := rfl
@[simp] theorem elapse_fs1r (s : State) : (elapse s).fs1r = s.fs1r := rfl
@[simp] theorem elapse_ffa1r (s : State) : (elapse s).ffa1r = s.ffa1r := rfl
@[simp] theorem elapse_fa1r (s : State) : (elapse s).fa1r = s.fa1r := rfl
@[simp] theorem elapse_banks (s : State) : (elapse s).banks = s.banks := rfl
@[simp] theorem elapse_txOrder (s : State) : (elapse s).txOrder = s.txOrder := rfl
@[simp] theorem elapse_timeStamp (s : State) : (elapse s).timeStamp = s.timeStamp := rfl
@[simp] theorem elapse_drawTape (s : State) : (elapse s).drawTape = s.drawTape := rfl
@[simp] theorem elapse_drawCount (s : State) : (elapse s).drawCount = s.drawCount := rfl
@[simp] theorem elapse_hostData (s : State) : (elapse s).hostData = s.hostData := rfl

@[simp] theorem goto_seq (s : State) (p : InFlight) : (goto p s).seq = .busy p := rfl
@[simp] theorem finish_seq (s : State) (st : Status) (n : Nat) : (finish st n s).seq = .idle := rfl
@[simp] theorem finish_res0 (s : State) (st : Status) (n : Nat) : (finish st n s).res0 = statusWord st n := rfl
@[simp] theorem shown_hostData (s : State) (ws : List Word) : (shown ws s).hostData = ws := rfl
@[simp] theorem elapse_agenda (s : State) : (elapse s).agenda = ageAgenda s.agenda := rfl
@[simp] theorem raise_eq (s : State) (st : Status) : raise st s = finish st 0 s := rfl

/-! ### The accessors after an update of their own register file -/

theorem setMailbox_mailbox (s : State) (i j : Fin 3) (mb : Mailbox) :
    (s.setMailbox i mb).mailbox j = if j = i then mb else s.mailbox j := by
  by_cases h : j = i
  · subst h; simp [State.mailbox, State.setMailbox]
  · have : i.val ≠ j.val := fun e => h (Fin.ext e.symm)
    simp [State.mailbox, State.setMailbox, h, this]

theorem setFifo_fifo (s : State) (f g : Fin 2) (q : Fifo) :
    (s.setFifo f q).fifo g = if g = f then q else s.fifo g := by
  by_cases h : g = f
  · subst h; simp [State.fifo, State.setFifo]
  · have : f.val ≠ g.val := fun e => h (Fin.ext e.symm)
    simp [State.fifo, State.setFifo, h, this]

theorem setBank_bank (s : State) (b c : Fin 28) (fb : FilterBank) :
    (s.setBank b fb).bank c = if c = b then fb else s.bank c := by
  by_cases h : c = b
  · subst h; simp [State.bank, State.setBank]
  · have : b.val ≠ c.val := fun e => h (Fin.ext e.symm)
    simp [State.bank, State.setBank, h, this]

@[simp] theorem setMailbox_mailbox_self (s : State) (i : Fin 3) (mb : Mailbox) :
    (s.setMailbox i mb).mailbox i = mb := by simp [setMailbox_mailbox]

@[simp] theorem setFifo_fifo_self (s : State) (f : Fin 2) (q : Fifo) : (s.setFifo f q).fifo f = q := by
  simp [setFifo_fifo]

@[simp] theorem setBank_bank_self (s : State) (b : Fin 28) (fb : FilterBank) : (s.setBank b fb).bank b = fb := by
  simp [setBank_bank]

/-- Two updates of one mailbox are the last of them. -/
theorem setMailbox_setMailbox (s : State) (i : Fin 3) (a b : Mailbox) :
    (s.setMailbox i a).setMailbox i b = s.setMailbox i b := by simp [State.setMailbox]

/-- Two updates of one FIFO are the last of them. -/
theorem setFifo_setFifo (s : State) (f : Fin 2) (a b : Fifo) : (s.setFifo f a).setFifo f b = s.setFifo f b := by
  simp [State.setFifo]

/-- Two updates of one bank are the last of them. -/
theorem setBank_setBank (s : State) (b : Fin 28) (x y : FilterBank) : (s.setBank b x).setBank b y = s.setBank b y := by
  simp [State.setBank]

end Sys2Proof.Machine
end

