-- ==== Sys2Proof/Laws/Ops.lean ====
section
/-! SUPPORT. What each shared operation can do, said once: a draw or a read changes nothing but what is left to draw; a field
write of a plain register is the update of its bits; a command completes by its micro-operations, one after another. -/

namespace Sys2Proof.Machine

/-! ### Draws and reads -/

/-- `t` is `s` but for what has been drawn. -/
def DrawnFrom (s t : State) : Prop := ∃ tape n, t = { s with drawTape := tape, drawCount := n }

theorem DrawnFrom.refl (s : State) : DrawnFrom s s := ⟨s.drawTape, s.drawCount, rfl⟩

theorem DrawnFrom.trans {s t u : State} (h : DrawnFrom s t) (k : DrawnFrom t u) : DrawnFrom s u := by
  obtain ⟨_, _, rfl⟩ := h
  obtain ⟨a, b, rfl⟩ := k
  exact ⟨a, b, rfl⟩

theorem draw_frame (s : State) : DrawnFrom s (draw s).2 := by
  unfold draw
  split
  · next rest _ => exact ⟨rest, s.drawCount, rfl⟩
  · exact ⟨s.drawTape, s.drawCount + 1, rfl⟩

theorem drawIn_frame {α : Type} (a : α) (l : List α) (s : State) : DrawnFrom s (drawIn a l s).2 := draw_frame s

theorem drawIn_mem {α : Type} (a : α) (l : List α) (s : State) : (drawIn a l s).1 ∈ a :: l := by
  have h : (draw s).1.toNat % (l.length + 1) < (a :: l).length := Nat.mod_lt _ (Nat.succ_pos _)
  have e : (drawIn a l s).1 = (a :: l)[(draw s).1.toNat % (l.length + 1)]'h := by
    simp only [drawIn, List.getD_eq_getElem?_getD, List.getElem?_eq_getElem h, Option.getD_some]
  rw [e]
  exact List.getElem_mem h

theorem resolve_frame (c : Cell) (s : State) : DrawnFrom s (resolve c s).2 := by
  unfold resolve
  split
  · exact .refl s
  · exact draw_frame s

theorem resolve_of_known {c : Cell} (h : c.known = BitVec.allOnes 32) (s : State) : resolve c s = (c.val, s) := by
  simp [resolve, h]

@[simp] theorem resolve_of (v : Word) (s : State) : resolve (.of v) s = (v, s) := resolve_of_known rfl s

/-- A read shows the bits of the cell that hold a value. -/
theorem resolve_and_known (c : Cell) (s : State) : (resolve c s).1 &&& c.known = c.val &&& c.known := by
  unfold resolve
  split
  · rfl
  · refine word_ext fun j _ => ?_
    simp only [bit_and, bit_merge]
    cases bit c.known j <;> simp

theorem drawCode_frame (s : State) : DrawnFrom s (drawCode s).2 := by
  unfold drawCode
  split <;> exact drawIn_frame ..

theorem readTsr_frame (s : State) : DrawnFrom s (readTsr s).2 := drawCode_frame s

/-- No register read has a side effect (R94). -/
theorem readReg_frame (r : Reg) (s : State) : DrawnFrom s (readReg r s).2 := by
  unfold readReg
  split
  · exact readTsr_frame s
  · exact resolve_frame ..

theorem readReg_eq_resolve {r : Reg} (h : r ≠ .tsr) (s : State) : readReg r s = resolve (view r s) s := by
  simp [readReg, h]

theorem mem_emptyMailboxes (s : State) (i : Fin 3) : i ∈ s.emptyMailboxes ↔ s.tme i = true := by
  simp only [State.emptyMailboxes, List.mem_filter]
  constructor
  · exact fun h => h.2
  · intro h
    have all : ∀ k : Fin 3, k ∈ [0, 1, 2] := by decide
    exact ⟨all i, h⟩

/-- CODE names an empty mailbox whenever there is one (R190). -/
theorem drawCode_empty (s : State) {i : Fin 3} (h : s.tme i = true) : s.tme (drawCode s).1 = true := by
  have hi := (mem_emptyMailboxes s i).2 h
  rw [← mem_emptyMailboxes]
  unfold drawCode
  split
  · next first rest e => rw [e]; exact drawIn_mem first rest s
  · next e => rw [e] at hi; exact absurd hi (by simp)

theorem field_toNat (v : Word) (hi lo : Nat) : (field v hi lo).toNat = v.toNat >>> lo % 2 ^ (hi + 1 - lo) := by
  by_cases h : hi + 1 - lo ≤ 32
  · simp only [field, mask, BitVec.toNat_and, BitVec.toNat_ushiftRight, BitVec.toNat_ofNat]
    rw [Nat.mod_eq_of_lt (a := 2 ^ (hi + 1 - lo) - 1), Nat.and_two_pow_sub_one_eq_mod]
    calc 2 ^ (hi + 1 - lo) - 1 < 2 ^ (hi + 1 - lo) := Nat.sub_lt (Nat.two_pow_pos _) Nat.one_pos
      _ ≤ 2 ^ 32 := Nat.pow_le_pow_right (by omega) h
  · have e : mask (hi + 1 - lo) = BitVec.allOnes 32 := by
      refine word_ext fun j hj => ?_
      rw [bit_mask, bit_allOnes]
      simp [hj, show j < hi + 1 - lo by omega]
    rw [field, e, BitVec.and_allOnes, BitVec.toNat_ushiftRight, Nat.mod_eq_of_lt]
    calc v.toNat >>> lo ≤ v.toNat := Nat.shiftRight_le ..
      _ < 2 ^ 32 := v.isLt
      _ ≤ 2 ^ (hi + 1 - lo) := Nat.pow_le_pow_right (by omega) (by omega)

/-- The identifier check as a bound: 11 or 29 bits (R192, R252). -/
theorem idFits_iff (ide : Bool) (id : Word) : idFits ide id = true ↔ id.toNat < (if ide then 2 ^ 29 else 2 ^ 11) := by
  have key : ∀ k, k < 32 → (field id 31 k = 0#32 ↔ id.toNat < 2 ^ k) := by
    intro k hk
    have hz : field id 31 k = 0#32 ↔ id.toNat / 2 ^ k % 2 ^ (32 - k) = 0 := by
      rw [← BitVec.toNat_inj, field_toNat, Nat.shiftRight_eq_div_pow]
      simp
    rw [hz, Nat.mod_eq_of_lt, Nat.div_eq_zero_iff]
    · have := Nat.two_pow_pos k; omega
    · rw [Nat.div_lt_iff_lt_mul (Nat.two_pow_pos k), ← Nat.pow_add, show 32 - k + k = 32 by omega]
      exact id.isLt
  cases ide
  · simpa [idFits] using key 11 (by omega)
  · simpa [idFits] using key 29 (by omega)

/-- The mailbox CODE names in a read of TSR is the drawn one. -/
theorem codeOf_readTsr (s : State) : codeOf (readTsr s).1 = some (drawCode s).1 := by
  have key : ∀ (t : Word) (m : Fin 3), field ((t &&& tsrMask) ||| (BitVec.ofNat 32 m.val <<< 24)) 25 24
      = BitVec.ofNat 32 m.val := by
    intro t m
    refine word_ext fun j hj => ?_
    rw [bit_field, bit_or, bit_and, bit_shiftLeft]
    have hc : j < 2 ∨ 2 ≤ j := by omega
    rcases hc with hc | hc
    · have ht : bit tsrMask (24 + j) = false := by
        have : j = 0 ∨ j = 1 := by omega
        rcases this with rfl | rfl <;> decide
      simp [ht, hj, hc, show 24 + j < 32 by omega]
    · have hz : bit (BitVec.ofNat 32 m.val) j = false := by
        rw [bit_ofNat]
        have : m.val.testBit j = false := by
          apply Nat.testBit_lt_two_pow
          calc m.val < 2 ^ 2 := by omega
            _ ≤ 2 ^ j := Nat.pow_le_pow_right (by omega) hc
        simp [this]
      simp [hz, show ¬ j < 25 + 1 - 24 by omega]
  unfold codeOf readTsr
  simp only [key]
  generalize (drawCode s).1 = m
  revert m
  decide

/-- A read of TSR shows the stored TME bits. -/
theorem tmeOf_readTsr (s : State) (i : Fin 3) : tmeOf (readTsr s).1 i = s.tme i := by
  unfold tmeOf readTsr State.tme tmeOf
  rw [bit_or, bit_and, bit_shiftLeft, bit_ofNat]
  have hm : bit tsrMask (26 + i.val) = true := by revert i; decide
  have hz : (drawCode s).1.val.testBit (26 + i.val - 24) = false := by
    apply Nat.testBit_lt_two_pow
    calc (drawCode s).1.val < 2 ^ 2 := by omega
      _ ≤ 2 ^ (26 + i.val - 24) := Nat.pow_le_pow_right (by omega) (by omega)
  simp [hm, hz]

/-! ### Field writes of the plain registers (R12) -/

theorem modifyReg_fmr (s : State) (b : Bool) :
    modifyReg .fmr (fun v => withBit v 0 b) s = { s with fmr := withBit s.fmr 0 b } := by
  have : merge s.fmr (withBit (s.fmr &&& 0x00003F01#32) 0 b) 0x00000001#32 = withBit s.fmr 0 b := by
    refine word_ext fun j hj => ?_
    rw [bit_merge, bit_withBit, bit_withBit]
    have h1 : bit 0x00000001#32 j = decide (j = 0) := by
      rw [show (0x00000001#32 : Word) = single 0 from rfl, bit_single]; simp [hj]
    by_cases e : j = 0
    · subst e; simp [h1]
    · simp [h1, e]
  simp [modifyReg, readReg, view, writeReg, this]

theorem bankMask_bit (s : State) {b : Nat} (h : b < s.cfg.val.fbCount) : bit s.bankMask b = true := by
  have := s.cfg.property.2.2.1.2
  simp [State.bankMask, h]
  omega

theorem modifyReg_fa1r (s : State) {b : Nat} (h : b < s.cfg.val.fbCount) (v : Bool) :
    modifyReg .fa1r (fun w => withBit w b v) s = { s with fa1r := withBit s.fa1r b v } := by
  simp [modifyReg, readReg, view, writeReg, merge_withBit_read _ _ _ (bankMask_bit s h)]

theorem modifyReg_fs1r (s : State) {b : Nat} (h : b < s.cfg.val.fbCount) (v : Bool) (hf : s.finit = true) :
    modifyReg .fs1r (fun w => withBit w b v) s = { s with fs1r := withBit s.fs1r b v } := by
  simp [modifyReg, readReg, view, writeReg, hf, merge_withBit_read _ _ _ (bankMask_bit s h)]

theorem modifyReg_fm1r (s : State) {b : Nat} (h : b < s.cfg.val.fbCount) (v : Bool) (hf : s.finit = true) :
    modifyReg .fm1r (fun w => withBit w b v) s = { s with fm1r := withBit s.fm1r b v } := by
  simp [modifyReg, readReg, view, writeReg, hf, merge_withBit_read _ _ _ (bankMask_bit s h)]

theorem modifyReg_ffa1r (s : State) {b : Nat} (h : b < s.cfg.val.fbCount) (v : Bool) (hf : s.finit = true) :
    modifyReg .ffa1r (fun w => withBit w b v) s = { s with ffa1r := withBit s.ffa1r b v } := by
  simp [modifyReg, readReg, view, writeReg, hf, merge_withBit_read _ _ _ (bankMask_bit s h)]

/-- A write that leaves MCR.RESET 0 stores the writable bits (R36). -/
theorem writeMcr_eq {v : Word} (h : bit v 15 = false) (s : State) :
    writeMcr v s = { s with mcr := merge s.mcr v 0x000100FF#32 } := by simp [writeMcr, h]

/-- A field write of MCR cannot reset the controller: RESET reads 0. -/
theorem modifyReg_mcr (s : State) (change : Word → Word)
    (h : bit (change (s.mcr &&& 0x000100FF#32)) 15 = false) :
    modifyReg .mcr change s = { s with mcr := merge s.mcr (change (s.mcr &&& 0x000100FF#32)) 0x000100FF#32 } := by
  simp [modifyReg, readReg, view, writeReg, writeMcr_eq h]

/-! ### The place in a command -/

@[simp] theorem pos_of_busy {s : State} {p : InFlight} (h : s.seq = .busy p) : s.pos = p := by simp [State.pos, h]

@[simp] theorem pos_of_idle {s : State} (h : s.seq = .idle) : s.pos = .start := by simp [State.pos, h]

/-- A command that ends with this micro-operation. -/
theorem completes_one {i : Instr} {s t : State} (h : exec i s = .next t) (hs : t.seq = .idle) : Completes i 1 s t := ⟨h, hs⟩

/-- A command that goes on after this micro-operation. -/
theorem completes_go {i : Instr} {n : Nat} {s u t : State} {p : InFlight} (h : exec i s = .next u) (hs : u.seq = .busy p)
    (k : Completes i (n + 1) u t) : Completes i (n + 2) s t := ⟨u, h, by simp [hs], k⟩

/-- A completed command leaves the sequencer idle. -/
theorem Completes.idle {i : Instr} {n : Nat} {s t : State} (h : Completes i n s t) : t.seq = .idle := by
  induction n generalizing s with
  | zero => exact h.elim
  | succ n ih =>
    cases n with
    | zero => exact h.2
    | succ n =>
      obtain ⟨u, -, -, k⟩ := h
      exact ih k

/-- What every micro-operation keeps, a whole command keeps. -/
theorem Completes.keeps {i : Instr} {P : State → Prop} (h : ∀ s t, P s → exec i s = .next t → P t) {n : Nat} {s t : State}
    (hs : P s) (c : Completes i n s t) : P t := by
  induction n generalizing s with
  | zero => exact c.elim
  | succ n ih =>
    cases n with
    | zero => exact h s t hs c.1
    | succ n =>
      obtain ⟨u, e, -, k⟩ := c
      exact ih (h s u hs e) k

end Sys2Proof.Machine
end

