-- ==== Sys2Proof/Laws/Consistent.lean ====
section
/-! SUPPORT. The operations of the register file keep it consistent: reads, writes with their side effects, and the updates
that do not touch it. -/

namespace Sys2Proof.Machine

/-- Consistency is about the register file alone. -/
theorem State.Consistent.congr {s t : State} (h : s.Consistent) (cfg : t.cfg = s.cfg) (mcr : t.mcr = s.mcr) (msr : t.msr = s.msr)
    (tsr : t.tsr = s.tsr) (ier : t.ier = s.ier) (esr : t.esr = s.esr) (btr : t.btr = s.btr)
    (mailboxes : t.mailboxes = s.mailboxes) (fifos : t.fifos = s.fifos) (fmr : t.fmr = s.fmr) (fm1r : t.fm1r = s.fm1r)
    (fs1r : t.fs1r = s.fs1r) (ffa1r : t.ffa1r = s.ffa1r) (fa1r : t.fa1r = s.fa1r) (banks : t.banks = s.banks)
    (txOrder : t.txOrder = s.txOrder) : t.Consistent := by
  obtain ⟨⟩ := s
  obtain ⟨⟩ := t
  simp only at cfg mcr msr tsr ier esr btr mailboxes fifos fmr fm1r fs1r ffa1r fa1r banks txOrder
  subst cfg mcr msr tsr ier esr btr mailboxes fifos fmr fm1r fs1r ffa1r fa1r banks txOrder
  exact ⟨h.1, h.2, h.3, h.4, h.5, h.6, h.7, h.8⟩

theorem DrawnFrom.consistent {s t : State} (h : DrawnFrom s t) (k : s.Consistent) : t.Consistent := by
  obtain ⟨_, _, rfl⟩ := h
  exact k.congr rfl rfl rfl rfl rfl rfl rfl rfl rfl rfl rfl rfl rfl rfl rfl rfl

theorem goto_consistent {s : State} (p : InFlight) (k : s.Consistent) : (goto p s).Consistent :=
  k.congr rfl rfl rfl rfl rfl rfl rfl rfl rfl rfl rfl rfl rfl rfl rfl rfl

theorem finish_consistent {s : State} (st : Status) (n : Nat) (k : s.Consistent) : (finish st n s).Consistent :=
  k.congr rfl rfl rfl rfl rfl rfl rfl rfl rfl rfl rfl rfl rfl rfl rfl rfl

theorem elapse_consistent {s : State} (k : s.Consistent) : (elapse s).Consistent :=
  k.congr rfl rfl rfl rfl rfl rfl rfl rfl rfl rfl rfl rfl rfl rfl rfl rfl

/-! ### Masks and canonical cells -/

theorem and_not_eq_zero {v m : Word} : v &&& ~~~m = 0 ↔ ∀ j, bit v j = true → bit m j = true := by
  constructor
  · intro h j hj
    have hlt : j < 32 := by
      by_contra hc
      simp [bit_of_ge v (Nat.le_of_not_lt hc)] at hj
    have := congrArg (fun w => bit w j) h
    simpa [hj, hlt] using this
  · intro h
    refine word_ext fun j hj => ?_
    cases e : bit v j with
    | false => simp [e]
    | true => simp [h j e]

/-- A masked write stays within the bits the register has. -/
theorem merge_within {old new m r : Word} (h : old &&& ~~~r = 0) (k : m &&& ~~~r = 0) : merge old new m &&& ~~~r = 0 := by
  rw [and_not_eq_zero] at *
  intro j hj
  rw [bit_merge] at hj
  split at hj
  · next hm => exact k j hm
  · exact h j hj

theorem withBit_within {v r : Word} {i : Nat} {b : Bool} (h : v &&& ~~~r = 0) (k : b = true → bit r i = true) :
    withBit v i b &&& ~~~r = 0 := by
  rw [and_not_eq_zero] at *
  intro j hj
  rw [bit_withBit] at hj
  split at hj
  · next e => rw [e.1]; exact k hj
  · exact h j hj

theorem Cell.of_canonical (v : Word) : (Cell.of v).Canonical := by
  show v &&& ~~~(BitVec.allOnes 32) = 0
  rw [and_not_eq_zero]
  intro j hj
  rw [bit_allOnes]
  by_contra hc
  simp [bit_of_ge v (by simpa using hc)] at hj

theorem Cell.patch_canonical {c : Cell} (h : c.Canonical) (m v : Word) : (c.patch m v).Canonical := by
  unfold Cell.Canonical Cell.patch at *
  rw [and_not_eq_zero] at *
  intro j hj
  simp only [bit_merge] at hj
  rw [bit_or]
  split at hj
  · next hm => simp [hm]
  · simp [h j hj]

theorem masked_canonical (v m : Word) : (⟨v &&& m, m⟩ : Cell).Canonical := by
  unfold Cell.Canonical
  rw [and_not_eq_zero]
  intro j hj
  rw [bit_and] at hj
  exact (Bool.and_eq_true _ _ ▸ hj).2

/-- A field write that spares the reserved bits leaves them 0 (R44). -/
theorem Cell.patch_reservedZero {c : Cell} (h : c.ReservedZero) {m : Word} (hm : m &&& 0x0000FEF0#32 = 0) (v : Word) :
    (c.patch m v).ReservedZero := by
  have key : ∀ j, bit m j = true → bit 0x0000FEF0#32 j = false := by
    intro j hj
    have := congrArg (fun w => bit w j) hm
    simpa [hj] using this
  refine ⟨?_, ?_⟩
  · rw [← h.1]
    refine word_ext fun j hj => ?_
    simp only [Cell.patch, bit_and, bit_merge]
    cases hb : bit m j
    · simp
    · simp [key j hb]
  · refine Eq.trans ?_ h.2
    refine word_ext fun j hj => ?_
    simp only [Cell.patch, bit_and, bit_or]
    cases hb : bit m j
    · simp
    · simp [key j hb]

/-! ### Bits of TSR -/

theorem tme_bit_lt (i : Fin 3) : 26 + i.val < 32 := by omega

theorem tmeOf_withBit_tme (t : Word) (i j : Fin 3) (b : Bool) :
    tmeOf (withBit t (26 + i.val) b) j = if j = i then b else tmeOf t j := by
  unfold tmeOf
  rw [bit_withBit]
  by_cases h : j = i
  · subst h; simp [tme_bit_lt]
  · have : ¬ (26 + j.val = 26 + i.val ∧ 26 + i.val < 32) := fun e => h (Fin.ext (by omega))
    rw [if_neg this, if_neg h]

/-- The bits below TME do not touch TME. -/
theorem tmeOf_withBit_low (t : Word) (j : Fin 3) {k : Nat} (b : Bool) (h : k < 26) :
    tmeOf (withBit t k b) j = tmeOf t j := by
  unfold tmeOf
  rw [bit_withBit_of_ne]
  omega

/-! ### A mailbox update -/

/-- A mailbox update that keeps TXRQ and the canonical form keeps everything. -/
theorem setMailbox_consistent {s : State} (k : s.Consistent) (i : Fin 3) (mb : Mailbox)
    (hv : bit mb.tir.val 0 = bit (s.mailbox i).tir.val 0) (hk : bit mb.tir.known 0 = true)
    (hc : mb.tir.Canonical ∧ mb.tdtr.Canonical ∧ mb.tdlr.Canonical ∧ mb.tdhr.Canonical) (hr : mb.tdtr.ReservedZero) :
    (s.setMailbox i mb).Consistent where
  mailboxFlags j := by
    rw [setMailbox_mailbox]
    split
    · next e => subst e; exact ⟨hk, hv.trans (k.mailboxFlags j).2⟩
    · exact k.mailboxFlags j
  queuesFit := k.queuesFit
  oneMode := k.oneMode
  abortsPending := k.abortsPending
  orderPending := k.orderPending
  reservedClear := k.reservedClear
  cellsCanonical := by
    refine ⟨fun j => ?_, k.cellsCanonical.2.1, k.cellsCanonical.2.2⟩
    rw [setMailbox_mailbox]
    split
    · exact hc
    · exact k.cellsCanonical.1 j
  mailboxReserved j := by
    rw [setMailbox_mailbox]
    split
    · exact hr
    · exact k.mailboxReserved j

/-- A FIFO update that keeps the queue within its depth and the canonical form keeps everything. -/
theorem setFifo_consistent {s : State} (k : s.Consistent) (f : Fin 2) (q : Fifo)
    (hl : q.queue.length ≤ s.cfg.val.fifoDepth) (hc : ∀ e ∈ q.queue, e.rdl.Canonical ∧ e.rdh.Canonical) :
    (s.setFifo f q).Consistent where
  mailboxFlags := k.mailboxFlags
  queuesFit g := by
    unfold State.queue
    rw [setFifo_fifo]
    split
    · exact hl
    · exact k.queuesFit g
  oneMode := k.oneMode
  abortsPending := k.abortsPending
  orderPending := k.orderPending
  reservedClear := k.reservedClear
  cellsCanonical := by
    refine ⟨k.cellsCanonical.1, k.cellsCanonical.2.1, fun g e he => ?_⟩
    unfold State.queue at he
    rw [setFifo_fifo] at he
    split at he
    · exact hc e he
    · exact k.cellsCanonical.2.2 g e he
  mailboxReserved := k.mailboxReserved

/-- A bank update in canonical form keeps everything. -/
theorem setBank_consistent {s : State} (k : s.Consistent) (b : Fin 28) (fb : FilterBank)
    (hc : fb.fr1.Canonical ∧ fb.fr2.Canonical) : (s.setBank b fb).Consistent where
  mailboxFlags := k.mailboxFlags
  queuesFit := k.queuesFit
  oneMode := k.oneMode
  abortsPending := k.abortsPending
  orderPending := k.orderPending
  reservedClear := k.reservedClear
  cellsCanonical := by
    refine ⟨k.cellsCanonical.1, fun c => ?_, k.cellsCanonical.2.2⟩
    rw [setBank_bank]
    split
    · exact hc
    · exact k.cellsCanonical.2.1 c
  mailboxReserved := k.mailboxReserved

/-! ### Side effects of writes -/

/-- Handing over an empty mailbox whose TXRQ has just been set keeps everything. -/
theorem writeTir_consistent {s : State} (k : s.Consistent) (i : Fin 3) (v : Word) : (writeTir i v s).Consistent := by
  unfold writeTir
  by_cases ht : s.tme i = true
  · rw [if_pos ht]
    have canon : ({ s.mailbox i with tir := Cell.of v } : Mailbox).tir.Canonical ∧ (s.mailbox i).tdtr.Canonical ∧
        (s.mailbox i).tdlr.Canonical ∧ (s.mailbox i).tdhr.Canonical :=
      ⟨Cell.of_canonical v, (k.cellsCanonical.1 i).2⟩
    by_cases hv : bit v 0 = true
    · rw [if_pos hv]
      have tmes : ∀ j, (transmitRequest i (s.setMailbox i { s.mailbox i with tir := Cell.of v })).tme j
          = if j = i then false else s.tme j := fun j => tmeOf_withBit_tme s.tsr i j false
      exact {
        mailboxFlags := fun j => by
          show bit ((s.setMailbox i { s.mailbox i with tir := Cell.of v }).mailbox j).tir.known 0 = true ∧
            bit ((s.setMailbox i { s.mailbox i with tir := Cell.of v }).mailbox j).tir.val 0 = !_
          rw [setMailbox_mailbox, tmes]
          by_cases e : j = i
          · subst e; simp [hv, Cell.of]
          · simp only [if_neg e]; exact k.mailboxFlags j
        queuesFit := k.queuesFit
        oneMode := k.oneMode
        abortsPending := fun j h => by
          rw [tmes]
          split
          · rfl
          · refine k.abortsPending j (Eq.trans ?_ h)
            exact (bit_withBit_of_ne s.tsr false (show 8 * j.val + 7 ≠ 26 + i.val by omega)).symm
        orderPending := by
          refine ⟨?_, fun j => ?_⟩
          · show (s.txOrder ++ [i]).Nodup
            rw [List.nodup_append]
            refine ⟨k.orderPending.1, by simp, ?_⟩
            intro a ha b hb e
            rw [List.mem_singleton] at hb
            subst hb; subst e
            have := (k.orderPending.2 a).1 ha
            rw [ht] at this
            exact Bool.noConfusion this
          · show j ∈ s.txOrder ++ [i] ↔ _
            rw [tmes, List.mem_append, List.mem_singleton, k.orderPending.2 j]
            by_cases e : j = i <;> simp [e]
        reservedClear := by
          obtain ⟨a, b, c, d⟩ := k.reservedClear
          exact ⟨a, b, withBit_within c (fun h => Bool.noConfusion h), d⟩
        cellsCanonical := by
          refine ⟨fun j => ?_, k.cellsCanonical.2.1, k.cellsCanonical.2.2⟩
          have e : (transmitRequest i (s.setMailbox i { s.mailbox i with tir := Cell.of v })).mailbox j =
              if j = i then { s.mailbox i with tir := Cell.of v } else s.mailbox j := setMailbox_mailbox s i j _
          rw [e]
          split
          · exact canon
          · exact k.cellsCanonical.1 j
        mailboxReserved := fun j => by
          have e : (transmitRequest i (s.setMailbox i { s.mailbox i with tir := Cell.of v })).mailbox j =
              if j = i then { s.mailbox i with tir := Cell.of v } else s.mailbox j := setMailbox_mailbox s i j _
          rw [e]
          split
          · exact k.mailboxReserved i
          · exact k.mailboxReserved j }
    · rw [if_neg hv]
      refine setMailbox_consistent k i _ ?_ (by simp [Cell.of]) canon (k.mailboxReserved i)
      rw [(k.mailboxFlags i).2, ht]
      simpa [Cell.of] using hv
  · rw [if_neg ht]; exact k

theorem release_consistent {s : State} (k : s.Consistent) (f : Fin 2) : (release f s).Consistent := by
  refine setFifo_consistent k f _ ?_ ?_
  · show (s.queue f).tail.length ≤ _
    rw [List.length_tail]
    exact Nat.le_trans (Nat.sub_le _ _) (k.queuesFit f)
  · exact fun e he => k.cellsCanonical.2.2 f e (List.mem_of_mem_tail he)

theorem clearTxrq_mailbox (i j : Fin 3) (s : State) :
    (clearTxrq i s).mailbox j = if j = i then { s.mailbox i with tir := (s.mailbox i).tir.patch 1#32 0#32 } else s.mailbox j :=
  setMailbox_mailbox s i j _

theorem patch_txrq (c : Cell) : bit (c.patch 1#32 0#32).val 0 = false ∧ bit (c.patch 1#32 0#32).known 0 = true := by
  have h1 : bit 1#32 0 = true := by decide
  simp [Cell.patch, bit_merge, h1]

theorem masterReset_mailbox (i : Fin 3) (s : State) :
    (masterReset s).mailbox i = { s.mailbox i with tir := (s.mailbox i).tir.patch 1#32 0#32 } := by
  show (clearTxrq 0 (clearTxrq 1 (clearTxrq 2 s))).mailbox i = _
  simp only [clearTxrq_mailbox]
  have : i = 0 ∨ i = 1 ∨ i = 2 := by omega
  rcases this with rfl | rfl | rfl <;> simp

/-- The master reset as one update (R311). -/
theorem masterReset_eq (s : State) : masterReset s = { s with
    mcr := 0x00010002#32, msr := 0x00000C02#32, tsr := 0x1C000000#32, ier := 0#32, esr := 0#32, btr := 0x01230000#32
    fifos := Vector.replicate 2 Fifo.reset, txOrder := [], mailboxes := (masterReset s).mailboxes } := rfl

@[simp] theorem masterReset_tsr (s : State) : (masterReset s).tsr = 0x1C000000#32 := by rw [masterReset_eq]
@[simp] theorem masterReset_mcr (s : State) : (masterReset s).mcr = 0x00010002#32 := by rw [masterReset_eq]
@[simp] theorem masterReset_msr (s : State) : (masterReset s).msr = 0x00000C02#32 := by rw [masterReset_eq]
@[simp] theorem masterReset_ier (s : State) : (masterReset s).ier = 0#32 := by rw [masterReset_eq]
@[simp] theorem masterReset_esr (s : State) : (masterReset s).esr = 0#32 := by rw [masterReset_eq]
@[simp] theorem masterReset_btr (s : State) : (masterReset s).btr = 0x01230000#32 := by rw [masterReset_eq]
@[simp] theorem masterReset_txOrder (s : State) : (masterReset s).txOrder = [] := by rw [masterReset_eq]
@[simp] theorem masterReset_cfg (s : State) : (masterReset s).cfg = s.cfg := by rw [masterReset_eq]
@[simp] theorem masterReset_fmr (s : State) : (masterReset s).fmr = s.fmr := by rw [masterReset_eq]
@[simp] theorem masterReset_fm1r (s : State) : (masterReset s).fm1r = s.fm1r := by rw [masterReset_eq]
@[simp] theorem masterReset_fs1r (s : State) : (masterReset s).fs1r = s.fs1r := by rw [masterReset_eq]
@[simp] theorem masterReset_ffa1r (s : State) : (masterReset s).ffa1r = s.ffa1r := by rw [masterReset_eq]
@[simp] theorem masterReset_fa1r (s : State) : (masterReset s).fa1r = s.fa1r := by rw [masterReset_eq]
@[simp] theorem masterReset_banks (s : State) : (masterReset s).banks = s.banks := by rw [masterReset_eq]

theorem masterReset_bank (s : State) (b : Fin 28) : (masterReset s).bank b = s.bank b := by rw [masterReset_eq]; rfl

theorem masterReset_bankMask (s : State) : (masterReset s).bankMask = s.bankMask := by rw [masterReset_eq]; rfl

theorem masterReset_queue (s : State) (f : Fin 2) : (masterReset s).queue f = [] := by
  show ((Vector.replicate 2 Fifo.reset)[f]).queue = []
  simp [Fifo.reset]

theorem masterReset_tme (s : State) (i : Fin 3) : (masterReset s).tme i = true := by
  have h : ∀ i : Fin 3, tmeOf 0x1C000000#32 i = true := by decide
  exact h i

theorem masterReset_abrq (s : State) (i : Fin 3) : (masterReset s).abrq i = false := by
  have h : ∀ i : Fin 3, bit 0x1C000000#32 (8 * i.val + 7) = false := by decide
  exact h i

theorem masterReset_consistent {s : State} (k : s.Consistent) : (masterReset s).Consistent where
  mailboxFlags i := by
    rw [masterReset_mailbox, masterReset_tme]
    exact ⟨(patch_txrq _).2, (patch_txrq _).1⟩
  queuesFit f := by
    rw [masterReset_queue]
    exact Nat.zero_le _
  oneMode := by
    unfold State.OneMode State.inak State.slak
    rw [masterReset_msr]
    decide
  abortsPending i h := by
    rw [masterReset_abrq] at h
    exact Bool.noConfusion h
  orderPending := by
    unfold State.OrderPending
    refine ⟨List.nodup_nil, fun i => ?_⟩
    rw [masterReset_tme, masterReset_txOrder]
    simp
  reservedClear := by
    obtain ⟨-, -, -, -, -, -, rest⟩ := k.reservedClear
    unfold State.ReservedClear
    rw [masterReset_mcr, masterReset_msr, masterReset_tsr, masterReset_ier, masterReset_esr, masterReset_btr,
      masterReset_fmr, masterReset_fm1r, masterReset_fs1r, masterReset_ffa1r, masterReset_fa1r, masterReset_bankMask]
    exact ⟨by decide, by decide, by decide, by decide, by decide, by decide, rest⟩
  cellsCanonical := by
    refine ⟨fun i => ?_, fun b => ?_, fun f e he => ?_⟩
    · rw [masterReset_mailbox]
      exact ⟨Cell.patch_canonical (k.cellsCanonical.1 i).1 _ _, (k.cellsCanonical.1 i).2⟩
    · rw [masterReset_bank]
      exact k.cellsCanonical.2.1 b
    · rw [masterReset_queue] at he
      exact absurd he (by simp)
  mailboxReserved i := by
    rw [masterReset_mailbox]
    exact k.mailboxReserved i

/-! ### TSR writes -/

/-- A write to TSR clears result bits and sets abort requests, and touches no other bit. -/
theorem tsr_write_bit (v : Word) (s : State) (j : Nat) :
    bit (writeReg .tsr v s).tsr j =
      ((bit s.tsr j && !bit (tsrCleared v) j) || bit (tsrSet v s) j) := by
  by_cases hj : j < 32
  · simp [writeReg, hj]
  · simp [writeReg, bit_of_ge _ (Nat.le_of_not_lt hj)]

theorem bit_ite (c : Bool) (m : Word) (j : Nat) : bit (if c = true then m else 0#32) j = (c && bit m j) := by
  cases c <;> simp

theorem tsrCleared_bit (v : Word) (j : Nat) : bit (tsrCleared v) j =
    ((bit v 0 && bit 0x0000000F#32 j) || (bit v 8 && bit 0x00000F00#32 j) || (bit v 16 && bit 0x000F0000#32 j)) := by
  unfold tsrCleared
  rw [bit_or, bit_or, bit_ite, bit_ite, bit_ite]

theorem tsrSet_bit (v : Word) (s : State) (j : Nat) : bit (tsrSet v s) j =
    (((bit v 7 && !s.tme 0) && bit 0x00000080#32 j) || ((bit v 15 && !s.tme 1) && bit 0x00008000#32 j) ||
      ((bit v 23 && !s.tme 2) && bit 0x00800000#32 j)) := by
  unfold tsrSet
  rw [bit_or, bit_or, bit_ite, bit_ite, bit_ite]

theorem tsr_write_tme (v : Word) (s : State) (i : Fin 3) : (writeReg .tsr v s).tme i = s.tme i := by
  show bit (writeReg .tsr v s).tsr (26 + i.val) = bit s.tsr (26 + i.val)
  rw [tsr_write_bit, tsrCleared_bit, tsrSet_bit]
  have h : ∀ i : Fin 3, bit 0x0000000F#32 (26 + i.val) = false ∧ bit 0x00000F00#32 (26 + i.val) = false ∧
    bit 0x000F0000#32 (26 + i.val) = false ∧ bit 0x00000080#32 (26 + i.val) = false ∧
    bit 0x00008000#32 (26 + i.val) = false ∧ bit 0x00800000#32 (26 + i.val) = false := by decide
  obtain ⟨a, b, c, d, e, f⟩ := h i
  simp [a, b, c, d, e, f]

/-- A write of TSR requests an abort of a pending mailbox, and never takes a request back (R94). -/
theorem tsr_write_abrq (v : Word) (s : State) (i : Fin 3) :
    (writeReg .tsr v s).abrq i = (s.abrq i || (bit v (8 * i.val + 7) && !s.tme i)) := by
  show bit (writeReg .tsr v s).tsr (8 * i.val + 7) = (bit s.tsr (8 * i.val + 7) || _)
  rw [tsr_write_bit, tsrCleared_bit, tsrSet_bit]
  have h : ∀ i : Fin 3, bit 0x0000000F#32 (8 * i.val + 7) = false ∧ bit 0x00000F00#32 (8 * i.val + 7) = false ∧
    bit 0x000F0000#32 (8 * i.val + 7) = false ∧ bit 0x00000080#32 (8 * i.val + 7) = decide (i = 0) ∧
    bit 0x00008000#32 (8 * i.val + 7) = decide (i = 1) ∧ bit 0x00800000#32 (8 * i.val + 7) = decide (i = 2) := by decide
  obtain ⟨a, b, c, d, e, f⟩ := h i
  rw [a, b, c, d, e, f]
  have : i = 0 ∨ i = 1 ∨ i = 2 := by omega
  rcases this with rfl | rfl | rfl <;> simp

theorem tsr_write_consistent {s : State} (k : s.Consistent) (v : Word) : (writeReg .tsr v s).Consistent where
  mailboxFlags i := by rw [tsr_write_tme]; exact k.mailboxFlags i
  queuesFit := k.queuesFit
  oneMode := k.oneMode
  abortsPending i h := by
    rw [tsr_write_tme]
    rw [tsr_write_abrq] at h
    by_cases ha : s.abrq i = true
    · exact k.abortsPending i ha
    · rw [Bool.not_eq_true] at ha
      simp [ha] at h
      exact h.2
  orderPending := by
    refine ⟨k.orderPending.1, fun i => ?_⟩
    rw [tsr_write_tme]
    exact k.orderPending.2 i
  reservedClear := by
    obtain ⟨a, b, c, d⟩ := k.reservedClear
    refine ⟨a, b, ?_, d⟩
    rw [and_not_eq_zero] at *
    intro j hj
    rw [tsr_write_bit, tsrSet_bit] at hj
    by_cases hl : j < 32
    · have hm : ∀ j < 32, bit 0x00000080#32 j = true ∨ bit 0x00008000#32 j = true ∨ bit 0x00800000#32 j = true →
          bit tsrMask j = true := by decide
      rcases Bool.eq_false_or_eq_true (bit s.tsr j) with hs | hs
      · exact c j hs
      · refine hm j hl ?_
        rw [hs, Bool.false_and, Bool.false_or] at hj
        simp only [Bool.or_eq_true, Bool.and_eq_true] at hj
        tauto
    · simp only [bit_of_ge _ (Nat.le_of_not_lt hl), Bool.and_false, Bool.false_and, Bool.or_self] at hj
      exact Bool.noConfusion hj
  cellsCanonical := k.cellsCanonical
  mailboxReserved := k.mailboxReserved

/-! ### Every write, every read -/

theorem writeReg_consistent {s : State} (k : s.Consistent) (r : Reg) (v : Word) : (writeReg r v s).Consistent := by
  have res := k.reservedClear
  have can := k.cellsCanonical
  cases r with
  | mcr =>
    show (writeMcr v s).Consistent
    unfold writeMcr
    split
    · exact masterReset_consistent k
    · exact { k with reservedClear := ⟨merge_within res.1 (by decide), res.2⟩ }
  | msr =>
    have keep : ∀ j, bit (s.msr &&& ~~~(v &&& 0x0000001C#32)) j = true → bit s.msr j = true := by
      intro j h
      simp at h
      exact h.1
    exact { k with
      oneMode := fun h => k.oneMode ⟨keep _ h.1, keep _ h.2⟩
      reservedClear := by
        refine ⟨res.1, ?_, res.2.2⟩
        have := res.2.1
        rw [and_not_eq_zero] at *
        exact fun j hj => this j (keep j hj) }
  | tsr => exact tsr_write_consistent k v
  | rfr f =>
    show (writeRfr f v s).Consistent
    unfold writeRfr
    have base : (s.setFifo f { s.fifo f with
        full := (s.fifo f).full && !bit v 3, fovr := (s.fifo f).fovr && !bit v 4 }).Consistent :=
      setFifo_consistent k f _ (k.queuesFit f) (can.2.2 f)
    split
    · exact release_consistent base f
    · exact base
  | ier => exact { k with reservedClear := ⟨res.1, res.2.1, res.2.2.1, merge_within res.2.2.2.1 (by decide), res.2.2.2.2⟩ }
  | esr =>
    exact { k with
      reservedClear := ⟨res.1, res.2.1, res.2.2.1, res.2.2.2.1, merge_within res.2.2.2.2.1 (by decide), res.2.2.2.2.2⟩ }
  | btr =>
    simp only [writeReg]
    split
    · exact { k with
        reservedClear := ⟨res.1, res.2.1, res.2.2.1, res.2.2.2.1, res.2.2.2.2.1,
          merge_within res.2.2.2.2.2.1 (by decide), res.2.2.2.2.2.2⟩ }
    · exact k
  | tir i => exact writeTir_consistent k i v
  | tdtr i =>
    show (if s.tme i then s.setMailbox i _ else s).Consistent
    split
    · exact setMailbox_consistent k i _ rfl (k.mailboxFlags i).1
        ⟨(can.1 i).1, Cell.patch_canonical (can.1 i).2.1 _ _, (can.1 i).2.2⟩
        (Cell.patch_reservedZero (k.mailboxReserved i) (by decide) v)
    · exact k
  | tdlr i =>
    show (if s.tme i then s.setMailbox i _ else s).Consistent
    split
    · exact setMailbox_consistent k i _ rfl (k.mailboxFlags i).1
        ⟨(can.1 i).1, (can.1 i).2.1, Cell.of_canonical v, (can.1 i).2.2.2⟩ (k.mailboxReserved i)
    · exact k
  | tdhr i =>
    show (if s.tme i then s.setMailbox i _ else s).Consistent
    split
    · exact setMailbox_consistent k i _ rfl (k.mailboxFlags i).1
        ⟨(can.1 i).1, (can.1 i).2.1, (can.1 i).2.2.1, Cell.of_canonical v⟩ (k.mailboxReserved i)
    · exact k
  | rir _ => exact k
  | rdtr _ => exact k
  | rdlr _ => exact k
  | rdhr _ => exact k
  | fmr =>
    have : merge s.fmr v 0x00000001#32 &&& ~~~1#32 = 0x00000E00#32 := by
      rw [← res.2.2.2.2.2.2.1]
      refine word_ext fun j hj => ?_
      simp only [bit_and, bit_not, bit_merge]
      cases bit 0x00000001#32 j <;> simp
    exact { k with
      reservedClear := ⟨res.1, res.2.1, res.2.2.1, res.2.2.2.1, res.2.2.2.2.1, res.2.2.2.2.2.1, this, res.2.2.2.2.2.2.2⟩ }
  | fm1r =>
    simp only [writeReg]
    split
    · obtain ⟨h1, h2, h3, h4, h5, h6, h7, h8, h9, h10, h11⟩ := res
      exact { k with
        reservedClear := ⟨h1, h2, h3, h4, h5, h6, h7, merge_within h8 (and_not_eq_zero.2 fun _ h => h), h9, h10, h11⟩ }
    · exact k
  | fs1r =>
    simp only [writeReg]
    split
    · obtain ⟨h1, h2, h3, h4, h5, h6, h7, h8, h9, h10, h11⟩ := res
      exact { k with
        reservedClear := ⟨h1, h2, h3, h4, h5, h6, h7, h8, merge_within h9 (and_not_eq_zero.2 fun _ h => h), h10, h11⟩ }
    · exact k
  | ffa1r =>
    simp only [writeReg]
    split
    · obtain ⟨h1, h2, h3, h4, h5, h6, h7, h8, h9, h10, h11⟩ := res
      exact { k with
        reservedClear := ⟨h1, h2, h3, h4, h5, h6, h7, h8, h9, merge_within h10 (and_not_eq_zero.2 fun _ h => h), h11⟩ }
    · exact k
  | fa1r =>
    obtain ⟨h1, h2, h3, h4, h5, h6, h7, h8, h9, h10, h11⟩ := res
    exact { k with
      reservedClear := ⟨h1, h2, h3, h4, h5, h6, h7, h8, h9, h10, merge_within h11 (and_not_eq_zero.2 fun _ h => h)⟩ }
  | fr1 b =>
    simp only [writeReg]
    split
    · exact setBank_consistent k b _ ⟨Cell.of_canonical v, (can.2.1 b).2⟩
    · exact k
  | fr2 b =>
    simp only [writeReg]
    split
    · exact setBank_consistent k b _ ⟨(can.2.1 b).1, Cell.of_canonical v⟩
    · exact k

theorem readReg_consistent {s : State} (k : s.Consistent) (r : Reg) : (readReg r s).2.Consistent :=
  (readReg_frame r s).consistent k

theorem modifyReg_consistent {s : State} (k : s.Consistent) (r : Reg) (change : Word → Word) :
    (modifyReg r change s).Consistent := writeReg_consistent (readReg_consistent k r) r _

end Sys2Proof.Machine
end

