-- ==== Sys2Proof/Laws/Events.lean ====
section
/-! SUPPORT. What the environment's operations can do, said once: the matcher and the frame images only draw, an offer
changes one FIFO, a request that ends changes one mailbox; and every event keeps the register file consistent. -/

namespace Sys2Proof.Machine

/-! ### What only draws -/

theorem activeBanks_frame (l : List (Fin 28)) (s : State) : DrawnFrom s (activeBanks l s).2 := by
  induction l generalizing s with
  | nil => exact .refl s
  | cons b rest ih =>
    unfold activeBanks
    split
    · exact ((resolve_frame ..).trans (resolve_frame ..)).trans (ih _)
    · exact ih s

theorem chooseFifo_frame (c : List Hit) (s : State) : DrawnFrom s (chooseFifo c s).2 := by
  unfold chooseFifo
  split
  · exact .refl s
  · split
    · exact .refl s
    · exact drawIn_frame ..

/-- Selecting a FIFO for a frame changes nothing but what is left to draw. -/
theorem accept_frame (f : Frame) (s : State) : DrawnFrom s (accept f s).2 := by
  have h := activeBanks_frame (List.finRange 28) s
  unfold accept
  simp only
  split
  · exact h
  · split <;> exact h.trans (chooseFifo_frame ..)

theorem frameOfMailbox_frame (i : Fin 3) (s : State) : DrawnFrom s (frameOfMailbox i s).2 :=
  (((resolve_frame ..).trans (resolve_frame ..)).trans (resolve_frame ..)).trans (resolve_frame ..)

/-! ### Offers -/

theorem storedData_canonical (f : Frame) : (storedData f).1.Canonical ∧ (storedData f).2.Canonical :=
  ⟨masked_canonical .., masked_canonical ..⟩

/-- A store is the update of one FIFO. -/
theorem store_eq (f : Fin 2) (e : Entry) (s : State) : ∃ q, store f e s = s.setFifo f q := by
  unfold store
  simp only
  split
  · exact ⟨_, rfl⟩
  · split <;> exact ⟨_, rfl⟩

/-- An offer draws and updates at most one FIFO. -/
theorem offer_eq (fr : Frame) (t : BitVec 16) (s : State) :
    ∃ u, DrawnFrom s u ∧ (offer fr t s = u ∨ ∃ f q, offer fr t s = u.setFifo f q) := by
  unfold offer
  split
  · exact ⟨s, .refl s, .inl rfl⟩
  · refine ⟨_, accept_frame fr s, ?_⟩
    simp only
    split
    · exact .inl rfl
    · obtain ⟨q, h⟩ := store_eq _ _ _
      exact .inr ⟨_, q, h⟩

theorem store_consistent {s : State} (k : s.Consistent) (f : Fin 2) {e : Entry} (he : e.rdl.Canonical ∧ e.rdh.Canonical) :
    (store f e s).Consistent := by
  unfold store
  simp only
  split
  · next h =>
    refine setFifo_consistent k f _ (by simpa using h) fun x hx => ?_
    rcases List.mem_append.1 hx with hx | hx
    · exact k.cellsCanonical.2.2 f x hx
    · rw [List.mem_singleton.1 hx]; exact he
  · split
    · exact setFifo_consistent k f _ (k.queuesFit f) (k.cellsCanonical.2.2 f)
    · next h _ =>
      refine setFifo_consistent k f _ ?_ fun x hx => ?_
      · have := s.cfg.property.2.2.2.1.1
        have := k.queuesFit f
        simp only [List.length_append, List.length_dropLast, List.length_singleton]
        unfold State.queue at this
        omega
      · rcases List.mem_append.1 hx with hx | hx
        · exact k.cellsCanonical.2.2 f x (List.mem_of_mem_dropLast hx)
        · rw [List.mem_singleton.1 hx]; exact he

theorem offer_consistent {s : State} (k : s.Consistent) (fr : Frame) (t : BitVec 16) : (offer fr t s).Consistent := by
  have h := (accept_frame fr s).consistent k
  unfold offer
  split
  · exact k
  · simp only
    split
    · exact h
    · exact store_consistent h _ (storedData_canonical fr)

/-! ### The end of a request -/

/-- Each bit of TSR after a request of mailbox `i` ends. -/
theorem requestEnded_bit (i : Fin 3) (a b c : Bool) (s : State) (j : Nat) :
    bit (requestEnded i a b c s).tsr j =
      if j = 8 * i.val + 3 then c else if j = 8 * i.val + 2 then b else if j = 8 * i.val + 1 then a
      else if j = 8 * i.val + 7 then false else if j = 8 * i.val then true else if j = 26 + i.val then true
      else bit s.tsr j := by
  simp only [requestEnded, bit_withBit, show 8 * i.val + 3 < 32 by omega, show 8 * i.val + 2 < 32 by omega,
    show 8 * i.val + 1 < 32 by omega, show 8 * i.val + 7 < 32 by omega, show 8 * i.val < 32 by omega,
    show 26 + i.val < 32 by omega, and_true]

theorem requestEnded_tme (i j : Fin 3) (a b c : Bool) (s : State) :
    (requestEnded i a b c s).tme j = if j = i then true else s.tme j := by
  show bit _ (26 + j.val) = if j = i then true else bit _ (26 + j.val)
  rw [requestEnded_bit]
  by_cases h : j = i
  · subst h
    rw [if_pos rfl]
    repeat first | rw [if_neg (by omega)] | rw [if_pos rfl]
  · have : j.val ≠ i.val := fun e => h (Fin.ext e)
    rw [if_neg h]
    repeat rw [if_neg (by omega)]

theorem requestEnded_abrq (i j : Fin 3) (a b c : Bool) (s : State) :
    (requestEnded i a b c s).abrq j = if j = i then false else s.abrq j := by
  show bit _ (8 * j.val + 7) = if j = i then false else bit _ (8 * j.val + 7)
  rw [requestEnded_bit]
  by_cases h : j = i
  · subst h; simp
  · have : j.val ≠ i.val := fun e => h (Fin.ext e)
    rw [if_neg h]
    repeat rw [if_neg (by omega)]

/-- A request that ends keeps the register file consistent. -/
theorem ended_consistent {s : State} (k : s.Consistent) (i : Fin 3) (a b c : Bool) :
    (requestEnded i a b c (clearTxrq i s)).Consistent where
  mailboxFlags j := by
    rw [requestEnded_tme]
    show bit ((clearTxrq i s).mailbox j).tir.known 0 = true ∧ bit ((clearTxrq i s).mailbox j).tir.val 0 = _
    rw [clearTxrq_mailbox]
    by_cases h : j = i
    · rw [if_pos h, if_pos h]
      exact ⟨(patch_txrq _).2, (patch_txrq _).1⟩
    · rw [if_neg h, if_neg h]
      exact k.mailboxFlags j
  queuesFit := k.queuesFit
  oneMode := k.oneMode
  abortsPending j h := by
    rw [requestEnded_abrq] at h
    rw [requestEnded_tme]
    by_cases e : j = i
    · rw [if_pos e] at h; exact Bool.noConfusion h
    · rw [if_neg e] at h; rw [if_neg e]; exact k.abortsPending j h
  orderPending := by
    refine ⟨k.orderPending.1.erase i, fun j => ?_⟩
    rw [requestEnded_tme]
    show j ∈ s.txOrder.erase i ↔ (if j = i then true else s.tme j) = false
    rw [k.orderPending.1.mem_erase_iff]
    by_cases e : j = i
    · simp [e]
    · rw [if_neg e, ← k.orderPending.2 j]
      exact ⟨fun h => h.2, fun h => ⟨e, h⟩⟩
  reservedClear := by
    obtain ⟨h1, h2, h3, h4⟩ := k.reservedClear
    refine ⟨h1, h2, ?_, h4⟩
    have m : ∀ i : Fin 3, bit tsrMask (26 + i.val) = true ∧ bit tsrMask (8 * i.val) = true ∧
      bit tsrMask (8 * i.val + 1) = true ∧ bit tsrMask (8 * i.val + 2) = true ∧ bit tsrMask (8 * i.val + 3) = true := by
      decide
    obtain ⟨m0, m1, m2, m3, m4⟩ := m i
    exact withBit_within (withBit_within (withBit_within (withBit_within (withBit_within (withBit_within h3
      fun _ => m0) fun _ => m1) fun h => Bool.noConfusion h) fun _ => m2) fun _ => m3) fun _ => m4
  cellsCanonical := by
    refine ⟨fun j => ?_, k.cellsCanonical.2.1, k.cellsCanonical.2.2⟩
    show ((clearTxrq i s).mailbox j).tir.Canonical ∧ ((clearTxrq i s).mailbox j).tdtr.Canonical ∧
      ((clearTxrq i s).mailbox j).tdlr.Canonical ∧ ((clearTxrq i s).mailbox j).tdhr.Canonical
    rw [clearTxrq_mailbox]
    by_cases h : j = i
    · rw [if_pos h]
      exact ⟨Cell.patch_canonical (k.cellsCanonical.1 i).1 _ _, (k.cellsCanonical.1 i).2⟩
    · rw [if_neg h]
      exact k.cellsCanonical.1 j
  mailboxReserved j := by
    show ((clearTxrq i s).mailbox j).tdtr.ReservedZero
    rw [clearTxrq_mailbox]
    split
    · exact k.mailboxReserved i
    · exact k.mailboxReserved j

theorem captureTime_consistent {s : State} (k : s.Consistent) : (captureTime s).Consistent :=
  ((draw_frame s).consistent k).congr rfl rfl rfl rfl rfl rfl rfl rfl rfl rfl rfl rfl rfl rfl rfl rfl

theorem drawLoss_frame (ok : Bool) (s : State) : DrawnFrom s (drawLoss ok s).2 := by
  unfold drawLoss
  split
  · exact .refl s
  · exact drawIn_frame ..

/-- Success leaves both result flags 0; failure sets exactly one. -/
theorem drawLoss_flags (ok : Bool) (s : State) :
    (ok = true → (drawLoss ok s).1 = (false, false)) ∧ (ok = false → (drawLoss ok s).1.1 = !(drawLoss ok s).1.2) := by
  refine ⟨fun h => by simp [drawLoss, h], fun h => ?_⟩
  have m := drawIn_mem (true, false) [(false, true)] s
  simp only [drawLoss, h, Bool.false_eq_true, if_false]
  simp only [List.mem_cons, List.not_mem_nil, or_false] at m
  rcases m with m | m <;> rw [m] <;> rfl

theorem stampTime_consistent {s : State} (k : s.Consistent) (i : Fin 3) : (stampTime i s).Consistent :=
  setMailbox_consistent k i _ rfl (k.mailboxFlags i).1
    ⟨(k.cellsCanonical.1 i).1, Cell.patch_canonical (k.cellsCanonical.1 i).2.1 _ _, (k.cellsCanonical.1 i).2.2⟩
    (Cell.patch_reservedZero (k.mailboxReserved i) (by decide) _)

theorem transmitted_consistent {s : State} (k : s.Consistent) (i : Fin 3) (ok : Bool) :
    (transmitted i ok s).2.Consistent :=
  stampTime_consistent (ended_consistent ((drawLoss_frame ..).consistent
    ((frameOfMailbox_frame ..).consistent (captureTime_consistent k))) i ok _ _) i

theorem txDone_consistent {s : State} (k : s.Consistent) (i : Fin 3) (ok : Bool) : (txDone i ok s).Consistent := by
  have kt := transmitted_consistent k i ok
  unfold txDone
  simp only
  split
  · exact offer_consistent kt _ _
  · exact kt

theorem rxFrame_consistent {s : State} (k : s.Consistent) (f : Frame) : (rxFrame f s).Consistent :=
  offer_consistent (captureTime_consistent k) f _

theorem txAbort_consistent {s : State} (k : s.Consistent) (i : Fin 3) : (txAbort i s).Consistent :=
  ended_consistent k i false false false

/-- Status drift changes the free-running fields of MSR, TSR and ESR, to any values, and nothing else (R250). -/
theorem statusDrift_eq (s : State) : ∃ a b c tape n, statusDrift s = { s with
    drawTape := tape, drawCount := n, msr := merge s.msr a 0x00000F04#32, tsr := merge s.tsr b 0xE0000000#32,
    esr := merge s.esr c 0xFFFF0077#32 } := by
  obtain ⟨tape, n, h⟩ := ((draw_frame s).trans (draw_frame _)).trans (draw_frame _)
  refine ⟨(draw s).1, (draw (draw s).2).1, (draw (draw (draw s).2).2).1, tape, n, ?_⟩
  simp only [statusDrift, h]

theorem statusDrift_consistent {s : State} (k : s.Consistent) : (statusDrift s).Consistent := by
  obtain ⟨a, b, c, tape, n, e⟩ := statusDrift_eq s
  rw [e]
  have tme : ∀ i : Fin 3, tmeOf (merge s.tsr b 0xE0000000#32) i = s.tme i := by
    intro i
    have : ∀ i : Fin 3, bit 0xE0000000#32 (26 + i.val) = false := by decide
    simp [tmeOf, State.tme, bit_merge, this i]
  have abrq : ∀ i : Fin 3, bit (merge s.tsr b 0xE0000000#32) (8 * i.val + 7) = s.abrq i := by
    intro i
    have : ∀ i : Fin 3, bit 0xE0000000#32 (8 * i.val + 7) = false := by decide
    simp [State.abrq, bit_merge, this i]
  have low : ∀ j, j < 2 → bit (merge s.msr a 0x00000F04#32) j = bit s.msr j := by
    intro j hj
    have : bit 0x00000F04#32 j = false := by
      rcases (show j = 0 ∨ j = 1 by omega) with rfl | rfl <;> decide
    simp [bit_merge, this]
  obtain ⟨r1, r2, r3, r4, r5, r6⟩ := k.reservedClear
  refine ⟨fun i => ⟨(k.mailboxFlags i).1, ?_⟩, k.queuesFit, fun h => k.oneMode ⟨?_, ?_⟩, fun i h => ?_,
    ⟨k.orderPending.1, fun i => ?_⟩,
    ⟨r1, merge_within r2 (by decide), merge_within r3 (by decide), r4, merge_within r5 (by decide), r6⟩,
    k.cellsCanonical, k.mailboxReserved⟩
  · exact (k.mailboxFlags i).2.trans (congrArg _ (tme i).symm)
  · exact (low 0 (by decide)).symm.trans h.1
  · exact (low 1 (by decide)).symm.trans h.2
  · exact (tme i).trans (k.abortsPending i ((abrq i).symm.trans h))
  · show i ∈ s.txOrder ↔ tmeOf (merge s.tsr b 0xE0000000#32) i = false
    rw [tme i]
    exact k.orderPending.2 i

/-! ### Every event -/

/-- A change of MSR or MCR alone that respects the modes and the reserved bits keeps everything. -/
theorem control_consistent {s : State} (k : s.Consistent) (mcr msr : Word) (h1 : mcr &&& ~~~0x000100FF#32 = 0)
    (h2 : msr &&& ~~~0x00000F1F#32 = 0) (h3 : ¬(bit msr 0 = true ∧ bit msr 1 = true)) :
    ({ s with mcr := mcr, msr := msr } : State).Consistent :=
  ⟨k.mailboxFlags, k.queuesFit, h3, k.abortsPending, k.orderPending,
    ⟨h1, h2, k.reservedClear.2.2⟩, k.cellsCanonical, k.mailboxReserved⟩

/-- Every event keeps the register file consistent. -/
theorem effect_consistent {s : State} (k : s.Consistent) (e : EnvEvent) : (effect e s).Consistent := by
  have h1 := k.reservedClear.1
  have h2 := k.reservedClear.2.1
  have h3 : ¬(bit s.msr 0 = true ∧ bit s.msr 1 = true) := k.oneMode
  cases e with
  | sleepExit =>
    exact control_consistent k _ _ h1 (withBit_within h2 (by decide)) (by simp [bit_withBit])
  | initEnter =>
    exact control_consistent k _ _ h1 (withBit_within (withBit_within h2 (by decide)) (by decide)) (by simp [bit_withBit])
  | initExit =>
    exact control_consistent k _ _ h1 (withBit_within h2 (by decide)) (by simp [bit_withBit])
  | sleepEnter =>
    exact control_consistent k _ _ h1
      (withBit_within (withBit_within (withBit_within h2 (by decide)) (by decide)) (by decide)) (by simp [bit_withBit])
  | wakeup =>
    refine control_consistent k _ _ ?_ (withBit_within h2 (by decide)) (by simpa [bit_withBit] using h3)
    split
    · exact withBit_within h1 (by decide)
    · exact h1
  | txDone i ok => exact txDone_consistent k i ok
  | txAbort i => exact txAbort_consistent k i
  | rxFrame f => exact rxFrame_consistent k f
  | statusDrift => exact statusDrift_consistent k
  | none => exact k

theorem fire_consistent {s : State} (k : s.Consistent) (e : EnvEvent) : (fire e s).Consistent := by
  unfold fire
  split
  · exact effect_consistent k e
  · exact k

end Sys2Proof.Machine
end

