-- ==== Sys2Proof/Laws/Commands.lean ====
section
/-! SUPPORT. What one micro-operation of each command can do, said once: its frame, and that it keeps the register file
consistent. -/

namespace Sys2Proof.Machine

/-! ### INIT -/

/-- What one micro-operation of INIT may change. -/
def InitFrame (s t : State) : Prop :=
  t = { s with mcr := t.mcr, btr := t.btr, res0 := t.res0, seq := t.seq } ∧
    t.mcr &&& 0xFFFFFF00#32 = s.mcr &&& 0xFFFFFF00#32 ∧ (s.inak = false → t.btr = s.btr)

theorem InitFrame.trans {s t u : State} (h : InitFrame s t) (k : InitFrame t u) : InitFrame s u := by
  refine ⟨?_, k.2.1.trans h.2.1, fun hi => ?_⟩
  · rw [k.1, h.1]
  · have : t.inak = false := by rw [h.1]; exact hi
    rw [k.2.2 this, h.2.2 hi]

theorem high_mcr (old v : Word) (h : v &&& 0xFFFFFF00#32 = (old &&& 0x000100FF#32) &&& 0xFFFFFF00#32) :
    merge old v 0x000100FF#32 &&& 0xFFFFFF00#32 = old &&& 0xFFFFFF00#32 := by
  refine word_ext fun j hj => ?_
  have := congrArg (fun w => bit w j) h
  simp only [bit_and] at this
  simp only [bit_and, bit_merge]
  cases h1 : bit 0x000100FF#32 j <;> cases h2 : bit 0xFFFFFF00#32 j <;> simp_all

theorem high_withBit (old : Word) {i : Nat} (hi : i < 8) (b : Bool) :
    withBit (old &&& 0x000100FF#32) i b &&& 0xFFFFFF00#32 = (old &&& 0x000100FF#32) &&& 0xFFFFFF00#32 := by
  refine word_ext fun j hj => ?_
  simp only [bit_and, bit_withBit]
  split
  · next e =>
    have all : ∀ i < 8, bit 0xFFFFFF00#32 i = false := by decide
    have : bit 0xFFFFFF00#32 j = false := by rw [e.1]; exact all i hi
    simp [this]
  · rfl

theorem modify_mcr_frame (s : State) (change : Word → Word)
    (h : ∀ old : Word, change (old &&& 0x000100FF#32) &&& 0xFFFFFF00#32 = (old &&& 0x000100FF#32) &&& 0xFFFFFF00#32) :
    InitFrame s (modifyReg .mcr change s) := by
  have h15 : bit (change (s.mcr &&& 0x000100FF#32)) 15 = false := by
    have := congrArg (fun w => bit w 15) (h s.mcr)
    simpa [show bit 0xFFFFFF00#32 15 = true by decide, show bit 0x000100FF#32 15 = false by decide] using this
  have e : modifyReg .mcr change s =
      { s with mcr := merge s.mcr (change (s.mcr &&& 0x000100FF#32)) 0x000100FF#32 } :=
    modifyReg_mcr s change h15
  rw [e]
  exact ⟨rfl, high_mcr _ _ (h s.mcr), fun _ => rfl⟩

theorem pollMsr_cases (seen : Word → Bool) (next : InFlight) (timeout : Status) (p : InFlight) (s : State) :
    pollMsr seen next timeout p s =
      if seen (s.msr &&& 0x00000F1F#32) then goto next s
      else if s.cfg.val.initPollLimit ≤ p.polls + 1 then raise timeout s
      else goto { p with polls := p.polls + 1 } s := by
  simp [pollMsr, readReg, view]

theorem withFlags_high (flags : FeatureFlags) (v : Word) : withFlags flags v &&& 0xFFFFFF00#32 = v &&& 0xFFFFFF00#32 := by
  refine word_ext fun j hj => ?_
  simp only [withFlags, bit_and, bit_merge]
  have : bit 0x000000FC#32 j = true → bit 0xFFFFFF00#32 j = false := by revert j; decide
  cases h : bit 0x000000FC#32 j <;> simp_all

theorem initMicro_frame (mode : OpMode) (flags : FeatureFlags) (baud : Nat) (p : InFlight) (s : State) :
    InitFrame s (initMicro mode flags baud p s) := by
  have triv : ∀ q, InitFrame s (goto q s) := fun q => ⟨rfl, rfl, fun _ => rfl⟩
  have trivR : ∀ q, InitFrame s (raise q s) := fun q => ⟨rfl, rfl, fun _ => rfl⟩
  have hg : ∀ {t : State} q, InitFrame s t → InitFrame s (goto q t) := fun q h => h.trans ⟨rfl, rfl, fun _ => rfl⟩
  unfold initMicro
  split
  · exact ⟨rfl, rfl, fun _ => rfl⟩
  · split
    · exact hg _ (modify_mcr_frame s _ fun _ => high_withBit _ (by decide) _)
    · rw [pollMsr_cases]; split
      · exact triv _
      · split
        · exact trivR _
        · exact triv _
    · exact hg _ (modify_mcr_frame s _ fun _ => high_withBit _ (by decide) _)
    · rw [pollMsr_cases]; split
      · exact triv _
      · split
        · exact trivR _
        · exact triv _
    · exact hg _ (modify_mcr_frame s _ fun _ => withFlags_high _ _)
    · refine InitFrame.trans (t := writeReg .btr (btrWord mode _) s) ?_ ⟨rfl, rfl, fun _ => rfl⟩
      unfold writeReg
      simp only
      split
      · next h => exact ⟨rfl, rfl, fun h' => absurd (h'.symm.trans h) (by decide)⟩
      · exact ⟨rfl, rfl, fun _ => rfl⟩


/-! ### CFGF -/

/-- What CFGF may change, at any of its places. -/
def CfgfFrame (bank : Nat) (s t : State) : Prop :=
  t = { s with fmr := t.fmr, fs1r := t.fs1r, fm1r := t.fm1r, ffa1r := t.ffa1r, fa1r := t.fa1r, banks := t.banks,
               res0 := t.res0, seq := t.seq } ∧
  t.fmr &&& ~~~1#32 = s.fmr &&& ~~~1#32 ∧
  (∀ j, j ≠ bank → bit t.fs1r j = bit s.fs1r j ∧ bit t.fm1r j = bit s.fm1r j ∧ bit t.ffa1r j = bit s.ffa1r j ∧
    bit t.fa1r j = bit s.fa1r j) ∧
  (∀ c : Fin 28, c.val ≠ bank → t.bank c = s.bank c)

theorem CfgfFrame.trans {bank : Nat} {s t u : State} (h : CfgfFrame bank s t) (k : CfgfFrame bank t u) :
    CfgfFrame bank s u := by
  refine ⟨?_, k.2.1.trans h.2.1, fun j hj => ?_, fun c hc => (k.2.2.2 c hc).trans (h.2.2.2 c hc)⟩
  · rw [k.1, h.1]
  · obtain ⟨a, b, c, d⟩ := h.2.2.1 j hj
    obtain ⟨a', b', c', d'⟩ := k.2.2.1 j hj
    exact ⟨a'.trans a, b'.trans b, c'.trans c, d'.trans d⟩

theorem merge_other (old m : Word) (v : Bool) {i j : Nat} (h : j ≠ i) :
    bit (merge old (withBit (old &&& m) i v) m) j = bit old j := by
  rw [bit_merge, bit_withBit_of_ne _ _ h, bit_and]
  cases bit m j <;> simp

theorem cfgf_modify_frame (r : Reg) (hr : r = .fs1r ∨ r = .fm1r ∨ r = .ffa1r ∨ r = .fa1r) (bank : Nat) (v : Bool) (s : State) :
    CfgfFrame bank s (modifyReg r (fun w => withBit w bank v) s) := by
  rcases hr with rfl | rfl | rfl | rfl
  all_goals
    simp only [modifyReg, readReg, view, writeReg, resolve_of, reduceCtorEq, if_false]
  · split
    · exact ⟨rfl, rfl, fun j hj => ⟨merge_other _ _ _ hj, rfl, rfl, rfl⟩, fun _ _ => rfl⟩
    · exact ⟨rfl, rfl, fun j hj => ⟨rfl, rfl, rfl, rfl⟩, fun _ _ => rfl⟩
  · split
    · exact ⟨rfl, rfl, fun j hj => ⟨rfl, merge_other _ _ _ hj, rfl, rfl⟩, fun _ _ => rfl⟩
    · exact ⟨rfl, rfl, fun j hj => ⟨rfl, rfl, rfl, rfl⟩, fun _ _ => rfl⟩
  · split
    · exact ⟨rfl, rfl, fun j hj => ⟨rfl, rfl, merge_other _ _ _ hj, rfl⟩, fun _ _ => rfl⟩
    · exact ⟨rfl, rfl, fun j hj => ⟨rfl, rfl, rfl, rfl⟩, fun _ _ => rfl⟩
  · exact ⟨rfl, rfl, fun j hj => ⟨rfl, rfl, rfl, merge_other _ _ _ hj⟩, fun _ _ => rfl⟩

theorem withBit_clear (v : Word) (b : Bool) : withBit v 0 b &&& ~~~1#32 = v &&& ~~~1#32 := by
  refine word_ext fun j hj => ?_
  simp only [bit_and, bit_not, bit_withBit]
  split
  · next e => rw [e.1]; simp [show bit 1#32 0 = true by decide]
  · rfl

theorem cfgf_bank_frame (r : Reg) (b : Fin 28) (hr : r = .fr1 b ∨ r = .fr2 b) (v : Word) (s : State) :
    CfgfFrame b.val s (writeReg r v s) := by
  rcases hr with rfl | rfl
  all_goals
    simp only [writeReg]
    split
    · refine ⟨rfl, rfl, fun j hj => ⟨rfl, rfl, rfl, rfl⟩, fun c hc => ?_⟩
      rw [setBank_bank, if_neg fun e => hc (congrArg _ e)]
    · exact ⟨rfl, rfl, fun j hj => ⟨rfl, rfl, rfl, rfl⟩, fun _ _ => rfl⟩

theorem cfgf_fmr_frame (bank : Nat) (v : Bool) (s : State) :
    CfgfFrame bank s (modifyReg .fmr (fun w => withBit w 0 v) s) := by
  rw [modifyReg_fmr]
  exact ⟨rfl, withBit_clear _ _, fun j hj => ⟨rfl, rfl, rfl, rfl⟩, fun _ _ => rfl⟩

theorem cfgfMicro_frame (bank : Nat) (scale : FilterScale) (mode : FilterMode) (fifo : Fin 2) (p : InFlight) (s : State) :
    CfgfFrame bank s (cfgfMicro bank scale mode fifo p s) := by
  have hg : ∀ {t : State} q, CfgfFrame bank s t → CfgfFrame bank s (goto q t) :=
    fun q h => h.trans ⟨rfl, rfl, fun _ _ => ⟨rfl, rfl, rfl, rfl⟩, fun _ _ => rfl⟩
  have hr : ∀ {t : State} q, CfgfFrame bank s t → CfgfFrame bank s (raise q t) :=
    fun q h => h.trans ⟨rfl, rfl, fun _ _ => ⟨rfl, rfl, rfl, rfl⟩, fun _ _ => rfl⟩
  unfold cfgfMicro
  split
  · next h =>
    simp only
    split
    · exact hg _ (cfgf_fmr_frame ..)
    · exact hg _ (cfgf_modify_frame _ (by simp) ..)
    · exact hg _ (cfgf_modify_frame _ (by simp) ..)
    · exact hg _ (cfgf_modify_frame _ (by simp) ..)
    · exact hg _ (cfgf_bank_frame _ ⟨bank, h.2⟩ (by simp) ..)
    · exact hg _ (cfgf_bank_frame _ ⟨bank, h.2⟩ (by simp) ..)
    · exact hg _ (cfgf_modify_frame _ (by simp) ..)
    · exact hg _ (cfgf_modify_frame _ (by simp) ..)
    · exact hr _ (cfgf_fmr_frame ..)
  · exact ⟨rfl, rfl, fun _ _ => ⟨rfl, rfl, rfl, rfl⟩, fun _ _ => rfl⟩

/-! ### TX -/

/-- What TX may change once it keeps to mailbox `m`. -/
def TxFrame (m : Fin 3) (s t : State) : Prop :=
  t = { s with tsr := t.tsr, txOrder := t.txOrder, mailboxes := t.mailboxes, res0 := t.res0, seq := t.seq,
               drawTape := t.drawTape, drawCount := t.drawCount } ∧
  (s.tme m = false → t.tsr = s.tsr ∧ t.mailboxes = s.mailboxes) ∧
  (∀ i, i ≠ m → t.mailbox i = s.mailbox i) ∧ (∀ j, j ≠ 26 + m.val → bit t.tsr j = bit s.tsr j)

theorem TxFrame.refl (m : Fin 3) (s : State) : TxFrame m s s := ⟨rfl, fun _ => ⟨rfl, rfl⟩, fun _ _ => rfl, fun _ _ => rfl⟩

theorem TxFrame.trans {m : Fin 3} {s t u : State} (h : TxFrame m s t) (k : TxFrame m t u) : TxFrame m s u := by
  refine ⟨?_, fun hm => ?_, fun i hi => (k.2.2.1 i hi).trans (h.2.2.1 i hi), fun j hj => (k.2.2.2 j hj).trans (h.2.2.2 j hj)⟩
  · rw [k.1, h.1]
  · obtain ⟨a, b⟩ := h.2.1 hm
    have : t.tme m = false := by unfold State.tme; rw [a]; exact hm
    obtain ⟨c, d⟩ := k.2.1 this
    exact ⟨c.trans a, d.trans b⟩

theorem tx_write_frame (m : Fin 3) (r : Reg) (hr : r = .tdtr m ∨ r = .tdlr m ∨ r = .tdhr m) (v : Word) (s : State) :
    TxFrame m s (writeReg r v s) ∧ (writeReg r v s).txOrder = s.txOrder := by
  have key : ∀ mb, TxFrame m s (if s.tme m = true then s.setMailbox m mb else s) ∧
      (if s.tme m = true then s.setMailbox m mb else s).txOrder = s.txOrder := by
    intro mb
    split
    · next h =>
      refine ⟨⟨rfl, fun h' => absurd (h'.symm.trans h) (by decide), fun i hi => ?_, fun _ _ => rfl⟩, rfl⟩
      rw [setMailbox_mailbox, if_neg hi]
    · exact ⟨⟨rfl, fun _ => ⟨rfl, rfl⟩, fun _ _ => rfl, fun _ _ => rfl⟩, rfl⟩
  rcases hr with rfl | rfl | rfl <;> exact key _

theorem tx_tir_frame (m : Fin 3) (v : Word) (s : State) :
    TxFrame m s (writeTir m v s) ∧ ((writeTir m v s).txOrder = s.txOrder ∨
      (bit v 0 = true ∧ (writeTir m v s).txOrder = s.txOrder ++ [m])) := by
  unfold writeTir
  split
  · next h =>
    have mb : ∀ i, i ≠ m → (s.setMailbox m { s.mailbox m with tir := Cell.of v }).mailbox i = s.mailbox i := by
      intro i hi; rw [setMailbox_mailbox, if_neg hi]
    simp only
    split
    · next hv =>
      refine ⟨⟨rfl, fun h' => absurd (h'.symm.trans h) (by decide), mb, fun j hj => bit_withBit_of_ne _ _ hj⟩, .inr ⟨hv, rfl⟩⟩
    · exact ⟨⟨rfl, fun h' => absurd (h'.symm.trans h) (by decide), mb, fun _ _ => rfl⟩, .inl rfl⟩
  · exact ⟨⟨rfl, fun _ => ⟨rfl, rfl⟩, fun _ _ => rfl, fun _ _ => rfl⟩, .inl rfl⟩

theorem idWord_bit0 (ide rtr : Bool) (id : Word) : bit (idWord ide rtr id) 0 = false := by
  unfold idWord packId
  cases ide <;> simp

theorem DrawnFrom.txFrame {m : Fin 3} {s t : State} (h : DrawnFrom s t) : TxFrame m s t := by
  obtain ⟨_, _, rfl⟩ := h
  exact ⟨rfl, fun _ => ⟨rfl, rfl⟩, fun _ _ => rfl, fun _ _ => rfl⟩

theorem goto_txFrame (m : Fin 3) (p : InFlight) (s : State) : TxFrame m s (goto p s) :=
  ⟨rfl, fun _ => ⟨rfl, rfl⟩, fun _ _ => rfl, fun _ _ => rfl⟩

theorem finish_txFrame (m : Fin 3) (st : Status) (n : Nat) (s : State) : TxFrame m s (finish st n s) :=
  ⟨rfl, fun _ => ⟨rfl, rfl⟩, fun _ _ => rfl, fun _ _ => rfl⟩

theorem DrawnFrom.txOrder {s t : State} (h : DrawnFrom s t) : t.txOrder = s.txOrder := by
  obtain ⟨_, _, rfl⟩ := h; rfl

theorem txClaim_cases (ide : Bool) (dlc : Nat) (p : InFlight) (s : State) :
    ∃ u, DrawnFrom s u ∧ ((∃ st, txClaim ide dlc p s = raise st s ∧ txRejects ide dlc s.arg0 = some st) ∨
     (txRejects ide dlc s.arg0 = none ∧ (∀ i, s.tme i = false) ∧ txClaim ide dlc p s = raise .noMailbox u) ∨
      (txRejects ide dlc s.arg0 = none ∧ ∃ m, s.tme m = true ∧ txClaim ide dlc p s = goto { p with step := 1, m := m } u)) := by
  refine ⟨(readTsr s).2, readTsr_frame _, ?_⟩
  unfold txClaim
  split
  · next st h => exact .inl ⟨st, rfl, h⟩
  · next h =>
    right
    have hr : readReg .tsr s = readTsr s := rfl
    simp only [hr]
    by_cases hall : ∀ i, s.tme i = false
    · left
      have : txMailbox (readTsr s).1 = none := by
        unfold txMailbox
        have e : ∀ i, tmeOf (readTsr s).1 i = false := fun i => (tmeOf_readTsr _ i).trans (hall i)
        simp [e]
      exact ⟨h, hall, by rw [this]⟩
    · right
      have ⟨i, hi⟩ : ∃ i, s.tme i = true := by
        by_contra hc
        exact hall fun i => by
          cases hh : s.tme i
          · rfl
          · exact absurd ⟨i, hh⟩ hc
      have hm : s.tme (drawCode s).1 = true := drawCode_empty s hi
      refine ⟨h, (drawCode s).1, hm, ?_⟩
      have : txMailbox (readTsr s).1 = some (drawCode s).1 := by
        unfold txMailbox
        have e : ∀ i, tmeOf (readTsr s).1 i = s.tme i := fun i => tmeOf_readTsr _ i
        rw [codeOf_readTsr]
        simp only [e, hm, if_true]
        rw [if_neg]
        intro hn
        have h3 : i = 0 ∨ i = 1 ∨ i = 2 := by omega
        rcases h3 with rfl | rfl | rfl <;> simp [hi] at hn
      rw [this]

/-- One micro-operation of TX after its first keeps to the mailbox it claimed, and hands it over at most once, at the end. -/
theorem txMicro_frame (ide rtr tgt : Bool) (dlc : Nat) (m : Fin 3) (u : State) (h1 : 1 ≤ u.pos.step) (hm : u.pos.m = m) :
    let v := txMicro ide rtr tgt dlc u.pos u
    TxFrame m u v ∧ ((v.seq = .idle ∧ (v.txOrder = u.txOrder ∨ v.txOrder = u.txOrder ++ [m])) ∨
      (v.txOrder = u.txOrder ∧ 1 ≤ v.pos.step ∧ v.pos.m = m)) := by
  unfold txMicro
  simp only
  split
  · next h => omega
  · subst hm
    have := tx_tir_frame u.pos.m (idWord ide rtr u.arg0) u
    refine ⟨this.1.trans (goto_txFrame ..), .inr ⟨?_, by simp, rfl⟩⟩
    rcases this.2 with h | ⟨h, _⟩
    · exact h
    · rw [idWord_bit0] at h; cases h
  · subst hm
    have := tx_write_frame u.pos.m _ (.inl rfl) (tdtWord tgt dlc) u
    exact ⟨this.1.trans (goto_txFrame ..), .inr ⟨this.2, by simp, rfl⟩⟩
  · subst hm
    have := tx_write_frame u.pos.m _ (.inr (.inl rfl)) (u.arg1 &&& loMask dlc) u
    exact ⟨this.1.trans (goto_txFrame ..), .inr ⟨this.2, by simp, rfl⟩⟩
  · subst hm
    have := tx_write_frame u.pos.m _ (.inr (.inr rfl)) (u.arg2 &&& hiMask dlc) u
    exact ⟨this.1.trans (goto_txFrame ..), .inr ⟨this.2, by simp, rfl⟩⟩
  · subst hm
    have hd := readReg_frame (.tir u.pos.m) u
    have := tx_tir_frame u.pos.m (withBit (readReg (.tir u.pos.m) u).1 0 true)
      (readReg (.tir u.pos.m) u).2
    refine ⟨(hd.txFrame.trans this.1).trans (finish_txFrame ..), .inl ⟨rfl, ?_⟩⟩
    have ho := hd.txOrder
    rcases this.2 with h | ⟨_, h⟩
    · left; exact h.trans ho
    · right; exact h.trans (by rw [ho])

/-! ### RX -/

/-- What RX on FIFO `f` may change, but for the queue. -/
def RxFrame (f : Fin 2) (s t : State) : Prop :=
  t = { s with fifos := t.fifos, res0 := t.res0, res1 := t.res1, res2 := t.res2, res3 := t.res3, res4 := t.res4,
               seq := t.seq, drawTape := t.drawTape, drawCount := t.drawCount } ∧
  (∀ g, g ≠ f → t.fifo g = s.fifo g) ∧ (t.fifo f).full = (s.fifo f).full ∧ (t.fifo f).fovr = (s.fifo f).fovr

theorem RxFrame.trans {f : Fin 2} {s t u : State} (h : RxFrame f s t) (k : RxFrame f t u) : RxFrame f s u := by
  refine ⟨?_, fun g hg => (k.2.1 g hg).trans (h.2.1 g hg), k.2.2.1.trans h.2.2.1, k.2.2.2.trans h.2.2.2⟩
  rw [k.1, h.1]

theorem readReg_rxFrame (f : Fin 2) (r : Reg) (s : State) : RxFrame f s (readReg r s).2 := by
  obtain ⟨a, b, h⟩ := readReg_frame r s
  rw [h]
  exact ⟨rfl, fun _ _ => rfl, rfl, rfl⟩

theorem readReg_queue (f : Fin 2) (r : Reg) (s : State) : (readReg r s).2.queue f = s.queue f := by
  obtain ⟨a, b, h⟩ := readReg_frame r s
  rw [h]; rfl

/-- A write that only releases is the removal of the head (R226). -/
theorem writeRfr_release (f : Fin 2) (s : State) :
    writeRfr f (single 5) s = s.setFifo f { s.fifo f with queue := (s.queue f).tail } := by
  have h3 : bit (single 5) 3 = false := by decide
  have h4 : bit (single 5) 4 = false := by decide
  have h5 : bit (single 5) 5 = true := by decide
  simp [writeRfr, h3, h4, h5, release, setFifo_setFifo, State.queue]

theorem setFifo_queue_self (s : State) (f : Fin 2) (q : Fifo) : (s.setFifo f q).queue f = q.queue := by
  simp [State.queue]

/-- One micro-operation of RX keeps to FIFO `f`, and removes at most the head of its queue, at the end. -/
theorem rxMicro_frame (f : Fin 2) (s : State) :
    let t := rxMicro f s.pos s
    RxFrame f s t ∧ (t.queue f = s.queue f ∨ (t.seq = .idle ∧ t.queue f = (s.queue f).tail)) := by
  have hr := fun r => readReg_rxFrame f r s
  have hq := fun r => readReg_queue f r s
  have hg : ∀ {t : State} q, RxFrame f s t → RxFrame f s (goto q t) := fun q h => h.trans ⟨rfl, fun _ _ => rfl, rfl, rfl⟩
  unfold rxMicro rxPending
  simp only
  split
  · split
    · exact ⟨(hr _).trans ⟨rfl, fun _ _ => rfl, rfl, rfl⟩, .inl (hq _)⟩
    · exact ⟨hg _ (hr _), .inl (hq _)⟩
  · exact ⟨hg _ (hr _), .inl (hq _)⟩
  · exact ⟨hg _ (hr _), .inl (hq _)⟩
  · exact ⟨hg _ (hr _), .inl (hq _)⟩
  · exact ⟨hg _ (hr _), .inl (hq _)⟩
  · have e : writeReg (.rfr f) (single 5) s = s.setFifo f { s.fifo f with queue := (s.queue f).tail } :=
      writeRfr_release f s
    have base : RxFrame f s (writeReg (.rfr f) (single 5) s) := by
      rw [e]
      refine ⟨rfl, fun g hg => ?_, ?_, ?_⟩
      · rw [setFifo_fifo, if_neg hg]
      · rw [setFifo_fifo_self]
      · rw [setFifo_fifo_self]
    refine ⟨base.trans ⟨rfl, fun _ _ => rfl, rfl, rfl⟩, .inr ⟨rfl, ?_⟩⟩
    show (writeReg (.rfr f) (single 5) s).queue f = _
    rw [e, setFifo_queue_self]

/-! ### Consistency -/

theorem pollMsr_consistent {s : State} (k : s.Consistent) (seen : Word → Bool) (next : InFlight) (timeout : Status)
    (p : InFlight) : (pollMsr seen next timeout p s).Consistent := by
  rw [pollMsr_cases]
  split
  · exact goto_consistent _ k
  · split
    · exact finish_consistent _ _ k
    · exact goto_consistent _ k

theorem initMicro_consistent {s : State} (k : s.Consistent) (mode : OpMode) (flags : FeatureFlags) (baud : Nat)
    (p : InFlight) : (initMicro mode flags baud p s).Consistent := by
  unfold initMicro
  split
  · exact finish_consistent _ _ k
  · split
    · exact goto_consistent _ (modifyReg_consistent k _ _)
    · exact pollMsr_consistent k ..
    · exact goto_consistent _ (modifyReg_consistent k _ _)
    · exact pollMsr_consistent k ..
    · exact goto_consistent _ (modifyReg_consistent k _ _)
    · exact finish_consistent _ _ (writeReg_consistent k _ _)

theorem cfgfMicro_consistent {s : State} (k : s.Consistent) (bank : Nat) (scale : FilterScale) (mode : FilterMode)
    (fifo : Fin 2) (p : InFlight) : (cfgfMicro bank scale mode fifo p s).Consistent := by
  unfold cfgfMicro
  split
  · simp only
    split
    · exact goto_consistent _ (modifyReg_consistent k _ _)
    · exact goto_consistent _ (modifyReg_consistent k _ _)
    · exact goto_consistent _ (modifyReg_consistent k _ _)
    · exact goto_consistent _ (modifyReg_consistent k _ _)
    · exact goto_consistent _ (writeReg_consistent k _ _)
    · exact goto_consistent _ (writeReg_consistent k _ _)
    · exact goto_consistent _ (modifyReg_consistent k _ _)
    · exact goto_consistent _ (modifyReg_consistent k _ _)
    · exact finish_consistent _ _ (modifyReg_consistent k _ _)
  · exact finish_consistent _ _ k

theorem txMicro_consistent {s : State} (k : s.Consistent) (ide rtr tgt : Bool) (dlc : Nat) (p : InFlight) :
    (txMicro ide rtr tgt dlc p s).Consistent := by
  unfold txMicro
  simp only
  split
  · obtain ⟨u, hu, h⟩ := txClaim_cases ide dlc p s
    have ku := hu.consistent k
    rcases h with ⟨st, h, _⟩ | ⟨_, _, h⟩ | ⟨_, m, _, h⟩ <;> rw [h]
    · exact finish_consistent _ _ k
    · exact finish_consistent _ _ ku
    · exact goto_consistent _ ku
  · exact goto_consistent _ (writeReg_consistent k _ _)
  · exact goto_consistent _ (writeReg_consistent k _ _)
  · exact goto_consistent _ (writeReg_consistent k _ _)
  · exact goto_consistent _ (writeReg_consistent k _ _)
  · exact finish_consistent _ _ (modifyReg_consistent k _ _)

theorem rxMicro_consistent {s : State} (k : s.Consistent) (f : Fin 2) (p : InFlight) : (rxMicro f p s).Consistent := by
  have r := fun q => readReg_consistent k q
  unfold rxMicro rxPending
  simp only
  split
  · split
    · exact finish_consistent _ _ (r _)
    · exact goto_consistent _ (r _)
  · exact goto_consistent _ (r _)
  · exact goto_consistent _ (r _)
  · exact goto_consistent _ (r _)
  · exact goto_consistent _ (r _)
  · exact finish_consistent _ _ ((writeReg_consistent k _ _).congr rfl rfl rfl rfl rfl rfl rfl rfl rfl rfl rfl rfl rfl rfl
      rfl rfl)

end Sys2Proof.Machine
end

