-- ==== Sys2Proof/Laws/PerInstr.lean ====
section
/-! SUPPORT. What holds of every command as syntax, one lemma per constructor: the command word of a well-formed command has
the fixed bits of its row of the opcode table (spec/30_encoding.md R122, R123, R125, R126). -/

namespace Sys2Proof.Laws.EncodeMatches

open Sys2Proof Sys2Proof.Machine

/-- The row of the opcode table a command belongs to. -/
def rowOf : Instr → Row
  | .init _ _ _   => rowInit
  | .cfgf _ _ _ _ => rowCfgf
  | .tx _ _ _ _   => rowTx
  | .rx _         => rowRx

/-- The word of a well-formed command has the fixed bits of its row. -/
def Statement (i : Instr) : Prop := i.wellFormed = true → (rowOf i).accepts (encode i) = true

/-- A number that fits `n` bits has no bit at or above `n`. -/
theorem bit_of_fits {v n j : Nat} (h : v < 2 ^ n) (k : n ≤ j) : bit (BitVec.ofNat 32 v) j = false := by
  rw [bit_ofNat, Nat.testBit_lt_two_pow (Nat.lt_of_lt_of_le h (Nat.pow_le_pow_right (by decide) k)), Bool.and_false]

theorem init (mode : OpMode) (flags : FeatureFlags) (baud : Nat) : Statement (.init mode flags baud) := by
  intro h
  have hb : baud < 2 ^ 8 := by simpa [Instr.wellFormed, baudFits] using h
  have hf : ∀ j, 6 ≤ j → bit flags.code j = false := by
    intro j hj
    simp [FeatureFlags.code, show ¬ j = 0 by omega, show ¬ j - 1 = 0 by omega, show ¬ j - 2 = 0 by omega,
      show ¬ j - 3 = 0 by omega, show ¬ j - 4 = 0 by omega, show ¬ j - 5 = 0 by omega]
  have hm : ∀ j, 2 ≤ j → bit mode.code j = false := by
    intro j hj
    have e : mode.code = BitVec.ofNat 32 mode.code.toNat := by simp
    rw [e]
    exact bit_of_fits (n := 2) (by cases mode <;> decide) hj
  refine decide_eq_true ?_
  simp only [rowOf, rowInit, encode]
  refine word_ext fun j hj => ?_
  simp only [bit_and, bit_or, bit_shiftLeft]
  have fixed : ∀ j < 32, bit 0xFF00F00F#32 j = true → j < 4 ∨ (12 ≤ j ∧ j < 16) ∨ 24 ≤ j := by decide
  have one : ∀ j < 32, bit 0x00000001#32 j = (bit 1#32 j && bit 0xFF00F00F#32 j) := by decide
  rw [one j hj]
  cases e : bit 0xFF00F00F#32 j with
  | false => simp
  | true =>
    have z1 : (decide (j < 32) && !decide (j < 16) && bit (BitVec.ofNat 32 baud) (j - 16)) = false := by
      rcases fixed j hj e with c | c | c
      · simp [show j < 16 by omega]
      · simp [show j < 16 by omega]
      · rw [bit_of_fits hb (by omega), Bool.and_false]
    have z2 : (decide (j < 32) && !decide (j < 6) && bit flags.code (j - 6)) = false := by
      rcases fixed j hj e with c | c | c
      · simp [show j < 6 by omega]
      · rw [hf _ (by omega), Bool.and_false]
      · rw [hf _ (by omega), Bool.and_false]
    have z3 : (decide (j < 32) && !decide (j < 4) && bit mode.code (j - 4)) = false := by
      rcases fixed j hj e with c | c | c
      · simp [c]
      · rw [hm _ (by omega), Bool.and_false]
      · rw [hm _ (by omega), Bool.and_false]
    rw [z1, z2, z3]
    simp

theorem cfgf (bank : Nat) (scale : FilterScale) (mode : FilterMode) (fifo : Fin 2) :
    Statement (.cfgf bank scale mode fifo) := by
  intro h
  have hb : bank < 32 := by simpa [Instr.wellFormed, bankFits] using h
  have all : ∀ b < 32, ∀ (x y z : Bool), (ofBit z <<< 11 ||| ofBit y <<< 10 ||| ofBit x <<< 9 |||
      BitVec.ofNat 32 b <<< 4 ||| 2#32) &&& 0xFFFFF00F#32 = 0x00000002#32 := by decide
  exact decide_eq_true <| all bank hb scale.toBool mode.toBool (fifoBit fifo)

theorem tx (ide rtr tgt : Bool) (dlc : Nat) : Statement (.tx ide rtr tgt dlc) := by
  intro h
  have hd : dlc < 16 := by simpa [Instr.wellFormed, dlcFits] using h
  have all : ∀ d < 16, ∀ (x y z : Bool), (BitVec.ofNat 32 d <<< 8 ||| ofBit z <<< 6 ||| ofBit y <<< 5 |||
      ofBit x <<< 4 ||| 3#32) &&& 0xFFFFF08F#32 = 0x00000003#32 := by decide
  exact decide_eq_true <| all dlc hd ide rtr tgt

theorem rx (fifo : Fin 2) : Statement (.rx fifo) := by
  intro _
  revert fifo
  decide

end Sys2Proof.Laws.EncodeMatches
end

