-- ==== Sys2Proof/Laws/Steps.lean ====
section
/-! SUPPORT. What one step of the machine can do, said once: which agent makes it, and what a micro-operation keeps of the
fields that belong to no command. -/

namespace Sys2Proof.Machine

@[simp] theorem elapse_pos (s : State) : (elapse s).pos = s.pos := rfl

/-- Ageing the agenda keeps the moves on it, in their order. -/
theorem ageAgenda_moves (l : List Turn) : (ageAgenda l).map Turn.move = l.map Turn.move := by
  unfold ageAgenda
  split <;> rfl

/-- With no event waiting, a step of the sequencer leaves the agenda as it is. -/
theorem elapse_of_host {s : State} (h : ∀ t rest, s.agenda = t :: rest → ∃ a, t.move = .host a) : elapse s = s := by
  unfold elapse ageAgenda
  split
  · next n e rest h' => obtain ⟨a, ha⟩ := h _ _ h'; cases ha
  · rfl

/-- A micro-operation leaves the instance, the agenda, the command port and what the host has read as they are (R14, R96). -/
theorem exec_keeps {i : Instr} {s t : State} (h : exec i s = .next t) :
    t.cfg = s.cfg ∧ t.agenda = s.agenda ∧ t.cmd = s.cmd ∧ t.arg0 = s.arg0 ∧ t.arg1 = s.arg1 ∧ t.arg2 = s.arg2 ∧
      t.hostData = s.hostData := by
  cases i with
  | init mode flags baud =>
    cases h
    rw [(initMicro_frame mode flags baud s.pos s).1]
    exact ⟨rfl, rfl, rfl, rfl, rfl, rfl, rfl⟩
  | cfgf bank scale mode fifo =>
    cases h
    rw [(cfgfMicro_frame bank scale mode fifo s.pos s).1]
    exact ⟨rfl, rfl, rfl, rfl, rfl, rfl, rfl⟩
  | tx ide rtr tgt dlc =>
    cases h
    by_cases h1 : 1 ≤ s.pos.step
    · rw [(txMicro_frame ide rtr tgt dlc s.pos.m s h1 rfl).1.1]
      exact ⟨rfl, rfl, rfl, rfl, rfl, rfl, rfl⟩
    · have e : txMicro ide rtr tgt dlc s.pos s = txClaim ide dlc s.pos s := by
        simp [txMicro, show s.pos.step = 0 by omega]
      rw [e]
      obtain ⟨u, ⟨_, _, rfl⟩, c⟩ := txClaim_cases ide dlc s.pos s
      rcases c with ⟨st, c, _⟩ | ⟨_, _, c⟩ | ⟨_, m, _, c⟩ <;> rw [c] <;> exact ⟨rfl, rfl, rfl, rfl, rfl, rfl, rfl⟩
  | rx f =>
    cases h
    rw [(rxMicro_frame f s).1.1]
    exact ⟨rfl, rfl, rfl, rfl, rfl, rfl, rfl⟩

/-- What a step of the sequencer can be: nothing while idle, one micro-operation, or the end of an illegal command. -/
theorem sequencer_cases {s t : State} (h : sequencer s = .next t) :
    (s.seq = .idle ∧ t = s) ∨ (∃ i, s.seq ≠ .idle ∧ decode s.cmd = .ok i ∧ exec i (elapse s) = .next t) ∨
      (∃ e, s.seq ≠ .idle ∧ decode s.cmd = .error e ∧ t = raise .illegalCommand (elapse s)) := by
  unfold sequencer at h
  split at h
  · next h' => cases h; exact .inl ⟨h', rfl⟩
  · next p h' =>
    have hb : s.seq ≠ .idle := by rw [h']; exact Seq.noConfusion
    split at h
    · next i hi => exact .inr (.inl ⟨i, hb, hi, h⟩)
    · next e he => cases h; exact .inr (.inr ⟨e, hb, he, rfl⟩)

/-- Who makes a step: the agent of the agenda's first move when that move is due, the sequencer otherwise (R14). -/
theorem step_cases {s t : State} (h : step s = .next t) :
    sequencer s = .next t ∨
      ∃ turn rest, s.agenda = turn :: rest ∧ turn.due s = true ∧ perform turn.move { s with agenda := rest } = .next t := by
  unfold step advance at h
  split at h
  · exact .inl h
  · next turn rest e =>
    split at h
    · next hd => exact .inr ⟨turn, rest, e, hd, h⟩
    · exact .inl h

end Sys2Proof.Machine
end

