-- ==== Sys2Proof/Laws/Text.lean ====
section
/-! SUPPORT. What the reader of a command line does with each piece of it, said once: numbers, blanks, operands, comments. -/

namespace Sys2Proof.Machine

/-! ### Numbers -/

/-- Reading digits adds each at the low end. -/
theorem foldl_digits {α : Type} (base : Nat) (value : α → Nat) (cs : Text) (ds : List α)
    (h : List.Forall₂ (fun c d => digit c = some (value d) ∧ value d < base) cs ds) (acc : Nat) :
    cs.foldl (fun acc c => do
      let n ← acc
      let d ← digit c
      if d < base then some (n * base + d) else none) (some acc) =
      some (ds.foldl (fun a d => a * base + value d) acc) := by
  induction h generalizing acc with
  | nil => rfl
  | cons h _ ih =>
    simp only [List.foldl_cons, h.1, Option.bind_eq_bind, Option.bind_some, if_pos h.2]
    exact ih _

theorem digits_eq {α : Type} (base : Nat) (value : α → Nat) (cs : Text) (ds : List α) (hd : ds ≠ [])
    (h : List.Forall₂ (fun c d => digit c = some (value d) ∧ value d < base) cs ds) :
    digits base cs = some (ds.foldl (fun a d => a * base + value d) 0) := by
  have : cs ≠ [] := by
    rintro rfl
    cases h
    exact hd rfl
  rw [digits, if_neg this]
  exact foldl_digits base value cs ds h 0

/-- A decimal number reads as its value. -/
theorem number_decimal (ds : List (Fin 10)) (h : ds ≠ []) :
    number (ds.map (fun d => Nat.digitChar d.val)) = some (ds.foldl (fun a d => a * 10 + d.val) 0) := by
  have hx : ∀ d : Fin 10, Nat.digitChar d.val ≠ 'x' ∧ Nat.digitChar d.val ≠ '_' := by decide
  have hf : (ds.map (fun d => Nat.digitChar d.val)).filter (· != '_') = ds.map (fun d => Nat.digitChar d.val) := by
    rw [List.filter_eq_self]
    intro c hc
    obtain ⟨d, _, rfl⟩ := List.mem_map.1 hc
    simp [(hx d).2]
  have hd : digits 10 (ds.map (fun d => Nat.digitChar d.val)) = some (ds.foldl (fun a d => a * 10 + d.val) 0) := by
    refine digits_eq 10 _ _ ds h ?_
    rw [List.forall₂_map_left_iff, List.forall₂_same]
    have all : ∀ d : Fin 10, digit (Nat.digitChar d.val) = some d.val ∧ d.val < 10 := by decide
    exact fun d _ => all d
  unfold number
  split
  · next rest e =>
    exfalso
    have : 'x' ∈ ds.map (fun d => Nat.digitChar d.val) := by simp [e]
    obtain ⟨d, _, hd⟩ := List.mem_map.1 this
    exact (hx d).1 hd
  · rw [hf, hd]

/-- A hexadecimal number reads as its value, whatever separators it has. -/
theorem number_hexadecimal (ds : List (Fin 16)) (rest : Text) (h : ds ≠ [])
    (hr : List.Forall₂ (fun c d => c = Nat.digitChar d.val ∨ c = (Nat.digitChar d.val).toUpper) (rest.filter (· != '_')) ds) :
    number ('0' :: 'x' :: rest) = some (ds.foldl (fun a d => a * 16 + d.val) 0) := by
  show digits 16 (rest.filter (· != '_')) = _
  refine digits_eq 16 _ _ ds h (hr.imp fun c d hc => ?_)
  have all : ∀ d : Fin 16, digit (Nat.digitChar d.val) = some d.val ∧ digit (Nat.digitChar d.val).toUpper = some d.val := by
    decide
  rcases hc with rfl | rfl
  · exact ⟨(all d).1, d.isLt⟩
  · exact ⟨(all d).2, d.isLt⟩

/-- A number below 2^32 reads as a word. -/
theorem wordOperand_of_number {t : Text} {w : Word} (h : number t = some w.toNat) : wordOperand t = some w := by
  simp [wordOperand, h, w.isLt]

/-! ### Pieces of a line -/

/-- A piece of a line that blanks, commas and comments do not break. -/
def Token (t : Text) : Prop := t ≠ [] ∧ ∀ c ∈ t, c ≠ ' ' ∧ c ≠ ',' ∧ c ≠ ';'

theorem dropWhile_blank {t : Text} (h : Token t) (u : Text) : (t ++ u).dropWhile (· == ' ') = t ++ u := by
  obtain ⟨c, t, rfl⟩ := List.exists_cons_of_ne_nil h.1
  simp [(h.2 c (by simp)).1]

theorem Token.reverse {t : Text} (h : Token t) : Token t.reverse := ⟨by simpa using h.1, fun c hc => h.2 c (by simpa using hc)⟩

/-- A text that starts and ends with a piece has no blanks around it. -/
theorem trim_between {a b : Text} (ha : Token a) (hb : Token b) (m : Text) : trim (a ++ m ++ b) = a ++ m ++ b := by
  have e : (a ++ m ++ b).reverse = b.reverse ++ (m.reverse ++ a.reverse) := by simp
  unfold trim
  rw [List.append_assoc, dropWhile_blank ha, ← List.append_assoc, e, dropWhile_blank hb.reverse, ← e, List.reverse_reverse]

theorem trim_token {t : Text} (h : Token t) : trim t = t := by
  unfold trim
  have a := dropWhile_blank h []
  have b := dropWhile_blank h.reverse []
  simp only [List.append_nil] at a b
  rw [a, b, List.reverse_reverse]

theorem trim_blank (t : Text) : trim (' ' :: t) = trim t := by
  unfold trim
  simp

/-- The operands of a line, as R134 writes them: separated by a comma and a blank. -/
def joined (ops : List Text) : Text := [',', ' '].intercalate ops

theorem blank_joined {ops : List Text} (h : ops ≠ []) :
    ' ' :: joined ops = [','].intercalate (ops.map (' ' :: ·)) := by
  induction ops with
  | nil => exact absurd rfl h
  | cons t rest ih =>
    cases rest with
    | nil => simp [joined, List.intercalate]
    | cons u rest =>
      have := ih (by simp)
      simp only [joined, List.intercalate, List.map_cons, List.intersperse, List.flatten_cons] at this ⊢
      simp only [List.cons_append, List.nil_append, ← this]

/-- A joined line starts and ends with a piece. -/
theorem joined_ends {ops : List Text} (h : ops ≠ []) (ht : ∀ t ∈ ops, Token t) :
    ∃ m b, Token b ∧ joined ops = m ++ b := by
  induction ops with
  | nil => exact absurd rfl h
  | cons t rest ih =>
    cases rest with
    | nil => exact ⟨[], t, ht t (by simp), by simp [joined, List.intercalate]⟩
    | cons u rest =>
      obtain ⟨m, b, hb, e⟩ := ih (by simp) fun t h => ht t (by simp [h])
      refine ⟨t ++ [',', ' '] ++ m, b, hb, ?_⟩
      have e1 : joined (t :: u :: rest) = t ++ ([',', ' '] ++ joined (u :: rest)) := by
        simp [joined, List.intercalate]
      rw [e1, e]
      simp

/-- The operands of a line come back, in their order. -/
theorem operands_joined {ops : List Text} (h : ops ≠ []) (ht : ∀ t ∈ ops, Token t) : operands (' ' :: joined ops) = ops := by
  have hs : (' ' :: joined ops).splitOn ',' = ops.map (' ' :: ·) := by
    rw [blank_joined h]
    refine List.splitOn_intercalate ',' (fun l hl hc => ?_) (by simpa using h)
    obtain ⟨t, m, rfl⟩ := List.mem_map.1 hl
    rcases List.mem_cons.1 hc with hc | hc
    · cases hc
    · exact (ht t m).2 _ hc |>.2.1 rfl
  have hm : (ops.map (' ' :: ·)).map trim = ops := by
    rw [List.map_map]
    exact (List.map_congr_left fun t m => (trim_blank t).trans (trim_token (ht t m))).trans (List.map_id _)
  have hn : trim (' ' :: joined ops) ≠ [] := by
    obtain ⟨m, b, hb, e⟩ := joined_ends h ht
    have hc : ∃ c ∈ joined ops, c ≠ ' ' := by
      obtain ⟨c, b', rfl⟩ := List.exists_cons_of_ne_nil hb.1
      exact ⟨c, by simp [e], (hb.2 c (by simp)).1⟩
    obtain ⟨c, hc, hne⟩ := hc
    rw [trim_blank]
    unfold trim
    intro h0
    have h1 := List.reverse_eq_nil_iff.1 h0
    rw [List.dropWhile_eq_nil_iff] at h1
    have h2 : ∀ x ∈ (joined ops).dropWhile (· == ' '), x = ' ' := fun x hx => by simpa using h1 x (by simpa using hx)
    have h3 : ∃ x ∈ (joined ops).dropWhile (· == ' '), x ≠ ' ' := by
      rw [← List.takeWhile_append_dropWhile (p := (· == ' ')) (l := joined ops)] at hc
      rcases List.mem_append.1 hc with hc | hc
      · exact absurd (by simpa using List.mem_takeWhile_imp hc) hne
      · exact ⟨c, hc, hne⟩
    obtain ⟨x, hx, hxn⟩ := h3
    exact hxn (h2 x hx)
  rw [operands, if_neg hn, hs, hm]

/-- What the reader of a line takes apart: the name, and the operands, without the comment. -/
theorem line_parts {name : Text} {ops : List Text} {comment : Text} (hn : Token name) (h : ops ≠ [])
    (ht : ∀ t ∈ ops, Token t) (hc : comment = [] ∨ comment.head? = some ';') :
    let t := trim ((name ++ ' ' :: joined ops ++ comment).takeWhile (· != ';'))
    t.takeWhile (· != ' ') = name ∧ operands (t.dropWhile (· != ' ')) = ops := by
  have hj : ∀ {l : List Text}, (∀ t ∈ l, Token t) → ∀ c ∈ joined l, c ≠ ';' := by
    intro l hl
    induction l with
    | nil => simp [joined, List.intercalate]
    | cons t rest ih =>
      intro c hc
      cases rest with
      | nil => exact ((hl t (by simp)).2 c (by simpa [joined, List.intercalate] using hc)).2.2
      | cons u rest =>
        have e1 : joined (t :: u :: rest) = t ++ ([',', ' '] ++ joined (u :: rest)) := by
          simp [joined, List.intercalate]
        rw [e1] at hc
        simp only [List.mem_append, List.mem_cons, List.not_mem_nil, or_false] at hc
        rcases hc with hc | (rfl | rfl) | hc
        · exact ((hl t (by simp)).2 c hc).2.2
        · decide
        · decide
        · exact ih (fun t h => hl t (by simp [h])) c hc
  have hline : (name ++ ' ' :: joined ops ++ comment).takeWhile (· != ';') = name ++ ' ' :: joined ops := by
    have all : ∀ c ∈ name ++ ' ' :: joined ops, (c != ';') = true := by
      intro c hc
      simp only [List.mem_append, List.mem_cons] at hc
      rcases hc with hc | rfl | hc
      · simpa using (hn.2 c hc).2.2
      · decide
      · simpa using hj ht c hc
    rw [List.takeWhile_append_of_pos all]
    rcases hc with rfl | hc
    · simp
    · obtain ⟨d, e⟩ : ∃ d, comment = ';' :: d := by
        cases comment with
        | nil => cases hc
        | cons c d => exact ⟨d, by simpa using hc⟩
      simp [e]
  have htrim : trim (name ++ ' ' :: joined ops) = name ++ ' ' :: joined ops := by
    obtain ⟨m, b, hb, e⟩ := joined_ends h ht
    have := trim_between hn hb (' ' :: m)
    simpa [e] using this
  have all : ∀ c ∈ name, (c != ' ') = true := fun c hc => by simpa using (hn.2 c hc).1
  intro t
  have et : t = name ++ ' ' :: joined ops := by rw [← htrim, ← hline]
  rw [et]
  refine ⟨?_, ?_⟩
  · rw [List.takeWhile_append_of_pos all]; simp
  · rw [List.dropWhile_append_of_pos all]
    simpa using operands_joined h ht

end Sys2Proof.Machine
end

