-- ==== Sys2Proof/Tests/Slice0.lean ====
section
/-! SUPPORT. The model's own tests: the well-formedness smoke test, decoding of words written out from the spec's patterns,
single steps with the spec's test vectors (spec/95_test_vectors.md, the vector named with each test), and a witness for the
hypotheses of every obligation. -/

namespace Sys2Proof.Tests

open Sys2Proof Sys2Proof.Machine

/-! ### States the tests start from -/

/-- The default instance of the vectors, with a poll bound of 2 reads (`L` of spec/95_test_vectors.md). -/
def small : Config :=
  ⟨{ Params.standard with initPollLimit := 2 }, by
    refine ⟨?_, ?_, ?_, ?_, ?_⟩ <;> simp [Params.standard, BitTiming.InRange]⟩

/-- The instance of V9d: four table entries. -/
def fourRates : Config :=
  ⟨{ Params.standard with initPollLimit := 2, btTable := [⟨1, 13, 2⟩, ⟨4, 16, 8⟩, ⟨1024, 16, 8⟩, ⟨1, 1, 1⟩] }, by
    refine ⟨?_, ?_, ?_, ?_, ?_⟩ <;> simp [Params.standard, BitTiming.InRange]⟩

/-- The instance that numbers filters as the bxCAN does (V45). -/
def filterNumbering : Config :=
  ⟨{ Params.standard with initPollLimit := 2, fmiNumbering := .filter }, by
    refine ⟨?_, ?_, ?_, ?_, ?_⟩ <;> simp [Params.standard, BitTiming.InRange]⟩

/-- Right after reset. -/
def rested : State := State.resetOf small

/-- In initialization mode, as INIT leaves the controller. -/
def initializing : State := { rested with mcr := 0x00010001#32, msr := 0x00000C01#32 }

/-- Active in normal mode, with the filters in use. -/
def active : State := { rested with mcr := 0x00010000#32, msr := 0x00000C00#32, fmr := 0x00000E00#32 }

/-- Active in loopback mode. -/
def looped : State := { active with btr := 0x401C0000#32 }

/-- The state with a bank configured and active. -/
def withBank (b : Fin 28) (scale : FilterScale) (mode : FilterMode) (fifo : Fin 2) (r1 r2 : Word) (s : State) : State :=
  { s.setBank b ⟨.of r1, .of r2⟩ with
    fs1r := withBit s.fs1r b.val scale.toBool, fm1r := withBit s.fm1r b.val mode.toBool
    ffa1r := withBit s.ffa1r b.val (fifoBit fifo), fa1r := withBit s.fa1r b.val true }

/-- The state with a mailbox pending. -/
def withPending (i : Fin 3) (ti tdt lo hi : Word) (s : State) : State :=
  transmitRequest i (s.setMailbox i ⟨.of ti, .of tdt, .of lo, .of hi⟩)

/-- The state with frames in a FIFO. -/
def withQueue (f : Fin 2) (q : List Entry) (s : State) : State := s.setFifo f { s.fifo f with queue := q }

/-- The state with the command word and its operand words issued. -/
def issued (w a0 a1 a2 : Word) (s : State) : State := issue w a0 a1 a2 s

/-- The state a step reaches, if it reaches one. -/
def reached (o : Host.Outcome State Fault Refusal) : Option State :=
  match o with
  | .next t => some t
  | .fault _ => none
  | .refused _ => none

/-- The fault a step stops with, if it stops. -/
def stopped (o : Host.Outcome State Fault Refusal) : Option Fault :=
  match o with
  | .next _ => none
  | .fault r => some r
  | .refused _ => none

/-- What a test looks at in the state one step reaches. -/
def seen {α : Type} (s : State) (look : State → α) : Option α := (reached (step s)).map look

/-- A data frame with a standard identifier. -/
def stdFrame (id : Word) (rtr : Bool) (dlc : BitVec 4) (lo hi : Word) : Frame := ⟨false, id, rtr, dlc, lo, hi⟩

/-- An entry all of whose lanes hold a value. -/
def entry (ri rdt lo hi : Word) : Entry := ⟨ri, rdt, .of lo, .of hi⟩

/-! ### Ill-formed terms are refused -/

theorem test_wellFormed_refuses_baud : Instr.wellFormed (.init .normal ⟨false, false, false, false, false, false⟩ 256) = false := by
  decide
theorem test_wellFormed_refuses_bank : Instr.wellFormed (.cfgf 32 .one32 .mask 0) = false := by decide
theorem test_wellFormed_refuses_dlc : Instr.wellFormed (.tx false false false 16) = false := by decide
theorem test_params_refuse_depth : Params.build { Params.standard with initPollLimit := 2, fifoDepth := 4 } = none := by decide

/-! ### Decoding (R122, R123, R125, R126, R132) -/

/-- `00000000bbbbbbbb0000tawnrpmm0001`, baud 0xA5, TTCM, AWUM and RFLM set, mode 2. -/
theorem test_decode_init : decode 0b00000000101001010000101010100001#32 =
    .ok (.init .silent ⟨false, true, false, true, false, true⟩ 0xA5) := by decide
/-- `00000000000000000000flskkkkk0010`, FIFO 1, mask, 32-bit, bank 21. -/
theorem test_decode_cfgf : decode 0b00000000000000000000101101010010#32 = .ok (.cfgf 21 .one32 .mask 1) := by decide
/-- The line of V12 by R123: bank 27, list, 32-bit, FIFO 0. The word V12 prints names bank 11 (log entry 15). -/
theorem test_decode_lastBank : decode 0b00000000000000000000011110110010#32 = .ok (.cfgf 27 .one32 .list 0) ∧
    decode 0x000006B2#32 = .ok (.cfgf 11 .one32 .list 0) := by decide
/-- `00000000000000000000dddd0gre0011`, DLC 9, TGT, IDE. -/
theorem test_decode_tx : decode 0b00000000000000000000100101010011#32 = .ok (.tx true false true 9) := by decide
/-- `000000000000000000000000000f0100`, FIFO 0. -/
theorem test_decode_rx : decode 0b00000000000000000000000000000100#32 = .ok (.rx 0) := by decide
/-- V9b, V9c, V15, V29b, V29c, V34 and the reserved opcodes. -/
theorem test_decode_illegal :
    decode 0x00001001#32 = .error (.reservedBits 1) ∧ decode 0x01000001#32 = .error (.reservedBits 1) ∧
    decode 0x00001202#32 = .error (.reservedBits 2) ∧ decode 0x00000083#32 = .error (.reservedBits 3) ∧
    decode 0x00001203#32 = .error (.reservedBits 3) ∧ decode 0x00000024#32 = .error (.reservedBits 4) ∧
    decode 0x00000000#32 = .error (.reservedOpcode 0) ∧ decode 0x0000000F#32 = .error (.reservedOpcode 15) := by decide
/-- The patterns of the table are pairwise disjoint: no word has the fixed bits of two rows (R133). -/
theorem test_rows_disjoint : [rowInit, rowCfgf, rowTx, rowRx].Pairwise
    (fun a b => a.pattern &&& b.mask ≠ b.pattern &&& a.mask) := by decide

/-- A command in flight, at place `p`. -/
def inFlightAt (w : Word) (p : InFlight) (s : State) : State := { s with cmd := w, seq := .busy p }

/-! ### INIT -/

/-- V2, V6: the last micro-operation of INIT, with index 0 of the default table and mode 1 (loopback). -/
theorem test_init_writes_btr : seen (inFlightAt 0x00000111#32 { InFlight.start with step := 5 } initializing)
    (fun t => (t.res0, t.btr, t.seq)) = some (0x00#32, 0x401C0000#32, .idle) := by decide
/-- V9: the controller never leaves sleep; this is the second and last read of the poll. -/
theorem test_init_sleep_exit_timeout :
    seen (inFlightAt 0x00000001#32 { InFlight.start with step := 1, polls := 1 } rested) (fun t => (t.res0, t.btr, t.seq)) =
      some (0x14#32, 0x01230000#32, .idle) := by decide

/-! ### CFGF -/

/-- V11, step 7: the FIFO of the bank. -/
theorem test_cfgf_assigns_fifo : seen (inFlightAt 0x00000C52#32 { InFlight.start with step := 6 } rested)
    (fun t => (t.ffa1r, t.fa1r, t.pos.step)) = some (0x20#32, 0#32, 7) := by decide
/-- V13. -/
theorem test_cfgf_bad_bank : seen (issued 0x000001C2#32 1 2 0 rested) (fun t => (t.res0, t.fmr, t.fa1r)) =
    some (0x23#32, 0x00000E01#32, 0#32) := by decide

/-! ### TX -/

/-- V22, the last micro-operation: mailbox 2 becomes pending, and no other bit of its identifier register changes. -/
theorem test_tx_hands_over : seen (inFlightAt 0x00000313#32 { InFlight.start with step := 5, m := 2 }
      (rested.setMailbox 2 ⟨.of 0x91A2B3C4#32, .of 3, .of 0x00332211#32, .of 0⟩))
    (fun t => (t.res0, t.tsr, (t.mailbox 2).tir)) = some (0x200#32, 0x0C000000#32, .of 0x91A2B3C5#32) := by decide
/-- V27a: BAD_DLC before NO_MAILBOX. -/
theorem test_tx_bad_dlc_first : seen (issued 0x00000F03#32 0x123#32 0 0 { rested with tsr := 0 }) (·.res0) =
    some 0x33#32 := by decide

/-! ### RX -/

/-- V31, the last micro-operation: the result words of the words read, and the release. -/
theorem test_rx_decodes : seen (inFlightAt 0x00000014#32 ⟨5, 0, 0, 0x91A2B3C4#32, 0xABCD0503#32, 0xDDCCBBAA#32, 0xFFFFFFFF#32⟩
      (withQueue 1 [entry 0x91A2B3C4#32 0xABCD0503#32 0xDDCCBBAA#32 0xFFFFFFFF#32] rested))
    (fun t => ([t.res0, t.res1, t.res2, t.res3, t.res4], (t.queue 1).length)) =
      some ([0x00#32, 0x92345678#32, 0xABCD0503#32, 0x00CCBBAA#32, 0x00000000#32], 0) := by decide
/-- V36: a frame stored between two micro-operations of RX changes nothing RX has read, and goes behind the head. -/
theorem test_rx_during_store : seen (inFlightAt 0x00000004#32 { InFlight.start with step := 2, ri := 0x24600000#32 }
      { withQueue 0 [entry 0x24600000#32 0x12340002#32 0x0000BBAA#32 0x0#32] (withBank 0 .one32 .mask 0 0 0 active) with
        agenda := [⟨0, .env (.rxFrame (stdFrame 0x7FF#32 false 1#4 0x11#32 0#32))⟩] })
    (fun t => (t.pos, (t.queue 0).map (·.ri))) =
      some ({ InFlight.start with step := 2, ri := 0x24600000#32 }, [0x24600000#32, 0xFFE00000#32]) := by decide

/-! ### Illegal words, the register port and the environment -/

/-- P3 step 10. -/
theorem test_illegal_status : seen (issued 0x0000000F#32 0 0 0 rested) (fun t => (t.res0, t.seq)) = some (0x05#32, .idle) := by
  decide
/-- V53, V53c: refused accesses. -/
theorem test_port_refuses :
    stopped (step { rested with agenda := [⟨0, .host (.memRead 0x002 4)⟩] }) = some (.hostAccessRefused 2 4) ∧
    stopped (step { rested with agenda := [⟨0, .host (.memRead 0x000 2)⟩] }) = some (.hostAccessRefused 0 2) := by decide
/-- V53b: a reserved offset reads 0; V54: BTR is protected. -/
theorem test_port_reserved_and_protected :
    seen { rested with agenda := [⟨0, .host (.memRead 0x020 4)⟩] } (·.hostData) = some [0#32] ∧
    seen { active with agenda := [⟨0, .host (.memWrite 0x01C 4 0)⟩] } (·.btr) = some 0x01230000#32 := by decide
/-- V40: the images of a remote standard frame and of an extended frame. -/
theorem test_frame_images :
    ((stdFrame 0x101#32 true 1#4 0 0).w32, (stdFrame 0x101#32 true 1#4 0 0).h16) = (0x20200002#32, 0x2030#32) ∧
    ((⟨true, 0x1FFFFFFF#32, false, 1#4, 0, 0⟩ : Frame).w32, (⟨true, 0x1FFFFFFF#32, false, 1#4, 0, 0⟩ : Frame).h16) =
      (0xFFFFFFFC#32, 0xFFEF#32) := by decide
/-- V42: the mask compares identifier, IDE and RTR. -/
theorem test_mask_filter :
    (⟨0, true, false, 0, 0x24600000#32, 0xFFE00006#32⟩ : MatchBank).conditions (stdFrame 0x123#32 false 1#4 0 0) = [true] ∧
    (⟨0, true, false, 0, 0x24600000#32, 0xFFE00006#32⟩ : MatchBank).conditions (stdFrame 0x123#32 true 1#4 0 0) = [false] ∧
    (⟨0, true, false, 0, 0x24600000#32, 0xFFE00006#32⟩ : MatchBank).conditions (stdFrame 0x124#32 false 1#4 0 0) = [false] := by
  decide
/-- V43, V44: class order across FIFOs, and the index under the default numbering. -/
theorem test_accept_class_order :
    (accept (stdFrame 0x101#32 false 1#4 0 0)
      (withBank 5 .two16 .list 1 0x20202000#32 0x20602040#32 active)).1 = some (1, 5) ∧
    (accept (stdFrame 0x101#32 false 1#4 0 0)
      (withBank 0 .one32 .mask 0 0 0 (withBank 5 .two16 .list 1 0x20202000#32 0x20602040#32 active))).1 = some (0, 0) := by
  decide
/-- V45: the bxCAN's numbering. -/
theorem test_filter_numbering :
    let s := { rested with cfg := filterNumbering, fs1r := 0x9#32, fm1r := 0xA#32, ffa1r := 0x8#32 }
    fmi s 0 2 1 = 6 ∧ fmi s 1 3 0 = 0 := by decide
/-- V46: overrun, with and without the lock. -/
theorem test_overrun :
    ((store 0 (entry 4 0 0 0) (withQueue 0 [entry 1 0 0 0, entry 2 0 0 0, entry 3 0 0 0] active)).fifo 0) =
      ⟨[entry 1 0 0 0, entry 2 0 0 0, entry 4 0 0 0], false, true⟩ ∧
    ((store 0 (entry 4 0 0 0) (withQueue 0 [entry 1 0 0 0, entry 2 0 0 0, entry 3 0 0 0]
      { active with mcr := 0x00010008#32 })).queue 0) = [entry 1 0 0 0, entry 2 0 0 0, entry 3 0 0 0] := by decide
/-- V48: the time stamp in bytes 6 and 7. -/
theorem test_time_stamp_bytes :
    (frameOfMailbox 1 { withPending 1 0x20000001#32 0x108#32 0x44332211#32 0x88776655#32 active with
      mcr := 0x00010080#32, timeStamp := 0xBEEF#16 }).1.hi = 0xEFBE6655#32 := by decide
/-- V49 and P1 step 5: a completed loopback transmission, with t = 0x0042. -/
theorem test_tx_done_loopback : seen { withPending 0 0x24600001#32 0x2#32 0xBBAA#32 0#32 (withBank 0 .one32 .mask 0 0 0 looped)
      with drawTape := [0x42#32], agenda := [⟨0, .env (.txDone 0 true)⟩] }
    (fun t => (t.tsr, (t.mailbox 0).tir, (t.mailbox 0).tdtr, t.queue 0)) =
      some (0x1C000003#32, .of 0x24600000#32, .of 0x00420002#32,
        [⟨0x24600000#32, 0x00420002#32, ⟨0xBBAA#32, 0xFFFF#32⟩, ⟨0#32, 0#32⟩⟩]) := by decide
/-- V51: an abort. -/
theorem test_tx_abort : seen { withPending 0 1 2 3 4 { active with tsr := 0x1C000080#32 } with
      agenda := [⟨0, .env (.txAbort 0)⟩] } (·.tsr) = some 0x1C000001#32 := by decide
/-- The text of V5 and of a pseudo-command issue the words the vectors give (R134, R135). -/
theorem test_text_lines :
    (parseLine "INIT normal, 0, txfp, rflm, nart, awum, abom, ttcm".toList).map Line.action = some (.issue 0xFC1#32 0 0 0) ∧
    (parseLine "CFGF.ALL 0, 0 ; accept every identifier".toList).map Line.action = some (.issue 0x202#32 0 0 0) ∧
    (parseLine "TX std, 0x7FF, 1, rtr, 0x4433_2211, 0".toList).map Line.action = some (.issue 0x123#32 0x7FF 0x44332211 0) := by
  decide

/-! ### Witnesses: states and operands that meet the hypotheses of the obligations

Each is named after its obligation. -/

/-- The state with one event scheduled after `n` steps of the sequencer. -/
def later (n : Nat) (s : State) : State := { s with agenda := [⟨n, .env .statusDrift⟩] }

/-- A command in flight, at place `k`, with mailbox `m`. -/
def inFlight (w : Word) (k : Nat) (m : Fin 3) (s : State) : State := inFlightAt w { InFlight.start with step := k, m := m } s

theorem later_turn (w : Word) (k n : Nat) (m : Fin 3) (s : State) :
    (later (n + 1) (inFlight w k m s)).SequencerTurn := by
  refine ⟨by simp [later, inFlight, inFlightAt], fun t rest h => ?_⟩
  cases h
  simp [Turn.due, later, inFlight, inFlightAt]

/-- Where a command's micro-operations lead, if it ends with the `n`-th. -/
def runsTo (i : Instr) : Nat → State → Option State
  | 0, _ => none
  | n + 1, s =>
    match exec i s with
    | .next t =>
      match t.seq with
      | .idle   => if n = 0 then some t else none
      | .busy _ => runsTo i n t
    | .fault _ => none
    | .refused _ => none

theorem completes_of_runsTo {i : Instr} : ∀ {n : Nat} {s t : State}, runsTo i n s = some t → Completes i n s t
  | 0, _, _, h => nomatch h
  | n + 1, s, t, h => by
    simp only [runsTo] at h
    split at h
    · next u hu =>
      split at h
      · next hs =>
        split at h
        · next hn => subst hn; cases h; exact ⟨hu, hs⟩
        · cases h
      · next p hp =>
        cases n with
        | zero => cases h
        | succ n => exact ⟨u, hu, by rw [hp]; nofun, completes_of_runsTo h⟩
    · cases h
    · cases h

theorem completes_of_isSome {i : Instr} {n : Nat} {s : State} (h : (runsTo i n s).isSome = true) : ∃ t, Completes i n s t := by
  obtain ⟨t, e⟩ := Option.isSome_iff_exists.1 h
  exact ⟨t, completes_of_runsTo e⟩

/-- A state with something everywhere: a pending mailbox with an abort requested, a frame in FIFO 1, an active bank. -/
def busyState : State :=
  withQueue 1 [⟨0x20200000#32, 0x00070501#32, ⟨0x5A#32, 0xFF#32⟩, ⟨0#32, 0#32⟩⟩]
    (withPending 1 0x24600001#32 0x2#32 0xBBAA#32 0#32 { withBank 5 .two16 .list 1 1 2 looped with tsr := 0x1C008000#32 })

/-- The same state with a reception in progress in the command port. -/
def rxState : State := inFlightAt 0x00000014#32 { InFlight.start with step := 2, ri := 0x20200000#32 } busyState

/-! Encoding -/

theorem witness_DecodeOfEncode :
    Instr.wellFormed (.init .silentLoopback ⟨true, true, true, true, true, true⟩ 255) = true ∧
    Instr.wellFormed (.cfgf 31 .one32 .list 1) = true ∧ Instr.wellFormed (.tx true true true 15) = true ∧
    Instr.wellFormed (.rx 1) = true := by decide

theorem witness_EncodeOfDecode :
    decode 0x00FF0FF1#32 = .ok (.init .silentLoopback ⟨true, true, true, true, true, true⟩ 255) ∧
    decode 0x00000FF2#32 = .ok (.cfgf 31 .one32 .list 1) ∧ decode 0x00000F73#32 = .ok (.tx true true true 15) ∧
    decode 0x00000014#32 = .ok (.rx 1) := by decide

/-- One word of every clause of R132, at the ends of its range. -/
theorem witness_IllegalCommandWritesOnlyStatus :
    (∀ w ∈ [0x0#32, 0x5#32, 0xF#32, 0x1001#32, 0x8001#32, 0x01000001#32, 0x80000001#32, 0x1002#32, 0x80000002#32, 0x83#32,
      0x1003#32, 0x80000003#32, 0x24#32, 0x80000004#32], ReservedWord w) ∧
    (later 1 (inFlight 0x1001#32 0 0 rested)).SequencerTurn := by
  refine ⟨?_, later_turn _ _ _ _ _⟩
  simp [ReservedWord]

/-- The greatest operands, a number in each notation (with a separator and both cases), a comment, and a text that reads. -/
theorem witness_LinesIssueTheirCommands :
    (255 < 256 ∧ 31 < 32 ∧ 15 < 16) ∧ NumberText 255 "255".toList ∧ NumberText (0x1FFFFFFF#32).toNat "0x1FfF_FFfF".toList ∧
    ("; the last bank".toList = [] ∨ "; the last bank".toList.head? = some ';') ∧
    parseLine "CFGF.ALL 31, 1".toList = some (.cfgfAll 31 1) := by
  refine ⟨by decide, .inl ⟨[2, 5, 5], by decide, by decide, by decide⟩,
    .inr ⟨[1, 15, 15, 15, 15, 15, 15, 15], "1FfF_FFfF".toList, by decide, by decide, ?_, by decide⟩, by decide, by decide⟩
  rw [show "1FfF_FFfF".toList.filter (· != '_') = "1FfFFFfF".toList by decide]
  simp [Nat.digitChar]

/-! Steps and agents -/

/-- Each form of the agenda. -/
theorem witness_StepRunsDecodedCommand :
    let s := inFlight 0x00000014#32 0 0 rested
    s.seq ≠ .idle ∧ decode s.cmd = .ok (.rx 1) ∧ s.agenda = [] ∧ (later (0 + 1) s).agenda = ⟨0 + 1, .env .statusDrift⟩ :: [] ∧
    ({ s with agenda := [⟨0, .host .result⟩] } : State).agenda = ⟨0, .host .result⟩ :: [] := by decide

theorem witness_HostMovesOnlyWhileIdle :
    rested.seq = .idle ∧ 0x000 % 4 = 0 ∧ 0x000 ≤ 0x31C ∧ 0x31C % 4 = 0 ∧
    (∃ t, step { inFlight 0x00000014#32 0 0 rested with agenda := [⟨0, .host .result⟩] } = .next t) ∧
    (inFlight 0x00000014#32 0 0 rested).seq ≠ .idle := ⟨rfl, rfl, by decide, rfl, ⟨_, rfl⟩, by decide⟩

theorem witness_HostAccessRefused : rested.seq = .idle ∧ (1 ≠ 4 ∨ 0 % 4 ≠ 0 ∨ 0x31C < 0) ∧
    (4 ≠ 4 ∨ 0x31A % 4 ≠ 0 ∨ 0x31C < 0x31A) ∧ (4 ≠ 4 ∨ 0x320 % 4 ≠ 0 ∨ 0x31C < 0x320) := by decide

theorem witness_OnlyRefusedAccessStops : ({ rested with agenda :=
    [⟨0, .host (.memRead 0x31C 4)⟩, ⟨0, .host (.memWrite 0x000 4 0)⟩, ⟨9, .env .wakeup⟩] } : State).HostAccessesAllowed := by
  intro t ht
  simp only [List.mem_cons, List.not_mem_nil, or_false] at ht
  rcases ht with rfl | rfl | rfl
  · exact ⟨fun _ _ h => by cases h; decide, nofun⟩
  · exact ⟨nofun, fun _ _ _ h => by cases h; decide⟩
  · exact ⟨nofun, nofun⟩

theorem witness_EventIsOneStep :
    (later 0 (inFlight 0x00000014#32 1 0 rested)).agenda = [⟨0, .env .statusDrift⟩] ∧
    (later 7 rested).agenda = [⟨7, .env .statusDrift⟩] ∧ (later 7 rested).seq = .idle := ⟨rfl, rfl, rfl⟩

theorem witness_EveryCommandEnds :
    (inFlight 0x000006B2#32 0 0 rested).seq ≠ .idle ∧ (inFlight 0x000006B2#32 0 0 rested).agenda = [] ∧
    decode (inFlight 0x000006B2#32 0 0 rested).cmd = .ok (.cfgf 11 .one32 .list 0) ∧
    ∃ t, Completes (.cfgf 11 .one32 .list 0) 9 (inFlight 0x000006B2#32 0 0 rested) t :=
  ⟨by decide, by decide, by decide, completes_of_isSome (by decide)⟩

theorem witness_IdleBlockWaits : rested.seq = .idle ∧ rested.agenda = [] := ⟨rfl, rfl⟩

/-! INIT -/

theorem witness_InitFromInitializationMode :
    initializing.pos.step = 0 ∧ initializing.cfg.val.btTable[0]? = some ⟨1, 13, 2⟩ ∧ initializing.slak = false ∧
    initializing.inak = true := by decide

theorem witness_InitAfterAcknowledge :
    (inFlight 1#32 3 0 initializing).pos.step = 3 ∧
    (inFlight 1#32 3 0 initializing).cfg.val.btTable[0]? = some ⟨1, 13, 2⟩ ∧ (inFlight 1#32 3 0 initializing).inak = true := by
  decide

/-- Each clause, the two inner polls at their last read. -/
theorem witness_InitTimeoutLeavesRequests :
    0 < rested.cfg.val.btTable.length ∧ (rested.pos.step = 0 ∧ rested.slak = true) ∧
    (active.pos.step = 0 ∧ active.slak = false ∧ active.inak = false) ∧
    (let s := inFlightAt 1#32 { InFlight.start with step := 1, polls := 1 } rested
     s.pos.step = 1 ∧ s.pos.polls < s.cfg.val.initPollLimit ∧ s.slak = true) ∧
    (let s := inFlightAt 1#32 { InFlight.start with step := 3, polls := 1 } active
     s.pos.step = 3 ∧ s.pos.polls < s.cfg.val.initPollLimit ∧ s.inak = false) := by decide

/-- `BAUD = BT_COUNT` is the least index that is rejected (V7). -/
theorem witness_InitRejectsBaudBeforeAnyWrite : rested.cfg.val.btTable.length ≤ 1 := by decide

theorem witness_InitLeavesTheRest :
    (∃ t, Reaches (.init .normal ⟨true, false, false, false, false, false⟩ 0) rested t) ∧ rested.inak = false :=
  ⟨⟨_, .inl rfl⟩, by decide⟩

/-! CFGF -/

theorem witness_CfgfConfiguresBank : rested.pos.step = 0 ∧ (27 : Fin 28).val < rested.cfg.val.fbCount := by decide

/-- `BANK = FB_COUNT` is the least index that is rejected (V13). -/
theorem witness_CfgfRejectsBankBeforeAnyWrite : rested.cfg.val.fbCount ≤ 28 := by decide

theorem witness_CfgfReadsBack : active.pos.step = 0 ∧ (27 : Fin 28).val < active.cfg.val.fbCount ∧
    ∃ t, Completes (.cfgf 27 .one32 .list 0) 9 active t := ⟨by decide, by decide, completes_of_isSome (by decide)⟩

/-- A bank of the instance, and one that is not. -/
theorem witness_CfgfIdempotent : rested.pos.step = 0 ∧ (∃ t, Completes (.cfgf 27 .one32 .list 0) 9 rested t) ∧
    (∃ t, Completes (.cfgf 28 .one32 .list 0) 1 rested t) ∧ (∃ t, Reaches (.cfgf 27 .one32 .list 0) rested t) ∧
    (26 : Fin 28).val ≠ 27 :=
  ⟨by decide, completes_of_isSome (by decide), completes_of_isSome (by decide), ⟨_, .inl rfl⟩, by decide⟩

theorem witness_CfgfLeavesTheRest :
    (∃ t, Reaches (.cfgf 0 .one32 .mask 1) (inFlight 0x00000A02#32 4 0 rested) t) ∧ 1 ≠ 0 ∧ (1 : Fin 28).val ≠ 0 :=
  ⟨⟨_, .inl rfl⟩, by decide, by decide⟩

/-! TX -/

theorem witness_CodeNamesAnEmptyMailbox : (∃ i, busyState.tme i = true) ∧ busyState.tme 2 = true ∧
    ∀ i, ({ active with tsr := 0#32 } : State).tme i = false := by decide

theorem witness_TxHandsTheFrameToAMailbox :
    ∀ ide : Bool, ({ rested with arg0 := if ide then 0x1FFFFFFF#32 else 0x7FF#32 } : State).pos.step = 0 ∧ 8 ≤ 8 ∧
      ({ rested with arg0 := if ide then 0x1FFFFFFF#32 else 0x7FF#32 } : State).arg0.toNat <
        (if ide then 2 ^ 29 else 2 ^ 11) ∧
      ∃ i, ({ rested with arg0 := if ide then 0x1FFFFFFF#32 else 0x7FF#32 } : State).tme i = true := by decide

/-- The least DLC and the least identifiers that are rejected (V27, V28, V29), and no empty mailbox (V29d). -/
theorem witness_TxFailureMutatesNothing :
    rested.pos.step = 0 ∧ 8 < 9 ∧ 2 ^ 11 ≤ ({ rested with arg0 := 0x800#32 } : State).arg0.toNat ∧
    2 ^ 29 ≤ ({ rested with arg0 := 0x20000000#32 } : State).arg0.toNat ∧
    ({ rested with arg0 := 0x7FF#32 } : State).arg0.toNat < 2 ^ 11 ∧
    ∀ i, ({ rested with arg0 := 0x7FF#32, tsr := 0#32 } : State).tme i = false := by decide

theorem witness_TxLeavesTheRest :
    (∃ t, Reaches (.tx false false false 2) (inFlight 0x203#32 1 2 busyState) t) ∧
    1 ≤ (inFlight 0x203#32 1 2 busyState).pos.step ∧ busyState.tme 1 = false := ⟨⟨_, .inl rfl⟩, by decide, by decide⟩

theorem witness_PackIdPlacesTheIdentifier : (0x1FFFFFFF#32).toNat < 2 ^ 29 := by decide

theorem witness_PayloadMasksKeepBytesBelowLength : 8 ≤ 8 ∧ 7 < 8 ∧ 0 ≤ 8 ∧ 0 < 8 := by decide

/-! RX -/

theorem witness_RxReturnsTheHeadFrame :
    busyState.pos.step = 0 ∧
    busyState.queue 1 = ⟨0x20200000#32, 0x00070501#32, ⟨0x5A#32, 0xFF#32⟩, ⟨0#32, 0#32⟩⟩ :: [] ∧
    (busyState.queue 1).length ≤ busyState.cfg.val.fifoDepth := by decide

theorem witness_RxOnEmptyFifoWritesNothing : rested.pos.step = 0 ∧ rested.queue 1 = [] := by decide

theorem witness_RxLeavesTheOtherFifo :
    (∃ t, Reaches (.rx 1) rxState t) ∧ (0 : Fin 2) ≠ 1 := ⟨⟨_, .inl rfl⟩, by decide⟩

theorem witness_UnpackOfPackIdentifier :
    ∀ ide : Bool, (if ide then 0x1FFFFFFF#32 else 0x7FF#32 : Word).toNat < (if ide then 2 ^ 29 else 2 ^ 11) := by decide

/-! The register file -/

theorem witness_ProtectedWritesIgnored : active.inak = false ∧ busyState.tme 1 = false ∧ active.finit = false ∧
    busyState.fact 5 = true ∧ busyState.finit = false := by decide

theorem witness_WritesStoreTheWritableBits :
    bit (0x000100FF#32) 15 = false ∧ initializing.inak = true ∧ rested.finit = true ∧
    (27 : Fin 28).val < rested.cfg.val.fbCount ∧ rested.fact 27 = false ∧ rested.tme 2 = true := by decide

theorem witness_TsrWriteClearsAndRequests :
    bit 0x00010000#32 (8 * (2 : Fin 3).val) = true ∧ bit 0x00800000#32 (8 * (2 : Fin 3).val) = false := by decide

/-- A master reset apart, a write of MCR, of a mailbox and of a FIFO, with a register each does not touch: with the side
effect, without it (TXRQ = 0, RFOM = 0), and where it has none (a pending mailbox, an empty FIFO). -/
theorem witness_WriteLeavesOtherRegisters :
    (Reg.btr ≠ .mcr ∧ bit 0x000100FF#32 15 = false) ∧ (Reg.tsr ≠ .tir 0 ∧ bit 0x20000000#32 0 = false) ∧
    (bit 0x20000001#32 0 = true ∧ Reg.tdtr 0 ≠ .tir 0 ∧ Reg.tdtr 0 ≠ .tsr) ∧ (Reg.tsr ≠ .tir 1 ∧ busyState.tme 1 ≠ true) ∧
    (Reg.rir 1 ≠ .rfr 1 ∧ bit 0x00000018#32 5 = false) ∧ (Reg.rir 0 ≠ .rfr 0 ∧ busyState.queue 0 = []) ∧
    (Reg.rir 1 ≠ .rfr 0 ∧ Reg.rir 1 ≠ .rir 0 ∧ Reg.rir 1 ≠ .rdtr 0 ∧ Reg.rir 1 ≠ .rdlr 0 ∧ Reg.rir 1 ≠ .rdhr 0) := by decide

theorem witness_TransmitRequestMakesPending : bit 0x20000001#32 0 = true ∧ busyState.tme 0 = true ∧ busyState.tme 1 = false := by
  decide

theorem witness_ReleaseRemovesTheHead : bit 0x00000038#32 5 = true ∧ busyState.queue 0 = [] ∧
    (busyState.queue 1).length ≤ busyState.cfg.val.fifoDepth ∧
    (withQueue 0 [entry 1 0 0 0, entry 2 0 0 0] active).queue 0 = entry 1 0 0 0 :: entry 2 0 0 0 :: [] := by decide

theorem witness_InterruptLinesAreGated : (busyState.queue 1).length ≤ busyState.cfg.val.fifoDepth := by decide

theorem witness_MasterResetKeepsFiltersAndPort : bit 0x00008000#32 15 = true := by decide

theorem witness_ReservedOffsetsReadZero :
    (0x020 % 4 = 0 ∧ 0x020 ≤ 0x31C ∧ ∀ r : Reg, r.offset ≠ 0x020) ∧
    (0x23C % 4 = 0 ∧ 0x23C ≤ 0x31C ∧ ∀ r : Reg, r.offset ≠ 0x23C) ∧ 0x31F < 0x320 ∧
    ((State.resetOf ⟨{ Params.standard with initPollLimit := 1, fbCount := 14 }, by
        refine ⟨?_, ?_, ?_, ?_, ?_⟩ <;> simp [Params.standard, BitTiming.InRange]⟩).cfg.val.fbCount ≤ (14 : Fin 28).val) := by
  refine ⟨⟨rfl, by decide, fun r => ?_⟩, ⟨rfl, by decide, fun r => ?_⟩, by decide, by decide⟩ <;> cases r <;> simp only [Reg.offset] <;> omega

/-! The environment -/

/-- Both outcomes, in and out of loopback; a mailbox that takes the time stamp, and one that does not. -/
theorem witness_TxDoneReportsCompletion :
    enabled (.txDone 1 true) busyState = true ∧
    enabled (.txDone 1 false) { busyState with btr := 0#32, mcr := 0x00010010#32 } = true ∧
    busyState.lbkm = true ∧ ({ busyState with btr := 0#32 } : State).lbkm = false ∧ (0 : Fin 3) ≠ 1 ∧
    (let s := { withPending 1 0x20000001#32 0x108#32 1 2 active with mcr := 0x00010080#32 }
     s.mailbox 1 = ⟨.of 0x20000001#32, .of 0x108#32, .of 1, .of 2⟩ ∧
     (s.ttcm = true ∧ bit 0x108#32 8 = true ∧ (0x108#32).toNat % 16 = 8)) ∧
    (busyState.mailbox 1 = ⟨.of 0x24600001#32, .of 0x2#32, .of 0xBBAA#32, .of 0#32⟩ ∧ busyState.ttcm = false) := by decide

theorem witness_TxAbortFreesTheMailbox :
    (busyState.abrq 1 = true ∧ busyState.tme 1 = false) ∧ ¬(busyState.abrq 0 = true ∧ busyState.tme 0 = false) := by decide

/-- Each kind of event; an arrival and a completed loopback transmission that `accept` gives to one FIFO, so that the other
is the one that stays, and an arrival that it gives to none. -/
theorem witness_EventsLeaveConfigurationAlone : busyState.tme 0 = true ∧ busyState.queue 1 ≠ [] ∧
    enabled (.txDone 1 true) busyState = true ∧ enabled (.txAbort 1) busyState = true ∧ enabled .wakeup rested = true ∧
    (let f := stdFrame 0x7FF#32 false 15#4 0 0
     enabled (.rxFrame f) active = true ∧ (accept f (captureTime { active with drawTape := [0#32] })).1 = none ∧
     (let s := { withBank 27 .one32 .mask 1 0 0 active with drawTape := [0#32] }
      enabled (.rxFrame f) s = true ∧ (accept f (captureTime s)).1 = some (1, 27) ∧ (1 : Fin 2) ≠ 0)) ∧
    (let s := { withPending 0 0x20000001#32 8#32 1 2 (withBank 0 .one32 .mask 0 0 0 looped) with drawTape := [0#32] }
     enabled (.txDone 0 true) s = true ∧ s.lbkm = true ∧
     (accept (transmitted 0 true s).1 (transmitted 0 true s).2).1 = some (0, 0) ∧ (0 : Fin 2) ≠ 1) := by decide

/-- Each reason for which nothing is stored; an arrival that no filter accepts; and one that is stored, a data frame with
DLC 15 and a remote frame. -/
theorem witness_ReceptionStoresOrSuspends :
    (rested.finit = true ∧ initializing.inak = true ∧ rested.slak = true ∧ looped.lbkm = true) ∧
    (active.inak = false ∧ active.slak = false ∧ active.lbkm = false ∧ idFits false 0x7FF#32 = true ∧
      idFits true 0x1FFFFFFF#32 = true) ∧
    (active.finit = false ∧ (accept (stdFrame 0x7FF#32 false 15#4 0 0) active).1 = none) ∧
    (let s := withBank 27 .one32 .mask 1 0 0 active
     s.finit = false ∧ (accept (stdFrame 0x7FF#32 false 15#4 0 0) s).1 = some (1, 27) ∧
     (accept (stdFrame 0x7FF#32 true 8#4 0 0) s).1 = some (1, 27) ∧
     ((stdFrame 0x7FF#32 false 15#4 0 0).rtr = false ∧ 7 < (stdFrame 0x7FF#32 false 15#4 0 0).dlc.toNat) ∧
     (stdFrame 0x7FF#32 true 8#4 0 0).rtr = true) := by decide

theorem witness_StoreAppendsOrOverruns :
    ((withQueue 0 [entry 1 0 0 0, entry 2 0 0 0] active).queue 0).length < active.cfg.val.fifoDepth ∧
    active.cfg.val.fifoDepth ≤ ((withQueue 0 [entry 1 0 0 0, entry 2 0 0 0, entry 3 0 0 0] active).queue 0).length ∧
    (withQueue 0 [entry 1 0 0 0, entry 2 0 0 0, entry 3 0 0 0] active).queue 0 =
      entry 1 0 0 0 :: [entry 2 0 0 0, entry 3 0 0 0] ∧
    (1 : Fin 2) ≠ 0 := by decide

theorem witness_FilterMatchIndexNumbersFilters :
    let s := { rested with cfg := filterNumbering, fs1r := 0x9#32, fm1r := 0xA#32, ffa1r := 0x8#32 }
    27 < s.cfg.val.fbCount ∧ 1 < filterCount (s.fsc 27) (s.fbm 27) ∧ s.cfg.val.fmiNumbering = .filter ∧
    rested.cfg.val.fmiNumbering = .bank ∧ (∀ b', b' < 3 → s.ffa b' ≠ 1) ∧ s.ffa 1 = 0 ∧ s.ffa 2 = 0 ∧
    (1 < 2 ∨ (1 = 2 ∧ 0 < 1)) := by decide

theorem witness_AcceptanceFollowsClassAndOrder :
    (∀ b : Fin 28, busyState.fact b.val = true →
      (busyState.bank b).fr1.known = BitVec.allOnes 32 ∧ (busyState.bank b).fr2.known = BitVec.allOnes 32) ∧
    (accept (stdFrame 0x101#32 false 1#4 0 0) (withBank 5 .two16 .list 1 0x20202000#32 0x20602040#32 active)).1 = some (1, 5) ∧
    ((⟨5, false, true, 1, 0x20202000#32, 0x20602040#32⟩ : MatchBank).conditions (stdFrame 0x101#32 false 1#4 0 0))[1]? =
      some true ∧
    ClassAtMost false true true false ∧ ClassAtMost false false false true ∧ ¬ClassAtMost false true false false := by
  unfold ClassAtMost
  decide

/-- One bank in each of the four combinations, a bank that is not active, and identifiers at their greatest values. -/
theorem witness_FilterConditions :
    let s := withBank 0 .one32 .list 0 1 2 (withBank 1 .one32 .mask 0 1 2 (withBank 26 .two16 .list 0 1 2
      (withBank 27 .two16 .mask 0 1 2 active)))
    (0 < s.cfg.val.fbCount ∧ s.fact 0 = true ∧ s.fsc 0 = true ∧ s.fbm 0 = true) ∧
    (s.fact 1 = true ∧ s.fsc 1 = true ∧ s.fbm 1 = false) ∧ (s.fact 26 = true ∧ s.fsc 26 = false ∧ s.fbm 26 = true) ∧
    (27 < s.cfg.val.fbCount ∧ s.fact 27 = true ∧ s.fsc 27 = false ∧ s.fbm 27 = false) ∧
    ¬((25 : Fin 28).val < s.cfg.val.fbCount ∧ s.fact (25 : Fin 28).val = true) ∧
    ((0x7FF#32).toNat < 2 ^ 11 ∧ (0x1FFFFFFF#32).toNat < 2 ^ 29) := by decide

theorem witness_CfgfAllAcceptsEveryFrame :
    rested.pos.step = 0 ∧ (27 : Fin 28).val < rested.cfg.val.fbCount ∧ rested.arg0 = 0#32 ∧ rested.arg1 = 0#32 ∧
    ∃ t, Completes (.cfgf 27 .one32 .mask 1) 9 rested t :=
  ⟨by decide, by decide, rfl, rfl, completes_of_isSome (by decide)⟩

/-- P1: TX of a frame with DLC 8, in loopback, accepted into FIFO 0: a data and a remote frame, without and with the time
stamp in the payload. -/
theorem witness_LoopbackRoundTrip : ∀ rtr tgt : Bool,
    let s := { withPending 0 (packId true 0x1FFFFFFF#32 ||| (ofBit rtr <<< 1) ||| 1#32)
      ((ofBit tgt <<< 8) ||| BitVec.ofNat 32 8) (0x44332211#32 &&& loMask 8) (0x88776655#32 &&& hiMask 8)
      (withBank 0 .one32 .mask 0 0 0 looped) with mcr := 0x00010080#32 }
    8 ≤ 8 ∧ (0x1FFFFFFF#32).toNat < (if true then 2 ^ 29 else 2 ^ 11) ∧ s.ttcm = true ∧
    (s.mailbox 0).tir = .of (packId true 0x1FFFFFFF#32 ||| (ofBit rtr <<< 1) ||| 1#32) ∧
    (s.mailbox 0).tdtr = .of ((ofBit tgt <<< 8) ||| BitVec.ofNat 32 8) ∧
    (s.mailbox 0).tdlr = .of (0x44332211#32 &&& loMask 8) ∧ (s.mailbox 0).tdhr = .of (0x88776655#32 &&& hiMask 8) ∧
    enabled (.txDone 0 true) s = true ∧ s.lbkm = true ∧ s.queue 0 = [] ∧ ((fire (.txDone 0 true) s).queue 0).length ≠ 0 := by
  decide

/-! Outputs and invariants -/

/-- Each clause: for the step lemmas, a write of TSR that leaves RQCP of the mailbox and a write of RFfR that leaves RFOM, and
a step of RX on the other FIFO. -/
theorem witness_NotificationsPendUntilCleared :
    (enabled (.txDone 1 true) busyState = true ∧ enabled (.txAbort 1) busyState = true ∧
      bit 0x00010000#32 (8 * (2 : Fin 3).val) = true ∧ bit 0x00000100#32 (8 * (2 : Fin 3).val) = false ∧
      (writeReg (.rfr 1) 0#32 busyState).rxPendOut 1 = true) ∧
    (let s := { rested with tsr := 0x1C000001#32, agenda := [⟨0, .host (.memWrite 0x008 4 0x00000100#32)⟩] }
     s.txDoneOut 0 = true ∧ bit 0x00000100#32 (8 * (0 : Fin 3).val) = false ∧ (reached (step s)).isSome = true) ∧
    (let s := { busyState with agenda := [⟨0, .host (.memWrite 0x010 4 0x00000018#32)⟩] }
     s.rxPendOut 1 = true ∧ bit 0x00000018#32 5 = false ∧ (reached (step s)).isSome = true) ∧
    (let s := inFlight 0x00000004#32 0 0 busyState
     s.rxPendOut 1 = true ∧ s.seq ≠ .idle ∧ decode s.cmd ≠ .ok (.rx 1) ∧ (reached (step s)).isSome = true) := by decide

theorem busyState_consistent : busyState.Consistent where
  mailboxFlags := by unfold State.MailboxFlags; decide
  queuesFit := by unfold State.QueuesFit; decide
  oneMode := by unfold State.OneMode; decide
  abortsPending := by unfold State.AbortsPending; decide
  orderPending := by unfold State.OrderPending; decide
  reservedClear := by unfold State.ReservedClear; decide
  cellsCanonical := by unfold State.CellsCanonical Cell.Canonical; decide
  mailboxReserved := by unfold State.MailboxReservedClear Cell.ReservedZero; decide

theorem witness_StepKeepsConsistent : busyState.Consistent ∧ ∃ t, step (issued 0x00000203#32 0x123#32 1 0 busyState) = .next t :=
  ⟨busyState_consistent, _, rfl⟩

theorem witness_StepKeepsCommandInFlight : rxState.InFlightSafe ∧ ∃ t, step rxState = .next t := by
  refine ⟨fun p h => ?_, _, rfl⟩
  have e : decode rxState.cmd = .ok (.rx 1) := by decide
  rw [e]
  cases h
  exact fun _ => ⟨_, _, rfl, fun _ => by decide, fun h => absurd h (by decide), fun h => absurd h (by decide),
    fun h => absurd h (by decide)⟩

theorem witness_StepKeepsInstance : ∃ t, step (issued 0x00000014#32 0 0 0 busyState) = .next t := ⟨_, rfl⟩

end Sys2Proof.Tests
end

section
/-! PROOF. One step of the machine when it is the sequencer's turn, and when it is an event's (O6, O10). -/

open Sys2Proof Sys2Proof.Machine

namespace Sys2Proof.Machine

/-- On the sequencer's turn a step is the sequencer's. -/
theorem step_of_sequencerTurn {s : State} (h : s.SequencerTurn) : step s = sequencer s := by
  unfold step advance
  split
  · rfl
  · next t rest ht => rw [h.2 t rest ht, if_neg Bool.false_ne_true]

/-- The sequencer runs the command in flight, a step of it having passed. -/
theorem sequencer_of_decode {s : State} {i : Instr} (hb : s.seq ≠ .idle) (hd : decode s.cmd = .ok i) :
    sequencer s = exec i (elapse s) := by
  unfold sequencer
  split
  · next h => exact absurd h hb
  · rw [hd]

/-- With a command in flight, neither a host action nor an event that still waits is due. -/
theorem sequencerTurn_of_agenda {s : State} (hb : s.seq ≠ .idle)
    (ha : ∀ t rest, s.agenda = t :: rest → (∃ a, t.move = .host a) ∨ t.wait ≠ 0) : s.SequencerTurn := by
  refine ⟨hb, fun t rest ht => ?_⟩
  unfold Turn.due
  split
  · exact decide_eq_false hb
  · next e he =>
    rcases ha t rest ht with ⟨a, ha⟩ | hw
    · rw [he] at ha; cases ha
    · rw [decide_eq_false hw, decide_eq_false hb]; rfl

/-- With a command in flight and nothing but a host action first on the agenda, a step is one micro-operation. -/
theorem step_eq_exec {s : State} {i : Instr} (hb : s.seq ≠ .idle) (hd : decode s.cmd = .ok i)
    (ha : ∀ t rest, s.agenda = t :: rest → ∃ a, t.move = .host a) : step s = exec i s := by
  rw [step_of_sequencerTurn (sequencerTurn_of_agenda hb fun t rest ht => .inl (ha t rest ht)),
    sequencer_of_decode hb hd, elapse_of_host ha]

/-- The step of an agent whose move is due is that move, taken off the agenda. -/
theorem step_of_due {s : State} {t : Turn} {rest : List Turn} (ha : s.agenda = t :: rest) (hd : t.due s = true) :
    step s = perform t.move { s with agenda := rest } := by
  unfold step advance
  rw [ha]
  exact if_pos hd

end Sys2Proof.Machine

/-- Settles O6: no move of the agenda is due, so the step is the sequencer's, and only an event's wait goes down. -/
theorem stepRunsDecodedCommand : Obligations.StepRunsDecodedCommand := by
  intro s i hb hd
  refine ⟨fun ha => step_eq_exec hb hd (by simp [ha]), fun n e rest ha => ?_, fun n a rest ha => ?_⟩
  · have turn : s.SequencerTurn := sequencerTurn_of_agenda hb fun t r ht => by
      obtain ⟨rfl, -⟩ := List.cons.inj (ha.symm.trans ht)
      exact .inr (Nat.succ_ne_zero n)
    rw [step_of_sequencerTurn turn, sequencer_of_decode hb hd, elapse, ha]
    rfl
  · refine step_eq_exec hb hd fun t r ht => ?_
    obtain ⟨rfl, -⟩ := List.cons.inj (ha.symm.trans ht)
    exact ⟨a, rfl⟩

/-- Settles O10: the event is due, and its turn fires it on the state without its entry. -/
theorem eventIsOneStep : Obligations.EventIsOneStep := by
  intro s n e rest ha h
  have due : Turn.due ⟨n, .env e⟩ s = true := by simpa [Turn.due] using h
  rw [step_of_due ha due]
  rfl
end

section
/-! PROOF. One micro-operation is one register access, and every command ends (O11). -/

open Sys2Proof Sys2Proof.Machine

namespace Sys2Proof.Machine

/-! ### One register access a micro-operation -/

theorem oneAccess_none {s t : State}
    (h : t = { s with seq := t.seq, res0 := t.res0, res1 := t.res1, res2 := t.res2, res3 := t.res3, res4 := t.res4 }) :
    OneAccess s t := ⟨s, .inl rfl, h⟩

theorem oneAccess_read (r : Reg) {s t : State}
    (h : t = { (readReg r s).2 with
      seq := t.seq, res0 := t.res0, res1 := t.res1, res2 := t.res2, res3 := t.res3, res4 := t.res4 }) :
    OneAccess s t := ⟨_, .inr (.inl ⟨r, rfl⟩), h⟩

theorem oneAccess_write (r : Reg) (v : Word) {s t : State}
    (h : t = { writeReg r v s with
      seq := t.seq, res0 := t.res0, res1 := t.res1, res2 := t.res2, res3 := t.res3, res4 := t.res4 }) :
    OneAccess s t := ⟨_, .inr (.inr (.inl ⟨r, v, rfl⟩)), h⟩

theorem oneAccess_modify (r : Reg) (change : Word → Word) {s t : State}
    (h : t = { modifyReg r change s with
      seq := t.seq, res0 := t.res0, res1 := t.res1, res2 := t.res2, res3 := t.res3, res4 := t.res4 }) :
    OneAccess s t := ⟨_, .inr (.inr (.inr ⟨r, change, rfl⟩)), h⟩

theorem pollMsr_oneAccess (seen : Word → Bool) (next : InFlight) (timeout : Status) (p : InFlight) (s : State) :
    OneAccess s (pollMsr seen next timeout p s) := by
  refine oneAccess_read .msr ?_
  unfold pollMsr
  simp only
  split
  · rfl
  · split <;> rfl

theorem initMicro_oneAccess (mode : OpMode) (flags : FeatureFlags) (baud : Nat) (p : InFlight) (s : State) :
    OneAccess s (initMicro mode flags baud p s) := by
  unfold initMicro
  split
  · exact oneAccess_none rfl
  · split
    · exact oneAccess_modify _ _ rfl
    · exact pollMsr_oneAccess ..
    · exact oneAccess_modify _ _ rfl
    · exact pollMsr_oneAccess ..
    · exact oneAccess_modify _ _ rfl
    · exact oneAccess_write _ _ rfl

theorem cfgfMicro_oneAccess (bank : Nat) (scale : FilterScale) (mode : FilterMode) (fifo : Fin 2) (p : InFlight)
    (s : State) : OneAccess s (cfgfMicro bank scale mode fifo p s) := by
  unfold cfgfMicro
  split
  · simp only
    split
    · exact oneAccess_modify _ _ rfl
    · exact oneAccess_modify _ _ rfl
    · exact oneAccess_modify _ _ rfl
    · exact oneAccess_modify _ _ rfl
    · exact oneAccess_write _ _ rfl
    · exact oneAccess_write _ _ rfl
    · exact oneAccess_modify _ _ rfl
    · exact oneAccess_modify _ _ rfl
    · exact oneAccess_modify _ _ rfl
  · exact oneAccess_none rfl

theorem txClaim_oneAccess (ide : Bool) (dlc : Nat) (p : InFlight) (s : State) :
    OneAccess s (txClaim ide dlc p s) := by
  unfold txClaim
  split
  · exact oneAccess_none rfl
  · simp only
    split
    · exact oneAccess_read .tsr rfl
    · exact oneAccess_read .tsr rfl

theorem txMicro_oneAccess (ide rtr tgt : Bool) (dlc : Nat) (p : InFlight) (s : State) :
    OneAccess s (txMicro ide rtr tgt dlc p s) := by
  unfold txMicro
  simp only
  split
  · exact txClaim_oneAccess ..
  · exact oneAccess_write _ _ rfl
  · exact oneAccess_write _ _ rfl
  · exact oneAccess_write _ _ rfl
  · exact oneAccess_write _ _ rfl
  · exact oneAccess_modify _ _ rfl

theorem rxMicro_oneAccess (f : Fin 2) (p : InFlight) (s : State) : OneAccess s (rxMicro f p s) := by
  unfold rxMicro
  simp only
  split
  · unfold rxPending
    simp only
    split
    · exact oneAccess_read (.rfr f) rfl
    · exact oneAccess_read (.rfr f) rfl
  · exact oneAccess_read (.rir f) rfl
  · exact oneAccess_read (.rdtr f) rfl
  · exact oneAccess_read (.rdlr f) rfl
  · exact oneAccess_read (.rdhr f) rfl
  · exact oneAccess_write _ _ rfl

/-- Every micro-operation answers a next state, one register access away at most (R12, R14). -/
theorem exec_oneAccess (i : Instr) (s : State) : ∃ t, exec i s = .next t ∧ OneAccess s t := by
  cases i with
  | init mode flags baud => exact ⟨_, rfl, initMicro_oneAccess ..⟩
  | cfgf bank scale mode fifo => exact ⟨_, rfl, cfgfMicro_oneAccess ..⟩
  | tx ide rtr tgt dlc => exact ⟨_, rfl, txMicro_oneAccess ..⟩
  | rx f => exact ⟨_, rfl, rxMicro_oneAccess ..⟩

/-! ### The micro-operations left -/

/-- The most micro-operations a poll at `p` can still make; it makes one read at least. -/
def pollLeft (limit : Nat) (p : InFlight) : Nat := limit - (p.polls + 1) + 1

/-- The most micro-operations a command at `p` can still make, under a poll bound `limit` (R34). -/
def microsLeft (limit : Nat) (p : InFlight) : Instr → Nat
  | .init _ _ _ =>
    match p.step with
    | 0 => 4 + 2 * limit
    | 1 => 3 + limit + pollLeft limit p
    | 2 => 3 + limit
    | 3 => 2 + pollLeft limit p
    | 4 => 2
    | _ => 1
  | .cfgf _ _ _ _ => 9 - min p.step 8
  | .tx _ _ _ _ => 6 - min p.step 5
  | .rx _ => 6 - min p.step 5

theorem one_le_microsLeft (limit : Nat) (p : InFlight) (i : Instr) : 1 ≤ microsLeft limit p i := by
  cases i with
  | init mode flags baud => simp only [microsLeft]; split <;> omega
  | cfgf bank scale mode fifo => simp only [microsLeft]; omega
  | tx ide rtr tgt dlc => simp only [microsLeft]; omega
  | rx f => simp only [microsLeft]; omega

/-- The bound of R34, from any place: a poll at its start makes at most `limit` reads, and `limit` is at least 1. -/
theorem microsLeft_le {limit : Nat} (hl : 1 ≤ limit) (p : InFlight) (i : Instr) :
    microsLeft limit p i ≤ max 9 (4 + 2 * limit) := by
  cases i with
  | init mode flags baud => simp only [microsLeft, pollLeft]; split <;> omega
  | cfgf bank scale mode fifo => simp only [microsLeft]; omega
  | tx ide rtr tgt dlc => simp only [microsLeft]; omega
  | rx f => simp only [microsLeft]; omega

/-- After the micro-operation the command has ended, or stands at a place with fewer micro-operations left than `n`. -/
def EndsOrNears (limit n : Nat) (i : Instr) (t : State) : Prop :=
  t.seq = .idle ∨ ∃ q, t.seq = .busy q ∧ microsLeft limit q i < n

theorem goto_endsOrNears {limit n : Nat} {i : Instr} {q : InFlight} (h : microsLeft limit q i < n) (s : State) :
    EndsOrNears limit n i (goto q s) := .inr ⟨q, rfl, h⟩

theorem finish_endsOrNears (limit n : Nat) (i : Instr) (st : Status) (mbx : Nat) (s : State) :
    EndsOrNears limit n i (finish st mbx s) := .inl rfl

/-- A poll ends, goes on to the place behind it, or has one read less to make: it fails once the bound is reached. -/
theorem pollMsr_endsOrNears {n : Nat} {i : Instr} {seen : Word → Bool} {next p : InFlight} {timeout : Status} {s : State}
    (hnext : microsLeft s.cfg.val.initPollLimit next i < n)
    (hpoll : p.polls + 1 < s.cfg.val.initPollLimit →
      microsLeft s.cfg.val.initPollLimit { p with polls := p.polls + 1 } i < n) :
    EndsOrNears s.cfg.val.initPollLimit n i (pollMsr seen next timeout p s) := by
  rw [pollMsr_cases]
  split
  · exact goto_endsOrNears hnext s
  · split
    · exact finish_endsOrNears ..
    · next hlim => exact goto_endsOrNears (hpoll (Nat.lt_of_not_le hlim)) s

theorem initMicro_endsOrNears (mode : OpMode) (flags : FeatureFlags) (baud : Nat) (p : InFlight) (s : State) :
    EndsOrNears s.cfg.val.initPollLimit (microsLeft s.cfg.val.initPollLimit p (.init mode flags baud))
      (.init mode flags baud) (initMicro mode flags baud p s) := by
  have hl : 1 ≤ s.cfg.val.initPollLimit := s.cfg.property.2.2.2.2
  unfold initMicro
  split
  · exact finish_endsOrNears ..
  · split
    · next hp => exact goto_endsOrNears (by simp only [microsLeft, pollLeft, hp]; omega) _
    · next hp =>
      exact pollMsr_endsOrNears (by simp only [microsLeft, hp, pollLeft]; omega)
        fun hlim => by simp only [microsLeft, pollLeft, hp]; omega
    · next hp => exact goto_endsOrNears (by simp only [microsLeft, pollLeft, hp]; omega) _
    · next hp =>
      exact pollMsr_endsOrNears (by simp only [microsLeft, hp, pollLeft]; omega)
        fun hlim => by simp only [microsLeft, pollLeft, hp]; omega
    · next hp => exact goto_endsOrNears (by simp only [microsLeft, hp]; omega) _
    · exact finish_endsOrNears ..

theorem cfgfMicro_endsOrNears (limit bank : Nat) (scale : FilterScale) (mode : FilterMode) (fifo : Fin 2) (p : InFlight)
    (s : State) :
    EndsOrNears limit (microsLeft limit p (.cfgf bank scale mode fifo)) (.cfgf bank scale mode fifo)
      (cfgfMicro bank scale mode fifo p s) := by
  have go : ∀ t, p.step < 8 → EndsOrNears limit (microsLeft limit p (.cfgf bank scale mode fifo))
      (.cfgf bank scale mode fifo) (goto { p with step := p.step + 1 } t) :=
    fun t hp => goto_endsOrNears (by simp only [microsLeft]; omega) t
  unfold cfgfMicro
  split
  · simp only
    split
    · exact go _ (by omega)
    · exact go _ (by omega)
    · exact go _ (by omega)
    · exact go _ (by omega)
    · exact go _ (by omega)
    · exact go _ (by omega)
    · exact go _ (by omega)
    · exact go _ (by omega)
    · exact finish_endsOrNears ..
  · exact finish_endsOrNears ..

theorem txMicro_endsOrNears (limit : Nat) (ide rtr tgt : Bool) (dlc : Nat) (p : InFlight) (s : State) :
    EndsOrNears limit (microsLeft limit p (.tx ide rtr tgt dlc)) (.tx ide rtr tgt dlc)
      (txMicro ide rtr tgt dlc p s) := by
  have go : ∀ t, p.step < 5 → EndsOrNears limit (microsLeft limit p (.tx ide rtr tgt dlc))
      (.tx ide rtr tgt dlc) (goto { p with step := p.step + 1 } t) :=
    fun t hp => goto_endsOrNears (by simp only [microsLeft]; omega) t
  unfold txMicro
  simp only
  split
  · next hp =>
    obtain ⟨u, -, ⟨st, h, -⟩ | ⟨-, -, h⟩ | ⟨-, m, -, h⟩⟩ := txClaim_cases ide dlc p s <;> rw [h]
    · exact finish_endsOrNears ..
    · exact finish_endsOrNears ..
    · exact goto_endsOrNears (by simp only [microsLeft]; omega) u
  · exact go _ (by omega)
  · exact go _ (by omega)
  · exact go _ (by omega)
  · exact go _ (by omega)
  · exact finish_endsOrNears ..

theorem rxMicro_endsOrNears (limit : Nat) (f : Fin 2) (p : InFlight) (s : State) :
    EndsOrNears limit (microsLeft limit p (.rx f)) (.rx f) (rxMicro f p s) := by
  have go : ∀ {q : InFlight} t, p.step < q.step → p.step < 5 →
      EndsOrNears limit (microsLeft limit p (.rx f)) (.rx f) (goto q t) :=
    fun t hq hp => goto_endsOrNears (by simp only [microsLeft]; omega) t
  unfold rxMicro
  simp only
  split
  · next hp =>
    unfold rxPending
    simp only
    split
    · exact finish_endsOrNears ..
    · exact go _ (by simp [hp]) (by omega)
  · next hp => exact go _ (by simp [hp]) (by omega)
  · next hp => exact go _ (by simp [hp]) (by omega)
  · next hp => exact go _ (by simp [hp]) (by omega)
  · next hp => exact go _ (by simp [hp]) (by omega)
  · exact finish_endsOrNears ..

/-- Every micro-operation ends its command or brings it nearer to its end. -/
theorem exec_endsOrNears (i : Instr) (s : State) :
    ∃ t, exec i s = .next t ∧
      EndsOrNears s.cfg.val.initPollLimit (microsLeft s.cfg.val.initPollLimit s.pos i) i t := by
  cases i with
  | init mode flags baud => exact ⟨_, rfl, initMicro_endsOrNears ..⟩
  | cfgf bank scale mode fifo => exact ⟨_, rfl, cfgfMicro_endsOrNears ..⟩
  | tx ide rtr tgt dlc => exact ⟨_, rfl, txMicro_endsOrNears ..⟩
  | rx f => exact ⟨_, rfl, rxMicro_endsOrNears ..⟩

/-- A command completes within any number of micro-operations that its place leaves enough of. -/
theorem completes_within (i : Instr) (k : Nat) (s : State) (h : microsLeft s.cfg.val.initPollLimit s.pos i ≤ k) :
    ∃ n t, n ≤ k ∧ Completes i n s t := by
  induction k generalizing s with
  | zero =>
    have := one_le_microsLeft s.cfg.val.initPollLimit s.pos i
    omega
  | succ k ih =>
    obtain ⟨u, hu, hidle | ⟨q, hq, hlt⟩⟩ := exec_endsOrNears i s
    · exact ⟨1, u, by omega, completes_one hu hidle⟩
    · obtain ⟨hcfg, -⟩ := exec_keeps hu
      obtain ⟨n, t, hn, hc⟩ := ih u (by rw [hcfg, pos_of_busy hq]; omega)
      cases n with
      | zero => exact hc.elim
      | succ n => exact ⟨n + 2, t, by omega, completes_go hu hq hc⟩

/-- A run of `n + 1` steps is its first step and a run of `n`. -/
theorem run_succ_of_step {s u : State} (h : step s = .next u) (n : Nat) :
    Host.Core.run core (n + 1) s = Host.Core.run core n u := by
  have hs : core.step s = .next u := h
  simp only [Host.Core.run, hs]

/-- With nothing scheduled, the machine's steps are the micro-operations of the command in flight. -/
theorem run_of_completes {i : Instr} {n : Nat} {s t : State} (hb : s.seq ≠ .idle) (ha : s.agenda = [])
    (hd : decode s.cmd = .ok i) (hc : Completes i n s t) : Host.Core.run core n s = .next t := by
  induction n generalizing s with
  | zero => exact hc.elim
  | succ n ih =>
    have hstep : step s = exec i s := step_eq_exec hb hd (by simp [ha])
    cases n with
    | zero => exact run_succ_of_step (hstep.trans hc.1) 0
    | succ n =>
      obtain ⟨u, hu, hub, hk⟩ := hc
      obtain ⟨-, hagenda, hcmd, -⟩ := exec_keeps hu
      rw [run_succ_of_step (hstep.trans hu)]
      exact ih hub (hagenda.trans ha) (hcmd.symm ▸ hd) hk

end Sys2Proof.Machine

/-- Settles O11: the micro-operations left go down with each one, and with nothing scheduled each is a step. -/
theorem everyCommandEnds : Obligations.EveryCommandEnds :=
  ⟨exec_oneAccess, fun i s => completes_within i _ s (microsLeft_le s.cfg.property.2.2.2.2 s.pos i),
    fun _ _ _ _ hb ha hd hc => run_of_completes hb ha hd hc⟩
end

section
/-! PROOF. The decoder gives back the command its word was written from (used by O5). -/

namespace Sys2Proof.Machine

open Sys2Proof.Laws.EncodeMatches (bit_of_fits)

theorem bit_flagsCode (f : FeatureFlags) {j : Nat} (h : 6 ≤ j) : bit f.code j = false := by
  simp [FeatureFlags.code, show j ≠ 0 by omega, show j - 1 ≠ 0 by omega, show j - 2 ≠ 0 by omega,
    show j - 3 ≠ 0 by omega, show j - 4 ≠ 0 by omega, show j - 5 ≠ 0 by omega]

theorem opMode_code_lt (mode : OpMode) : mode.code.toNat < 2 ^ 2 := by cases mode <;> decide

theorem bit_modeCode (mode : OpMode) {j : Nat} (h : 2 ≤ j) : bit mode.code j = false := by
  simpa using bit_of_fits (opMode_code_lt mode) h

theorem ofField_code (mode : OpMode) : OpMode.ofField mode.code.toNat = mode := by cases mode <;> rfl

/-- The four pieces of an INIT word do not overlap (R122). -/
theorem bit_encode_init (mode : OpMode) (flags : FeatureFlags) (baud : Nat) {j : Nat} (h : j < 32) :
    bit (encode (.init mode flags baud)) j =
      if j < 4 then decide (j = 0) else if j < 6 then bit mode.code (j - 4)
      else if j < 16 then bit flags.code (j - 6) else baud.testBit (j - 16) := by
  have one : bit 1#32 j = decide (j = 0) := by rw [bit_ofNat, testBit_one]; simp [h]
  simp only [encode, bit_or, bit_shiftLeft, bit_ofNat, one, h, decide_true, Bool.true_and]
  by_cases h4 : j < 4
  · simp [h4, show j < 6 by omega, show j < 16 by omega]
  · have h0 : j ≠ 0 := by omega
    by_cases h6 : j < 6
    · simp [h4, h6, h0, show j < 16 by omega]
    · rw [bit_modeCode mode (show 2 ≤ j - 4 by omega)]
      by_cases h16 : j < 16
      · simp [h4, h6, h16, h0]
      · rw [bit_flagsCode flags (show 6 ≤ j - 6 by omega)]
        simp [h4, h6, h16, h0, show j - 16 < 32 by omega]

theorem field_mode_encode_init (mode : OpMode) (flags : FeatureFlags) (baud : Nat) :
    field (encode (.init mode flags baud)) 5 4 = mode.code := by
  refine word_ext fun j hj => ?_
  rw [bit_field]
  by_cases h : j < 2
  · rw [bit_encode_init _ _ _ (by omega)]
    simp [h, hj, show ¬ 4 + j < 4 by omega, show 4 + j < 6 by omega]
  · rw [bit_modeCode mode (by omega)]
    simp [h]

theorem field_baud_encode_init (mode : OpMode) (flags : FeatureFlags) {baud : Nat} (hb : baud < 256) :
    field (encode (.init mode flags baud)) 23 16 = BitVec.ofNat 32 baud := by
  refine word_ext fun j hj => ?_
  rw [bit_field]
  by_cases h : j < 8
  · rw [bit_encode_init _ _ _ (by omega), bit_ofNat]
    simp [h, hj, show ¬ 16 + j < 4 by omega, show ¬ 16 + j < 6 by omega, show ¬ 16 + j < 16 by omega]
  · rw [bit_of_fits (n := 8) hb (by omega)]
    simp [h]

theorem flags_encode_init (mode : OpMode) (flags : FeatureFlags) (baud : Nat) :
    let w := encode (.init mode flags baud)
    (⟨bit w 6, bit w 7, bit w 8, bit w 9, bit w 10, bit w 11⟩ : FeatureFlags) = flags := by
  simp [bit_encode_init, FeatureFlags.code]

theorem decode_encode_init (mode : OpMode) (flags : FeatureFlags) {baud : Nat} (hb : baud < 256) :
    decode (encode (.init mode flags baud)) = .ok (.init mode flags baud) := by
  have row : rowInit.accepts (encode (.init mode flags baud)) = true :=
    Laws.EncodeMatches.init mode flags baud (decide_eq_true hb)
  have hbaud : (BitVec.ofNat 32 baud).toNat = baud := by rw [BitVec.toNat_ofNat]; omega
  rw [decode, if_pos row, decodeInit, flags_encode_init, field_mode_encode_init, field_baud_encode_init _ _ hb,
    ofField_code, hbaud]

theorem decode_encode_cfgf (scale : FilterScale) (mode : FilterMode) (fifo : Fin 2) {bank : Nat} (hb : bank < 32) :
    decode (encode (.cfgf bank scale mode fifo)) = .ok (.cfgf bank scale mode fifo) := by
  have all : ∀ b < 32, ∀ f : Fin 2, decode (encode (.cfgf b scale mode f)) = .ok (.cfgf b scale mode f) := by
    cases scale <;> cases mode <;> decide
  exact all bank hb fifo

theorem decode_encode_tx (ide rtr tgt : Bool) {dlc : Nat} (hd : dlc < 16) :
    decode (encode (.tx ide rtr tgt dlc)) = .ok (.tx ide rtr tgt dlc) := by
  have all : ∀ d < 16, ∀ x y z : Bool, decode (encode (.tx x y z d)) = .ok (.tx x y z d) := by decide
  exact all dlc hd ide rtr tgt

theorem decode_encode_rx (fifo : Fin 2) : decode (encode (.rx fifo)) = .ok (.rx fifo) := by
  revert fifo
  decide

/-- R133: a well-formed command comes back from its word. -/
theorem decode_encode {i : Instr} (h : i.wellFormed = true) : decode (encode i) = .ok i := by
  cases i with
  | init mode flags baud => exact decode_encode_init mode flags (of_decide_eq_true h)
  | cfgf bank scale mode fifo => exact decode_encode_cfgf scale mode fifo (of_decide_eq_true h)
  | tx ide rtr tgt dlc => exact decode_encode_tx ide rtr tgt (of_decide_eq_true h)
  | rx fifo => exact decode_encode_rx fifo

end Sys2Proof.Machine
end

section
/-! PROOF. The textual lines: each reads as the line it is and issues its command (O5). -/

open Sys2Proof Sys2Proof.Machine

namespace Sys2Proof.Machine

/-! ### The operands of a line as texts -/

theorem numberText_reads {n : Nat} {t : Text} (h : NumberText n t) : number t = some n := by
  rcases h with ⟨ds, hne, rfl, rfl⟩ | ⟨ds, rest, hne, rfl, hr, rfl⟩
  · exact number_decimal ds hne
  · exact number_hexadecimal ds rest hne hr

theorem wordText_reads {w : Word} {t : Text} (h : NumberText w.toNat t) : wordOperand t = some w :=
  wordOperand_of_number (numberText_reads h)

/-- A character that breaks no piece of a line. -/
def Plain (c : Char) : Bool := c != ' ' && c != ',' && c != ';'

/-- Whether a text is a piece of a line, as a computation. -/
def isToken (t : Text) : Bool := t != [] && t.all Plain

theorem token_of_plain {t : Text} (hne : t ≠ []) (h : ∀ c ∈ t, Plain c = true) : Token t :=
  ⟨hne, fun c hc => by simpa [Plain, and_assoc] using h c hc⟩

theorem token_of_isToken {t : Text} (h : isToken t = true) : Token t := by
  rw [isToken, Bool.and_eq_true, List.all_eq_true] at h
  exact token_of_plain (by simpa using h.1) h.2

theorem numberText_token {n : Nat} {t : Text} (h : NumberText n t) : Token t := by
  rcases h with ⟨ds, hne, rfl, -⟩ | ⟨ds, rest, -, rfl, hr, -⟩
  · have dec : ∀ d : Fin 10, Plain (Nat.digitChar d.val) = true := by decide
    refine token_of_plain (by simpa using hne) fun c hc => ?_
    obtain ⟨d, -, rfl⟩ := List.mem_map.1 hc
    exact dec d
  · have hex : ∀ d : Fin 16, Plain (Nat.digitChar d.val) = true ∧ Plain (Nat.digitChar d.val).toUpper = true := by decide
    have digitsPlain : ∀ c ∈ rest.filter (· != '_'), Plain c = true := by
      refine ((List.forall₂_and_left _ ds).1 (hr.imp fun c d hc => ⟨?_, hc⟩)).1
      rcases hc with rfl | rfl
      · exact (hex d).1
      · exact (hex d).2
    have restPlain : ∀ c ∈ rest, Plain c = true := by
      intro c hc
      by_cases hu : c = '_'
      · rw [hu]; decide
      · exact digitsPlain c (List.mem_filter.2 ⟨hc, by simpa using hu⟩)
    refine token_of_plain (List.cons_ne_nil _ _) (List.forall_mem_cons.2 ⟨by decide, ?_⟩)
    exact List.forall_mem_cons.2 ⟨by decide, restPlain⟩

/-- A number's text is no word that reads as no number. -/
theorem numberText_ne {n : Nat} {t u : Text} (h : NumberText n t) (hu : number u = none) : t ≠ u := by
  rintro rfl
  rw [numberText_reads h] at hu
  cases hu

theorem modeText_token (m : OpMode) : Token (modeText m) := by
  cases m <;> exact token_of_isToken (by decide)
theorem scaleText_token (x : FilterScale) : Token (scaleText x) := by
  cases x <;> exact token_of_isToken (by decide)
theorem fmodeText_token (x : FilterMode) : Token (fmodeText x) := by
  cases x <;> exact token_of_isToken (by decide)
theorem fifoText_token (f : Fin 2) : Token (fifoText f) := by
  fin_cases f <;> exact token_of_isToken (by decide)
theorem ideText_token (b : Bool) : Token (ideText b) := by
  cases b <;> exact token_of_isToken (by decide)

theorem modeText_reads (m : OpMode) : modeOperand (modeText m) = some m := by cases m <;> decide
theorem scaleText_reads (x : FilterScale) : scaleOperand (scaleText x) = some x := by cases x <;> decide
theorem fmodeText_reads (x : FilterMode) : filterModeOperand (fmodeText x) = some x := by cases x <;> decide
theorem fifoText_reads (f : Fin 2) : fifoOperand (fifoText f) = some f := by revert f; decide
theorem ideText_reads (b : Bool) : ideOperand (ideText b) = some b := by revert b; decide

/-! ### Optional words -/

theorem mem_flagText {name : String} {b : Bool} {t : Text} (h : t ∈ flagText name b) : t = name.toList := by
  cases b
  · cases h
  · exact List.mem_singleton.1 h

/-- An optional word is taken if it is there, and nothing else is. -/
theorem namedOperand_flagText (name : String) (b : Bool) {rest : List Text} (h : name.toList ∉ rest) :
    namedOperand name.toList (flagText name b ++ rest) = (b, rest) := by
  cases b with
  | true => exact if_pos rfl
  | false =>
    cases rest with
    | nil => rfl
    | cons t rest => exact if_neg fun e : t = name.toList => h (e ▸ List.mem_cons_self)

theorem flagText_tokens {name : String} (hn : Token name.toList) (b : Bool) : ∀ t ∈ flagText name b, Token t :=
  fun _ ht => mem_flagText ht ▸ hn

theorem flagTexts_tokens (f : FeatureFlags) : ∀ t ∈ flagTexts f, Token t := by
  have all : ∀ a b c d e g : Bool, (flagTexts ⟨a, b, c, d, e, g⟩).all isToken = true := by decide
  exact fun t ht => token_of_isToken (List.all_eq_true.1 (all ..) t ht)

theorem flagTexts_read (f : FeatureFlags) : flagOperands (flagTexts f) = some f := by
  have all : ∀ a b c d e g : Bool, flagOperands (flagTexts ⟨a, b, c, d, e, g⟩) = some ⟨a, b, c, d, e, g⟩ := by decide
  exact all ..

/-! ### Lines -/

/-- What a line with a name and operands reads as: the dispatch of `parseLine`. -/
def parseCommand (name : Text) (ops : List Text) : Option Line :=
  if name = ['I', 'N', 'I', 'T'] then parseInit ops
  else if name = ['C', 'F', 'G', 'F'] then parseCfgf ops
  else if name = ['T', 'X'] then parseTx ops
  else if name = ['R', 'X'] then
    match ops with
    | [f] => (fifoOperand f).map .rx
    | _ => none
  else if name = ['R', 'D'] then
    match ops with
    | [off] => (number off).map .rd
    | _ => none
  else if name = ['W', 'R'] then
    match ops with
    | [off, v] => do
      let o ← number off
      let w ← wordOperand v
      some (.wr o w)
    | _ => none
  else if name = ['C', 'F', 'G', 'F', '.', 'A', 'L', 'L'] then parseCfgfAll ops
  else if name = ['T', 'X', 'R'] then parseTxr ops
  else none

theorem parseLine_eq (line : Text) :
    let t := trim (line.takeWhile (· != ';'))
    parseLine line = parseCommand (t.takeWhile (· != ' ')) (operands (t.dropWhile (· != ' '))) := rfl

/-- The text of a line reads as what its name makes of its operands. -/
theorem parseLine_lineText {name : String} {ops : List Text} {comment : Text} (hn : isToken name.toList = true)
    (hne : ops ≠ []) (ht : ∀ t ∈ ops, Token t) (hc : comment = [] ∨ comment.head? = some ';') :
    parseLine (lineText name ops comment) = parseCommand name.toList ops := by
  obtain ⟨hname, hops⟩ := line_parts (token_of_isToken hn) hne ht hc
  rw [parseLine_eq]
  exact congrArg₂ parseCommand hname hops

theorem parseInit_reads (mode : OpMode) (flags : FeatureFlags) {baud : Nat} {b : Text} (hb : NumberText baud b)
    (h : baud < 256) : parseInit (modeText mode :: b :: flagTexts flags) = some (.init mode baud flags) := by
  simp [parseInit, modeText_reads, numberText_reads hb, flagTexts_read, baudFits, h]

theorem parseCfgf_reads (scale : FilterScale) (mode : FilterMode) (fifo : Fin 2) {bank : Nat} {fr1 fr2 : Word}
    {b r1 r2 : Text} (hb : NumberText bank b) (h : bank < 32) (h1 : NumberText fr1.toNat r1)
    (h2 : NumberText fr2.toNat r2) :
    parseCfgf [b, scaleText scale, fmodeText mode, fifoText fifo, r1, r2] = some (.cfgf bank scale mode fifo fr1 fr2) := by
  simp [parseCfgf, numberText_reads hb, scaleText_reads, fmodeText_reads, fifoText_reads, wordText_reads h1,
    wordText_reads h2, bankFits, h]

/-- The two optional words of TX are taken apart from the payload words behind them. -/
theorem namedOperands_tx (rtr tgt : Bool) {lo hi : Nat} {l h : Text} (hl : NumberText lo l) (hh : NumberText hi h) :
    namedOperand ['r', 't', 'r'] (flagText "rtr" rtr ++ flagText "tgt" tgt ++ [l, h]) =
        (rtr, flagText "tgt" tgt ++ [l, h]) ∧
      namedOperand ['t', 'g', 't'] (flagText "tgt" tgt ++ [l, h]) = (tgt, [l, h]) := by
  have word : ∀ u : Text, number u = none → u ∉ [l, h] := by
    intro u hu hm
    simp only [List.mem_cons, List.not_mem_nil, or_false] at hm
    rcases hm with e | e
    · exact numberText_ne hl hu e.symm
    · exact numberText_ne hh hu e.symm
  have tgtText : "rtr".toList ∉ flagText "tgt" tgt := fun hm => absurd (mem_flagText hm) (by decide)
  rw [List.append_assoc]
  exact ⟨namedOperand_flagText "rtr" rtr (List.not_mem_append tgtText (word _ (by decide))),
    namedOperand_flagText "tgt" tgt (word _ (by decide))⟩

theorem parseTx_reads (ide rtr tgt : Bool) {dlc : Nat} {id lo hi : Word} {d i l h : Text} (hd : NumberText dlc d)
    (hfit : dlc < 16) (hi' : NumberText id.toNat i) (hl : NumberText lo.toNat l) (hh : NumberText hi.toNat h) :
    parseTx ([ideText ide, i, d] ++ flagText "rtr" rtr ++ flagText "tgt" tgt ++ [l, h]) =
      some (.tx ide id dlc rtr tgt lo hi) := by
  obtain ⟨hrtr, htgt⟩ := namedOperands_tx rtr tgt hl hh
  simp only [List.append_assoc] at hrtr
  simp [parseTx, hrtr, htgt, ideText_reads, wordText_reads hi', numberText_reads hd, wordText_reads hl,
    wordText_reads hh, dlcFits, hfit]

theorem parseTxr_reads (ide : Bool) {dlc : Nat} {id : Word} {d i : Text} (hd : NumberText dlc d) (hfit : dlc < 16)
    (hi : NumberText id.toNat i) : parseTxr [ideText ide, i, d] = some (.txr ide id dlc) := by
  simp [parseTxr, ideText_reads, wordText_reads hi, numberText_reads hd, dlcFits, hfit]

theorem parseCfgfAll_reads (fifo : Fin 2) {bank : Nat} {b : Text} (hb : NumberText bank b) (h : bank < 32) :
    parseCfgfAll [b, fifoText fifo] = some (.cfgfAll bank fifo) := by
  simp [parseCfgfAll, numberText_reads hb, fifoText_reads, bankFits, h]

theorem linesRead : LinesRead := by
  intro comment hc
  refine ⟨fun mode flags baud b hb hfit => ?_, fun scale mode fifo bank b fr1 fr2 r1 r2 hb hfit h1 h2 => ?_,
    fun ide rtr tgt dlc d id lo hi i l h hd hfit hi' hl hh => ?_, fun fifo => ?_, fun off o ho => ?_,
    fun off o v w ho hw => ?_, fun fifo bank b hb hfit => ?_, fun ide dlc d id i hd hfit hi => ?_⟩
  · rw [parseLine_lineText (by decide) (by simp) ?_ hc]
    · exact parseInit_reads mode flags hb hfit
    · simpa [modeText_token, numberText_token hb] using flagTexts_tokens flags
  · rw [parseLine_lineText (by decide) (by simp) ?_ hc]
    · exact parseCfgf_reads scale mode fifo hb hfit h1 h2
    · simp [numberText_token hb, numberText_token h1, numberText_token h2, scaleText_token, fmodeText_token,
        fifoText_token]
  · rw [parseLine_lineText (by decide) (by simp) ?_ hc]
    · exact parseTx_reads ide rtr tgt hd hfit hi' hl hh
    · have hr := flagText_tokens (name := "rtr") (token_of_isToken (by decide)) rtr
      have ht := flagText_tokens (name := "tgt") (token_of_isToken (by decide)) tgt
      simpa [or_imp, forall_and, numberText_token hd, numberText_token hi', numberText_token hl, numberText_token hh,
        ideText_token] using ⟨hr, ht⟩
  · rw [parseLine_lineText (by decide) (by simp) (by simp [fifoText_token]) hc]
    show (fifoOperand (fifoText fifo)).map Line.rx = _
    rw [fifoText_reads]; rfl
  · rw [parseLine_lineText (by decide) (by simp) (by simp [numberText_token ho]) hc]
    show (number o).map Line.rd = _
    rw [numberText_reads ho]; rfl
  · rw [parseLine_lineText (by decide) (by simp) (by simp [numberText_token ho, numberText_token hw]) hc]
    show (number o).bind (fun o => (wordOperand w).bind fun w => some (Line.wr o w)) = _
    rw [numberText_reads ho, wordText_reads hw]; rfl
  · rw [parseLine_lineText (by decide) (by simp) (by simp [numberText_token hb, fifoText_token]) hc]
    exact parseCfgfAll_reads fifo hb hfit
  · rw [parseLine_lineText (by decide) (by simp)
      (by simp [numberText_token hd, numberText_token hi, ideText_token]) hc]
    exact parseTxr_reads ide hd hfit hi

/-! ### What reads as a line fits its fields (log entry 18) -/

/-- The number operands that a command word holds fit their fields. -/
def Line.Fits : Line → Prop
  | .init _ baud _ => baud < 256
  | .cfgf bank _ _ _ _ _ | .cfgfAll bank _ => bank < 32
  | .tx _ _ dlc _ _ _ _ | .txr _ _ dlc => dlc < 16
  | .rx _ | .rd _ | .wr _ _ => True

theorem parseInit_fits {ops : List Text} {l : Line} (h : parseInit ops = some l) : l.Fits := by
  unfold parseInit at h
  split at h
  · simp only [Option.bind_eq_bind, Option.bind_eq_some_iff, Option.ite_none_right_eq_some] at h
    obtain ⟨m, -, b, -, f, -, hfit, hl⟩ := h
    cases hl
    simpa [Line.Fits, baudFits] using hfit
  · cases h

theorem parseCfgf_fits {ops : List Text} {l : Line} (h : parseCfgf ops = some l) : l.Fits := by
  unfold parseCfgf at h
  split at h
  · simp only [Option.bind_eq_bind, Option.bind_eq_some_iff, Option.ite_none_right_eq_some] at h
    obtain ⟨b, -, s, -, m, -, f, -, r1, -, r2, -, hfit, hl⟩ := h
    cases hl
    simpa [Line.Fits, bankFits] using hfit
  · cases h

theorem parseTx_fits {ops : List Text} {l : Line} (h : parseTx ops = some l) : l.Fits := by
  unfold parseTx at h
  split at h
  · simp only at h
    split at h
    · simp only [Option.bind_eq_bind, Option.bind_eq_some_iff, Option.ite_none_right_eq_some] at h
      obtain ⟨e, -, i, -, d, -, lo, -, hi, -, hfit, hl⟩ := h
      cases hl
      simpa [Line.Fits, dlcFits] using hfit
    · cases h
  · cases h

theorem parseTxr_fits {ops : List Text} {l : Line} (h : parseTxr ops = some l) : l.Fits := by
  unfold parseTxr at h
  split at h
  · simp only [Option.bind_eq_bind, Option.bind_eq_some_iff, Option.ite_none_right_eq_some] at h
    obtain ⟨e, -, i, -, d, -, hfit, hl⟩ := h
    cases hl
    simpa [Line.Fits, dlcFits] using hfit
  · cases h

theorem parseCfgfAll_fits {ops : List Text} {l : Line} (h : parseCfgfAll ops = some l) : l.Fits := by
  unfold parseCfgfAll at h
  split at h
  · simp only [Option.bind_eq_bind, Option.bind_eq_some_iff, Option.ite_none_right_eq_some] at h
    obtain ⟨b, -, f, -, hfit, hl⟩ := h
    cases hl
    simpa [Line.Fits, bankFits] using hfit
  · cases h

theorem parseCommand_fits {name : Text} {ops : List Text} {l : Line} (h : parseCommand name ops = some l) : l.Fits := by
  unfold parseCommand at h
  split at h
  · exact parseInit_fits h
  split at h
  · exact parseCfgf_fits h
  split at h
  · exact parseTx_fits h
  split at h
  · split at h
    · obtain ⟨f, -, rfl⟩ := Option.map_eq_some_iff.1 h; trivial
    · cases h
  split at h
  · split at h
    · obtain ⟨off, -, rfl⟩ := Option.map_eq_some_iff.1 h; trivial
    · cases h
  split at h
  · split at h
    · simp only [Option.bind_eq_bind, Option.bind_eq_some_iff] at h
      obtain ⟨o, -, w, -, hl⟩ := h
      cases hl
      trivial
    · cases h
  split at h
  · exact parseCfgfAll_fits h
  split at h
  · exact parseTxr_fits h
  · cases h

end Sys2Proof.Machine

/-- Settles O5: the decoder gives each issued command back, the reader takes each text apart into the operands it was put
together from, and each parser checks its field. -/
theorem linesIssueTheirCommands : Obligations.LinesIssueTheirCommands := by
  refine ⟨fun mode baud flags hb => ⟨_, _, _, _, rfl, decode_encode (decide_eq_true hb)⟩,
    fun bank scale mode fifo fr1 fr2 hb => ⟨_, _, rfl, decode_encode (decide_eq_true hb)⟩,
    fun ide id dlc rtr tgt lo hi hd => ⟨_, rfl, decode_encode (decide_eq_true hd)⟩,
    fun fifo => ⟨_, _, _, _, rfl, decode_encode rfl⟩, fun off v => ⟨rfl, rfl⟩, fun bank fifo => rfl,
    fun ide id dlc => rfl, linesRead, fun text l h => ?_⟩
  have fits : l.Fits := parseCommand_fits ((parseLine_eq text).symm.trans h)
  cases l <;> exact fits
end

section
/-! PROOF. What the step of each agent can be, and that none of them breaks the consistency of the register file or changes
the parameters (O58, O60). -/

open Sys2Proof Sys2Proof.Machine

namespace Sys2Proof.Machine

/-! ### Who makes a step, and what the host can do -/

/-- A host read at any offset only draws. -/
theorem memRead_frame (off : Nat) (s : State) : DrawnFrom s (memRead off s).2 := by
  unfold memRead
  split
  · exact readReg_frame ..
  · exact .refl s

/-- A host write is the write of a register, or nothing (R55). -/
theorem memWrite_cases (off : Nat) (v : Word) (s : State) :
    memWrite off v s = s ∨ ∃ r, memWrite off v s = writeReg r v s := by
  unfold memWrite
  split
  · next r _ => exact .inr ⟨r, rfl⟩
  · exact .inl rfl

/-- What a host action that the port accepts can be: an issue, words shown, or one register write (R96). -/
theorem hostAct_cases {a : HostAction} {s t : State} (h : hostAct a s = .next t) :
    (∃ cmd a0 a1 a2, t = issue cmd a0 a1 a2 s) ∨ (∃ ws u, DrawnFrom s u ∧ t = shown ws u) ∨ t = s ∨
      ∃ r v, t = writeReg r v s := by
  cases a with
  | issue cmd a0 a1 a2 => cases h; exact .inl ⟨cmd, a0, a1, a2, rfl⟩
  | result => cases h; exact .inr (.inl ⟨_, s, .refl s, rfl⟩)
  | memRead off width =>
    simp only [hostAct] at h
    split at h
    · cases h; exact .inr (.inl ⟨_, _, memRead_frame off s, rfl⟩)
    · cases h
  | memWrite off width v =>
    simp only [hostAct] at h
    split at h
    · cases h
      rcases memWrite_cases off v s with e | ⟨r, e⟩
      · exact .inr (.inr (.inl e))
      · exact .inr (.inr (.inr ⟨r, v, e⟩))
    · cases h

/-- What a step of the machine can be: nothing, a micro-operation, the end of an illegal command, a host action or an
event (R14). -/
theorem step_agents {s t : State} (h : step s = .next t) :
    t = s ∨ (∃ i, exec i (elapse s) = .next t) ∨ t = raise .illegalCommand (elapse s) ∨
      (∃ a rest, hostAct a { s with agenda := rest } = .next t) ∨ ∃ e rest, t = fire e { s with agenda := rest } := by
  rcases step_cases h with h | ⟨⟨_, move⟩, rest, -, -, h⟩
  · rcases sequencer_cases h with ⟨-, e⟩ | ⟨i, -, -, e⟩ | ⟨_, -, -, e⟩
    · exact .inl e
    · exact .inr (.inl ⟨i, e⟩)
    · exact .inr (.inr (.inl e))
  · cases move with
    | host a => exact .inr (.inr (.inr (.inl ⟨a, rest, h⟩)))
    | env e => cases h; exact .inr (.inr (.inr (.inr ⟨e, rest, rfl⟩)))

/-! ### Consistency -/

theorem issue_consistent {s : State} (k : s.Consistent) (cmd a0 a1 a2 : Word) : (issue cmd a0 a1 a2 s).Consistent :=
  k.congr rfl rfl rfl rfl rfl rfl rfl rfl rfl rfl rfl rfl rfl rfl rfl rfl

theorem shown_consistent {s : State} (k : s.Consistent) (ws : List Word) : (shown ws s).Consistent :=
  k.congr rfl rfl rfl rfl rfl rfl rfl rfl rfl rfl rfl rfl rfl rfl rfl rfl

theorem agenda_consistent {s : State} (k : s.Consistent) (l : List Turn) : ({ s with agenda := l } : State).Consistent :=
  k.congr rfl rfl rfl rfl rfl rfl rfl rfl rfl rfl rfl rfl rfl rfl rfl rfl

/-- A micro-operation of any command keeps the register file consistent. -/
theorem exec_consistent {i : Instr} {s t : State} (k : s.Consistent) (h : exec i s = .next t) : t.Consistent := by
  cases i with
  | init mode flags baud => cases h; exact initMicro_consistent k ..
  | cfgf bank scale mode fifo => cases h; exact cfgfMicro_consistent k ..
  | tx ide rtr tgt dlc => cases h; exact txMicro_consistent k ..
  | rx f => cases h; exact rxMicro_consistent k ..

/-- A host action keeps the register file consistent. -/
theorem hostAct_consistent {a : HostAction} {s t : State} (k : s.Consistent) (h : hostAct a s = .next t) :
    t.Consistent := by
  rcases hostAct_cases h with ⟨cmd, a0, a1, a2, rfl⟩ | ⟨ws, u, hu, rfl⟩ | rfl | ⟨r, v, rfl⟩
  · exact issue_consistent k ..
  · exact shown_consistent (hu.consistent k) ws
  · exact k
  · exact writeReg_consistent k r v

/-! ### The parameters -/

theorem DrawnFrom.cfg {s t : State} (h : DrawnFrom s t) : t.cfg = s.cfg := by
  obtain ⟨_, _, rfl⟩ := h
  rfl

theorem writeMcr_cfg (v : Word) (s : State) : (writeMcr v s).cfg = s.cfg := by
  unfold writeMcr
  split
  · exact masterReset_cfg s
  · rfl

theorem writeRfr_cfg (f : Fin 2) (v : Word) (s : State) : (writeRfr f v s).cfg = s.cfg := by
  unfold writeRfr
  simp only
  split <;> rfl

theorem writeTir_cfg (i : Fin 3) (v : Word) (s : State) : (writeTir i v s).cfg = s.cfg := by
  rw [(tx_tir_frame i v s).1.1]

/-- No register write changes the parameters (R30). -/
theorem writeReg_cfg (r : Reg) (v : Word) (s : State) : (writeReg r v s).cfg = s.cfg := by
  cases r with
  | mcr => exact writeMcr_cfg v s
  | rfr f => exact writeRfr_cfg f v s
  | tir i => exact writeTir_cfg i v s
  | btr | tdtr | tdlr | tdhr | fm1r | fs1r | ffa1r | fr1 | fr2 => simp only [writeReg]; split <;> rfl
  | msr | tsr | ier | esr | rir | rdtr | rdlr | rdhr | fmr | fa1r => rfl

theorem offer_cfg (fr : Frame) (t : BitVec 16) (s : State) : (offer fr t s).cfg = s.cfg := by
  obtain ⟨u, hu, h | ⟨f, q, h⟩⟩ := offer_eq fr t s
  · rw [h, hu.cfg]
  · rw [h, setFifo_cfg, hu.cfg]

theorem captureTime_cfg (s : State) : (captureTime s).cfg = s.cfg := (draw_frame s).cfg

theorem transmitted_cfg (i : Fin 3) (ok : Bool) (s : State) : (transmitted i ok s).2.cfg = s.cfg :=
  calc (transmitted i ok s).2.cfg = (frameOfMailbox i (captureTime s)).2.cfg := (drawLoss_frame ok _).cfg
    _ = (captureTime s).cfg := (frameOfMailbox_frame i _).cfg
    _ = s.cfg := captureTime_cfg s

theorem txDone_cfg (i : Fin 3) (ok : Bool) (s : State) : (txDone i ok s).cfg = s.cfg := by
  unfold txDone
  simp only
  split
  · rw [offer_cfg, transmitted_cfg]
  · exact transmitted_cfg i ok s

theorem statusDrift_cfg (s : State) : (statusDrift s).cfg = s.cfg := by
  obtain ⟨a, b, c, tape, n, h⟩ := statusDrift_eq s
  rw [h]

/-- No event changes the parameters. -/
theorem effect_cfg (e : EnvEvent) (s : State) : (effect e s).cfg = s.cfg := by
  cases e with
  | txDone i ok => exact txDone_cfg i ok s
  | rxFrame f => exact (offer_cfg f _ _).trans (captureTime_cfg s)
  | statusDrift => exact statusDrift_cfg s
  | sleepExit | initEnter | initExit | sleepEnter | wakeup | txAbort | none => rfl

theorem fire_cfg (e : EnvEvent) (s : State) : (fire e s).cfg = s.cfg := by
  unfold fire
  split
  · exact effect_cfg e s
  · rfl

theorem hostAct_cfg {a : HostAction} {s t : State} (h : hostAct a s = .next t) : t.cfg = s.cfg := by
  rcases hostAct_cases h with ⟨cmd, a0, a1, a2, rfl⟩ | ⟨ws, u, hu, rfl⟩ | rfl | ⟨r, v, rfl⟩
  · rfl
  · exact hu.cfg
  · rfl
  · exact writeReg_cfg r v s

end Sys2Proof.Machine

/-- Settles O58: each agent's step keeps the register file consistent. -/
theorem stepKeepsConsistent : Obligations.StepKeepsConsistent := by
  intro s t k h
  rcases step_agents h with rfl | ⟨i, h⟩ | rfl | ⟨a, rest, h⟩ | ⟨e, rest, rfl⟩
  · exact k
  · exact exec_consistent (elapse_consistent k) h
  · exact finish_consistent _ _ (elapse_consistent k)
  · exact hostAct_consistent (agenda_consistent k rest) h
  · exact fire_consistent (agenda_consistent k rest) e

/-- Settles O60: each agent's step leaves the parameters as they are. -/
theorem stepKeepsInstance : Obligations.StepKeepsInstance := by
  intro s t h
  rcases step_agents h with rfl | ⟨i, h⟩ | rfl | ⟨a, rest, h⟩ | ⟨e, rest, rfl⟩
  · rfl
  · exact (exec_keeps h).1
  · rfl
  · exact hostAct_cfg (s := { s with agenda := rest }) h
  · exact fire_cfg e _
end

section
/-! PROOF. Which register an offset names, and what the host reads after reset (O41, O54). -/

open Sys2Proof Sys2Proof.Machine

namespace Sys2Proof.Machine

/-! ### Offsets -/

theorem Reg.mem_all (r : Reg) : r ∈ Reg.all := by
  cases r with
  | rfr f => revert f; decide
  | _ => simp [Reg.all]

/-- No two registers have the same offset: in the order of R35 the offsets go up. -/
theorem Reg.offset_injective : Function.Injective Reg.offset := by
  have up : (Reg.all.map Reg.offset).Pairwise (· < ·) := by decide
  have nodup : (Reg.all.map Reg.offset).Nodup := up.imp Nat.ne_of_lt
  exact fun r q h => List.inj_on_of_nodup_map nodup r.mem_all q.mem_all h

/-- The offset of a register names that register (R35). -/
@[simp] theorem Reg.at_offset (r : Reg) : Reg.at r.offset = some r := by
  cases h : Reg.at r.offset with
  | none => exact absurd (List.find?_eq_none.1 h r r.mem_all) (by simp)
  | some q =>
    have found : (q.offset == r.offset) = true := List.find?_some (p := fun x : Reg => x.offset == r.offset) h
    rw [Reg.offset_injective (beq_iff_eq.1 found)]

/-- An offset that is no register's is reserved (R55). -/
theorem Reg.at_eq_none {off : Nat} (h : ∀ r : Reg, r.offset ≠ off) : Reg.at off = none :=
  List.find?_eq_none.2 fun r _ => by simpa using h r

/-- The host reads a register at its offset. -/
@[simp] theorem memRead_offset (r : Reg) (s : State) : memRead r.offset s = readReg r s := by
  simp [memRead]

/-! ### Filter registers of absent banks -/

theorem hasBank_of_ge {s : State} {b : Nat} (h : s.cfg.val.fbCount ≤ b) : s.hasBank b = false :=
  decide_eq_false (Nat.not_lt.2 h)

/-! ### The reset state -/

/-- A read of TSR shows the stored bits, CODE apart (R38, R190). -/
theorem readTsr_stored (s : State) : (readTsr s).1 &&& 0xFCFFFFFF#32 = s.tsr &&& tsrMask := by
  have code : ∀ m : Fin 3, (BitVec.ofNat 32 m.val <<< 24) &&& 0xFCFFFFFF#32 = 0#32 := by decide
  have stored : tsrMask &&& 0xFCFFFFFF#32 = tsrMask := by decide
  rw [readTsr, BitVec.and_or_distrib_right, code, BitVec.and_assoc, stored, BitVec.or_zero]

/-- A register all of whose bits hold a value reads as that value. -/
theorem readReg_of_view {r : Reg} {s : State} {v : Word} (hr : r ≠ .tsr) (h : view r s = .of v) : (readReg r s).1 = v := by
  rw [readReg_eq_resolve hr, h, resolve_of]

theorem resetOf_fifo (c : Config) (f : Fin 2) : (State.resetOf c).fifo f = Fifo.reset := by
  simp [State.fifo, State.resetOf]

theorem resetOf_mailbox (c : Config) (i : Fin 3) : (State.resetOf c).mailbox i = Mailbox.reset := by
  simp [State.mailbox, State.resetOf]

theorem resetOf_queue (c : Config) (f : Fin 2) : (State.resetOf c).queue f = [] := by
  rw [State.queue, resetOf_fifo]
  rfl

/-- TXRQ of every mailbox reads 0 after reset (R310). -/
theorem resetOf_txrq (c : Config) (i : Fin 3) : bit (readReg (.tir i) (State.resetOf c)).1 0 = false := by
  have h := resolve_and_known (view (.tir i) (State.resetOf c)) (State.resetOf c)
  rw [← readReg_eq_resolve (by simp), view, resetOf_mailbox] at h
  have h0 := congrArg (fun w => bit w 0) h
  have : bit 1#32 0 = true := by decide
  simpa [Mailbox.reset, this] using h0

theorem resetOf_rqcp (c : Config) (i : Fin 3) : (State.resetOf c).rqcp i = false := by
  have h : ∀ i : Fin 3, bit 0x1C000000#32 (8 * i.val) = false := by decide
  exact h i

theorem resetOf_mode (c : Config) : (State.resetOf c).mode = .sleep := by
  have inak : (State.resetOf c).inak = false := show bit 0x00000C02#32 0 = false by decide
  have slak : (State.resetOf c).slak = true := show bit 0x00000C02#32 1 = true by decide
  rw [State.mode, inak, slak]
  rfl

end Sys2Proof.Machine

/-- Settles O41: the offsets of R35 go up, so each names one register; no bank at or above FB_COUNT has a register. -/
theorem reservedOffsetsReadZero : Obligations.ReservedOffsetsReadZero := by
  refine ⟨Reg.at_offset, fun off v s _ _ h => ?_, fun b v s h => ?_, fun off width h => ?_⟩
  · simp [memRead, memWrite, Reg.at_eq_none h]
  · simp [readReg_eq_resolve, view, writeReg, hasBank_of_ge h]
  · simp [accessAllowed, show ¬ off ≤ 0x31C by omega]

/-- Settles O54: each register is read at its offset, where every bit but CODE and those of TIiR above TXRQ holds its reset
value. -/
theorem resetValues : Obligations.ResetValues := by
  intro c s
  have reads : ∀ (r : Reg) (v : Word), r ≠ .tsr → view r s = .of v → (memRead r.offset s).1 = v :=
    fun r v hr h => by rw [memRead_offset, readReg_of_view hr h]
  have masked : ∀ (r : Reg) (v m : Word), r ≠ .tsr → view r s = .of (v &&& m) → v &&& m = v →
      (memRead r.offset s).1 = v :=
    fun r v m hr h e => reads r v hr (h.trans (congrArg Cell.of e))
  have empty : ∀ f, view (.rfr f) s = .of 0 := fun f => by rw [view, resetOf_fifo]; rfl
  have ier : ∀ j, bit s.ier j = false := bit_zero
  refine ⟨rfl, rfl, masked .mcr _ 0x000100FF#32 (by decide) rfl (by decide),
    masked .msr _ 0x00000F1F#32 (by decide) rfl (by decide), ?_, reads (.rfr 0) _ (by decide) (empty 0),
    reads (.rfr 1) _ (by decide) (empty 1), masked .ier _ 0x00038F7F#32 (by decide) rfl (by decide),
    masked .esr _ 0xFFFF0077#32 (by decide) rfl (by decide), masked .btr _ 0xC37F03FF#32 (by decide) rfl (by decide),
    masked .fmr _ 0x00003F01#32 (by decide) rfl (by decide), masked .fm1r _ s.bankMask (by decide) rfl BitVec.zero_and,
    masked .fs1r _ s.bankMask (by decide) rfl BitVec.zero_and, masked .ffa1r _ s.bankMask (by decide) rfl BitVec.zero_and,
    masked .fa1r _ s.bankMask (by decide) rfl BitVec.zero_and, fun i => ?_, resetOf_mode c, resetOf_rqcp c,
    fun f => ⟨?_, ?_⟩, ?_, ?_⟩
  · have tsr : memRead 0x008 s = readTsr s := memRead_offset .tsr s
    rw [tsr, readTsr_stored]
    exact (by decide : 0x1C000000#32 &&& tsrMask = 0x1C000000#32)
  · have tir : memRead (0x180 + 0x10 * i.val) s = readReg (.tir i) s := memRead_offset (.tir i) s
    rw [tir]
    exact resetOf_txrq c i
  · rw [State.rxPendOut, resetOf_queue]
    rfl
  · simp [State.irqRx, ier]
  · simp [State.irqTx, ier]
  · simp [State.irqSce, ier]
end

section
/-! PROOF. What a register write stores, and its side effects on TSR and on the mailboxes (O36, O37, O38). -/

open Sys2Proof Sys2Proof.Machine

namespace Sys2Proof.Machine

/-! ### Masked writes -/

/-- A masked write seen through a mask `r`: the written bits on `m`, the old ones beside it. -/
theorem merge_and (old new m r : Word) : merge old new m &&& r = (old &&& (r &&& ~~~m)) ||| (new &&& (m &&& r)) := by
  refine word_ext fun j hj => ?_
  simp only [bit_and, bit_or, bit_not, bit_merge]
  cases bit m j <;> simp [hj]

/-- A masked write shows the written value on the bits of its mask. -/
theorem merge_and_mask (old new m : Word) : merge old new m &&& m = new &&& m := by
  refine word_ext fun j _ => ?_
  simp only [bit_and, bit_merge]
  cases bit m j <;> simp

/-- What TDTiR shows after a write: every bit holds a value, the reserved ones 0 (R44). -/
theorem tdtr_shown (c : Cell) (v : Word) :
    (⟨(c.patch 0xFFFF010F#32 v).val &&& 0xFFFF010F#32, (c.patch 0xFFFF010F#32 v).known ||| 0x0000FEF0#32⟩ : Cell) =
      .of (v &&& 0xFFFF010F#32) := by
  have all : 0xFFFF010F#32 ||| 0x0000FEF0#32 = BitVec.allOnes 32 := by decide
  rw [Cell.patch, merge_and_mask, BitVec.or_assoc, all, BitVec.or_allOnes, Cell.of]

/-- Mailbox `i` after a write of TIiR while it is empty, whether the write requests a transmission or not (R43, R194). -/
theorem writeTir_mailbox_self {i : Fin 3} {s : State} (h : s.tme i = true) (v : Word) :
    (writeTir i v s).mailbox i = { s.mailbox i with tir := .of v } := by
  rw [writeTir, if_pos h]
  simp only
  split
  · exact setMailbox_mailbox_self s i _
  · exact setMailbox_mailbox_self s i _

/-- A write of RFfR clears FULL and FOVR where it is 1, whether it releases a frame or not (R39). -/
theorem writeRfr_flags (f : Fin 2) (v : Word) (s : State) :
    ((writeRfr f v s).fifo f).full = ((s.fifo f).full && !bit v 3) ∧
      ((writeRfr f v s).fifo f).fovr = ((s.fifo f).fovr && !bit v 4) := by
  unfold writeRfr
  simp only
  split
  · simp [release]
  · simp

/-- A write of MSR clears the flags that are written 1 (R37). -/
theorem writeMsr_flag (v : Word) (s : State) {j : Nat} (h2 : 2 ≤ j) (h4 : j ≤ 4) :
    bit (writeReg .msr v s).msr j = (bit s.msr j && !bit v j) := by
  have flag : bit 0x0000001C#32 j = true := by
    have : ∀ j ≤ 4, 2 ≤ j → bit 0x0000001C#32 j = true := by decide
    exact this j h4 h2
  simp [writeReg, flag, show j < 32 by omega]

/-- A filter register shows the written value where its protection allows the write (R54, R98). -/
theorem view_write_bank {b : Fin 28} {s : State} (hb : b.val < s.cfg.val.fbCount)
    (h : s.fact b.val = false ∨ s.finit = true) (v : Word) :
    view (.fr1 b) (writeReg (.fr1 b) v s) = .of v ∧ view (.fr2 b) (writeReg (.fr2 b) v s) = .of v := by
  have has : s.hasBank b.val = true := decide_eq_true hb
  have allowed : (s.hasBank b.val && (!s.fact b.val || s.finit)) = true := by
    rcases h with h | h <;> simp [has, h]
  have has' : ∀ fb, (s.setBank b fb).hasBank b.val = true := fun _ => has
  simp [writeReg, allowed, view, has']

/-- The registers of an empty mailbox show the written value, TDTiR but for its reserved bits (R43 to R45, R98). -/
theorem view_write_mailbox {i : Fin 3} {s : State} (h : s.tme i = true) (v : Word) :
    view (.tir i) (writeReg (.tir i) v s) = .of v ∧ view (.tdlr i) (writeReg (.tdlr i) v s) = .of v ∧
      view (.tdhr i) (writeReg (.tdhr i) v s) = .of v ∧
      view (.tdtr i) (writeReg (.tdtr i) v s) = .of (v &&& 0xFFFF010F#32) := by
  refine ⟨?_, ?_, ?_, ?_⟩
  · exact congrArg Mailbox.tir (writeTir_mailbox_self h v)
  · simp [writeReg, h, view]
  · simp [writeReg, h, view]
  · simp only [writeReg, h, if_true, view, setMailbox_mailbox_self]
    exact tdtr_shown (s.mailbox i).tdtr v

/-! ### TSR -/

/-- The four result flags of a mailbox are cleared together, by RQCP written 1 (R38). -/
theorem tsr_write_flag (v : Word) (s : State) (i : Fin 3) {k : Nat} (hk : k < 4) :
    bit (writeReg .tsr v s).tsr (8 * i.val + k) = (bit s.tsr (8 * i.val + k) && !bit v (8 * i.val)) := by
  have masks : ∀ i : Fin 3, ∀ k < 4,
      bit 0x0000000F#32 (8 * i.val + k) = decide (i = 0) ∧ bit 0x00000F00#32 (8 * i.val + k) = decide (i = 1) ∧
      bit 0x000F0000#32 (8 * i.val + k) = decide (i = 2) ∧ bit 0x00000080#32 (8 * i.val + k) = false ∧
      bit 0x00008000#32 (8 * i.val + k) = false ∧ bit 0x00800000#32 (8 * i.val + k) = false := by decide
  obtain ⟨a, b, c, d, e, f⟩ := masks i k hk
  rw [tsr_write_bit, tsrCleared_bit, tsrSet_bit, a, b, c, d, e, f]
  have : i = 0 ∨ i = 1 ∨ i = 2 := by omega
  rcases this with rfl | rfl | rfl <;> simp

/-- A write of TSR leaves CODE, TME, LOW and the reserved bits as they are (R38). -/
theorem tsr_write_others (v : Word) (s : State) :
    (writeReg .tsr v s).tsr &&& 0xFF707070#32 = s.tsr &&& 0xFF707070#32 := by
  have masks : ∀ j < 32, bit 0xFF707070#32 j = true →
      bit 0x0000000F#32 j = false ∧ bit 0x00000F00#32 j = false ∧ bit 0x000F0000#32 j = false ∧
      bit 0x00000080#32 j = false ∧ bit 0x00008000#32 j = false ∧ bit 0x00800000#32 j = false := by decide
  refine word_ext fun j hj => ?_
  rw [bit_and, bit_and, tsr_write_bit, tsrCleared_bit, tsrSet_bit]
  cases hm : bit 0xFF707070#32 j with
  | false => simp
  | true =>
    obtain ⟨a, b, c, d, e, f⟩ := masks j hj hm
    simp [a, b, c, d, e, f]

/-! ### Transmit requests -/

/-- The registers of a pending mailbox ignore writes (R98). -/
theorem writeReg_of_pending {i : Fin 3} {s : State} (h : s.tme i = false) (v : Word) :
    writeReg (.tir i) v s = s ∧ writeReg (.tdtr i) v s = s ∧ writeReg (.tdlr i) v s = s ∧
      writeReg (.tdhr i) v s = s := by
  simp [writeReg, writeTir, h]

/-- A write of TIiR with TXRQ = 1 to an empty mailbox stores it and requests its transmission (R194). -/
theorem writeTir_request {i : Fin 3} {v : Word} {s : State} (h : s.tme i = true) (hv : bit v 0 = true) :
    writeTir i v s = transmitRequest i (s.setMailbox i { s.mailbox i with tir := .of v }) := by
  rw [writeTir, if_pos h]
  exact if_pos hv

/-- A requested mailbox is pending (R191). -/
theorem transmitRequest_tme (i : Fin 3) (s : State) : (transmitRequest i s).tme i = false :=
  bit_withBit_self s.tsr false (tme_bit_lt i)

end Sys2Proof.Machine

/-- Settles O36: each write is a masked one, of which the read shows the bits of the register. -/
theorem writesStoreTheWritableBits : Obligations.WritesStoreTheWritableBits := by
  intro s v
  have shown (old m : Word) : Cell.of (merge old v m &&& m) = .of (v &&& m) := by rw [merge_and_mask]
  refine ⟨fun h => ?_, shown _ _, ?_, fun h => ?_, ?_, shown _ s.bankMask, fun h => ⟨?_, ?_, ?_⟩,
    fun b hb h => view_write_bank hb h v, fun i h => view_write_mailbox h v, fun j h2 h4 => writeMsr_flag v s h2 h4,
    fun f => writeRfr_flags f v s⟩
  · rw [writeReg, writeMcr_eq h]
    exact shown _ _
  · exact congrArg Cell.of (merge_and s.esr v 0x00000070#32 0xFFFF0077#32)
  · rw [writeReg, if_pos h]
    exact shown _ _
  · exact congrArg Cell.of (merge_and s.fmr v 0x00000001#32 0x00003F01#32)
  · rw [writeReg, if_pos h]
    exact shown _ s.bankMask
  · rw [writeReg, if_pos h]
    exact shown _ s.bankMask
  · rw [writeReg, if_pos h]
    exact shown _ s.bankMask

/-- Settles O37: the written value reaches only the result flags, through RQCP, and the abort requests. -/
theorem tsrWriteClearsAndRequests : Obligations.TsrWriteClearsAndRequests := by
  intro s v i t
  have flag : ∀ k < 4, bit t.tsr (8 * i.val + k) = (bit s.tsr (8 * i.val + k) && !bit v (8 * i.val)) :=
    fun k hk => tsr_write_flag v s i hk
  refine ⟨fun h => ?_, fun h => ?_, tsr_write_abrq v s i, tsr_write_others v s, rfl⟩
  · have cleared : ∀ k < 4, bit t.tsr (8 * i.val + k) = false := fun k hk => by simp [flag k hk, h]
    exact ⟨cleared 0 (by decide), cleared 1 (by decide), cleared 2 (by decide), cleared 3 (by decide)⟩
  · have kept : ∀ k < 4, bit t.tsr (8 * i.val + k) = bit s.tsr (8 * i.val + k) := fun k hk => by simp [flag k hk, h]
    exact ⟨kept 0 (by decide), kept 1 (by decide), kept 2 (by decide), kept 3 (by decide)⟩

/-- Settles O38: the write is the transmit request of the mailbox it stored, after which the mailbox is pending. -/
theorem transmitRequestMakesPending : Obligations.TransmitRequestMakesPending := by
  intro i v w s hv
  refine ⟨fun h => ?_, fun h => (writeReg_of_pending h v).1⟩
  have request : writeReg (.tir i) v s = transmitRequest i (s.setMailbox i { s.mailbox i with tir := .of v }) :=
    writeTir_request h hv
  have pending : (writeReg (.tir i) v s).tme i = false := by rw [request, transmitRequest_tme]
  exact ⟨request, pending, writeReg_of_pending pending w⟩
end

section
/-! PROOF. What the host's actions do while the sequencer is idle, and what the port refuses (O7, O8). -/

open Sys2Proof Sys2Proof.Machine

namespace Sys2Proof.Machine

theorem accessAllowed_iff (off width : Nat) :
    accessAllowed off width = true ↔ width = 4 ∧ off % 4 = 0 ∧ off ≤ 0x31C := by
  simp [accessAllowed, and_assoc]

/-- While the sequencer is idle, a host action first on the agenda is the step (R96). -/
theorem step_of_host {s : State} {n : Nat} {a : HostAction} {rest : List Turn} (hs : s.seq = .idle)
    (ha : s.agenda = ⟨n, .host a⟩ :: rest) : step s = hostAct a { s with agenda := rest } :=
  step_of_due ha (decide_eq_true hs)

/-- While a command is in flight and a host action is first on the agenda, a step leaves the agenda, the command port and
what the host has read as they are (R96). -/
theorem busy_step_keeps_port {s t : State} {n : Nat} {a : HostAction} {rest : List Turn} (hb : s.seq ≠ .idle)
    (ha : s.agenda = ⟨n, .host a⟩ :: rest) (h : step s = .next t) :
    t.agenda = s.agenda ∧ t.hostData = s.hostData ∧ t.cmd = s.cmd ∧ t.arg0 = s.arg0 ∧ t.arg1 = s.arg1 ∧
      t.arg2 = s.arg2 := by
  have first : ∀ u r, s.agenda = u :: r → ∃ a, u.move = .host a := fun u r e => by
    obtain ⟨rfl, -⟩ := List.cons.inj (ha.symm.trans e)
    exact ⟨a, rfl⟩
  rw [step_of_sequencerTurn (sequencerTurn_of_agenda hb fun u r e => .inl (first u r e))] at h
  rcases sequencer_cases h with ⟨-, rfl⟩ | ⟨i, -, -, h⟩ | ⟨e, -, -, rfl⟩
  · exact ⟨rfl, rfl, rfl, rfl, rfl, rfl⟩
  · rw [elapse_of_host first] at h
    obtain ⟨-, hagenda, hcmd, h0, h1, h2, hdata⟩ := exec_keeps h
    exact ⟨hagenda, hdata, hcmd, h0, h1, h2⟩
  · rw [elapse_of_host first]
    exact ⟨rfl, rfl, rfl, rfl, rfl, rfl⟩

end Sys2Proof.Machine

/-- Settles O7: while idle the step is the host's action, and while busy it is the sequencer's, which keeps the port. -/
theorem hostMovesOnlyWhileIdle : Obligations.HostMovesOnlyWhileIdle := by
  refine ⟨fun s n cmd a0 a1 a2 rest hs ha => ⟨.start, rfl, rfl, step_of_host hs ha⟩,
    fun s n rest hs ha => step_of_host hs ha, fun s n off rest hs ha h4 hle => ?_,
    fun s n off v rest hs ha h4 hle => ?_, fun s t n a rest hb ha h => busy_step_keeps_port hb ha h⟩
  · obtain ⟨tape, k, drawn⟩ := memRead_frame off { s with agenda := rest }
    refine ⟨tape, k, ?_⟩
    rw [step_of_host hs ha, hostAct, if_pos ((accessAllowed_iff off 4).2 ⟨rfl, h4, hle⟩)]
    simp only [drawn, shown]
  · rw [step_of_host hs ha, hostAct, if_pos ((accessAllowed_iff off 4).2 ⟨rfl, h4, hle⟩)]

/-- Settles O8: the access is not allowed, so the host's action is the fault. -/
theorem hostAccessRefused : Obligations.HostAccessRefused := by
  intro s n off width v rest hs h
  have refused : ¬ accessAllowed off width = true := by rw [accessAllowed_iff]; omega
  refine ⟨fun ha => ?_, fun ha => ?_⟩
  · rw [step_of_host hs ha, hostAct, if_neg refused]
  · rw [step_of_host hs ha, hostAct, if_neg refused]
end

section
/-! PROOF. What a register access leaves as it was (O33, O34, O35). -/

open Sys2Proof Sys2Proof.Machine

namespace Sys2Proof.Machine

/-! ### What the registers show after an update of one register file -/

/-- An update of mailbox `i` is seen in the registers of that mailbox alone. -/
theorem view_setMailbox {q : Reg} {i : Fin 3} {mb : Mailbox} {s : State}
    (tir : q = .tir i → mb.tir = (s.mailbox i).tir) (tdtr : q = .tdtr i → mb.tdtr = (s.mailbox i).tdtr)
    (tdlr : q = .tdlr i → mb.tdlr = (s.mailbox i).tdlr) (tdhr : q = .tdhr i → mb.tdhr = (s.mailbox i).tdhr) :
    view q (s.setMailbox i mb) = view q s := by
  cases q with
  | tir j | tdtr j | tdlr j | tdhr j =>
    simp only [view, setMailbox_mailbox]
    split
    · next e => subst e; simp [*]
    · rfl
  | _ => rfl

/-- An update of FIFO `f` is seen in RFfR, and through its queue in the output mailbox. -/
theorem view_setFifo {q : Reg} {f : Fin 2} {x : Fifo} {s : State} (rfr : q ≠ .rfr f)
    (queue : q = .rir f ∨ q = .rdtr f ∨ q = .rdlr f ∨ q = .rdhr f → x.queue = s.queue f) :
    view q (s.setFifo f x) = view q s := by
  have other : ∀ g, g ≠ f → (s.setFifo f x).fifo g = s.fifo g := fun g hg => by rw [setFifo_fifo, if_neg hg]
  cases q with
  | rfr g => exact congrArg (fun y => Cell.of (Fifo.word y)) (other g fun e => rfr (e ▸ rfl))
  | rir g | rdtr g | rdlr g | rdhr g =>
    have same : (s.setFifo f x).queue g = s.queue g := by
      by_cases e : g = f
      · subst e; rw [setFifo_queue_self, queue (by simp)]
      · exact congrArg Fifo.queue (other g e)
    simp only [view, same]
  | _ => rfl

/-- An update of bank `b` is seen in the registers of that bank alone. -/
theorem view_setBank {q : Reg} {b : Fin 28} {fb : FilterBank} {s : State}
    (fr1 : q = .fr1 b → fb.fr1 = (s.bank b).fr1) (fr2 : q = .fr2 b → fb.fr2 = (s.bank b).fr2) :
    view q (s.setBank b fb) = view q s := by
  cases q with
  | fr1 c | fr2 c =>
    have has : (s.setBank b fb).hasBank c.val = s.hasBank c.val := rfl
    simp only [view, setBank_bank, has]
    by_cases e : c = b
    · subst e; simp [*]
    · simp [e]
  | _ => rfl

/-! ### The writes with side effects (R94) -/

theorem view_writeMcr {q : Reg} {v : Word} {s : State} (hq : q ≠ .mcr) (hv : bit v 15 = false) :
    view q (writeMcr v s) = view q s := by
  rw [writeMcr_eq hv]
  cases q with
  | mcr => exact absurd rfl hq
  | _ => rfl

/-- A release is seen in the output mailbox alone, and only while the FIFO holds a frame. -/
theorem view_writeRfr {q : Reg} {f : Fin 2} {v : Word} {s : State} (hq : q ≠ .rfr f)
    (h : bit v 5 = true → s.queue f ≠ [] → q ≠ .rir f ∧ q ≠ .rdtr f ∧ q ≠ .rdlr f ∧ q ≠ .rdhr f) :
    view q (writeRfr f v s) = view q s := by
  unfold writeRfr
  simp only
  split
  · next hv =>
    rw [release, setFifo_setFifo]
    refine view_setFifo hq fun out => ?_
    have empty : s.queue f = [] := by
      by_contra hne
      obtain ⟨h1, h2, h3, h4⟩ := h hv hne
      rcases out with e | e | e | e
      · exact h1 e
      · exact h2 e
      · exact h3 e
      · exact h4 e
    rw [setFifo_queue_self]
    show (s.queue f).tail = s.queue f
    rw [empty, List.tail_nil]
  · exact view_setFifo hq fun _ => rfl

/-- A transmit request is seen in TSR alone. -/
theorem view_transmitRequest {q : Reg} (hq : q ≠ .tsr) (i : Fin 3) (s : State) :
    view q (transmitRequest i s) = view q s := by
  cases q with
  | tsr => exact absurd rfl hq
  | _ => rfl

theorem view_writeTir {q : Reg} {i : Fin 3} {v : Word} {s : State} (hq : q ≠ .tir i)
    (h : bit v 0 = true → s.tme i = true → q ≠ .tsr) : view q (writeTir i v s) = view q s := by
  have stored : view q (s.setMailbox i { s.mailbox i with tir := .of v }) = view q s :=
    view_setMailbox (fun e => absurd e hq) (fun _ => rfl) (fun _ => rfl) fun _ => rfl
  unfold writeTir
  split
  · next ht =>
    simp only
    split
    · next hv => rw [view_transmitRequest (h hv ht), stored]
    · exact stored
  · rfl

/-- The filter registers of an active bank ignore writes outside filter-initialization mode (R98). -/
theorem writeReg_of_active {b : Fin 28} {s : State} (ha : s.fact b.val = true) (hf : s.finit = false) (v : Word) :
    writeReg (.fr1 b) v s = s ∧ writeReg (.fr2 b) v s = s := by
  simp [writeReg, ha, hf]

end Sys2Proof.Machine

/-- Settles O33: a read draws, and does nothing else. -/
theorem readsHaveNoSideEffect : Obligations.ReadsHaveNoSideEffect := readReg_frame

/-- Settles O34: each protected write is guarded by its protection. -/
theorem protectedWritesIgnored : Obligations.ProtectedWritesIgnored := by
  intro s v
  refine ⟨fun h => by simp [writeReg, h], fun i h => writeReg_of_pending h v, fun h => by simp [writeReg, h],
    fun b ha hf => writeReg_of_active ha hf v, fun f => ⟨rfl, rfl, rfl, rfl⟩, _, rfl, word_ext fun j hj => ?_⟩
  have flag : ∀ j < 32, bit 0xFFFFFFE3#32 j = true → bit 0x0000001C#32 j = false := by decide
  cases hm : bit 0xFFFFFFE3#32 j with
  | false => simp [hm]
  | true => simp [hm, flag j hj hm, hj]

/-- Settles O35: a write updates its own register, and no other register shows that. -/
theorem writeLeavesOtherRegisters : Obligations.WriteLeavesOtherRegisters := by
  intro r q v s hq hreset hrequest hrelease
  cases r with
  | mcr => exact view_writeMcr hq (hreset rfl)
  | rfr f => exact view_writeRfr hq (hrelease f rfl)
  | tir i => exact view_writeTir hq (hrequest i rfl)
  | tdtr i =>
    simp only [writeReg]
    split
    · exact view_setMailbox (fun _ => rfl) (fun e => absurd e hq) (fun _ => rfl) fun _ => rfl
    · rfl
  | tdlr i =>
    simp only [writeReg]
    split
    · exact view_setMailbox (fun _ => rfl) (fun _ => rfl) (fun e => absurd e hq) fun _ => rfl
    · rfl
  | tdhr i =>
    simp only [writeReg]
    split
    · exact view_setMailbox (fun _ => rfl) (fun _ => rfl) (fun _ => rfl) fun e => absurd e hq
    · rfl
  | fr1 b =>
    simp only [writeReg]
    split
    · exact view_setBank (fun e => absurd e hq) fun _ => rfl
    · rfl
  | fr2 b =>
    simp only [writeReg]
    split
    · exact view_setBank (fun _ => rfl) fun e => absurd e hq
    · rfl
  | rir f | rdtr f | rdlr f | rdhr f => rfl
  | msr | tsr | ier | esr | fmr | fa1r =>
    cases q <;> try rfl
    exact absurd rfl hq
  | btr | fm1r | fs1r | ffa1r =>
    simp only [writeReg]
    split
    · cases q <;> try rfl
      exact absurd rfl hq
    · rfl
end

section
/-! PROOF. What a whole CFGF leaves, and that it leaves it again (O21). -/

open Sys2Proof Sys2Proof.Machine

namespace Sys2Proof.Machine

/-- A command ends in one way: `exec` is a function. -/
theorem Completes.unique {i : Instr} {n m : Nat} {s t u : State} (h : Completes i n s t) (k : Completes i m s u) :
    n = m ∧ t = u := by
  induction n generalizing s m with
  | zero => exact h.elim
  | succ n ih =>
    match n, m, h, k with
    | _, 0, _, k => exact k.elim
    | 0, 1, h, k => exact ⟨rfl, Host.Outcome.next.inj (h.1.symm.trans k.1)⟩
    | 0, m + 2, h, ⟨v, e, hb, _⟩ =>
      obtain rfl := Host.Outcome.next.inj (h.1.symm.trans e)
      exact absurd h.2 hb
    | n + 1, 1, ⟨v, e, hb, _⟩, k =>
      obtain rfl := Host.Outcome.next.inj (k.1.symm.trans e)
      exact absurd k.2 hb
    | n + 1, m + 2, ⟨v, e, _, h⟩, ⟨w, e', _, k⟩ =>
      obtain rfl := Host.Outcome.next.inj (e.symm.trans e')
      obtain ⟨hn, ht⟩ := ih h k
      exact ⟨congrArg (· + 1) hn, ht⟩

/-- By one micro-operation or to its end, a CFGF keeps within its frame (R179). -/
theorem cfgf_reaches_frame {bank : Nat} {scale : FilterScale} {mode : FilterMode} {fifo : Fin 2} {s t : State}
    (h : Reaches (.cfgf bank scale mode fifo) s t) : CfgfFrame bank s t := by
  have micro : ∀ {u v}, exec (.cfgf bank scale mode fifo) u = .next v → CfgfFrame bank u v := fun e => by
    cases e
    exact cfgfMicro_frame bank scale mode fifo _ _
  rcases h with e | ⟨n, c⟩
  · exact micro e
  · exact Completes.keeps (P := CfgfFrame bank s) (fun u v hu e => hu.trans (micro e))
      ⟨rfl, rfl, fun _ _ => ⟨rfl, rfl, rfl, rfl⟩, fun _ _ => rfl⟩ c

section Updates

variable (b : Fin 28) (scale : FilterScale) (mode : FilterMode) (fifo : Fin 2)

/-- The register access of CFGF behind `k` done steps, as an update of the register file in filter-initialization mode
(R171). -/
def cfgfUpdate (k : Nat) (s : State) : State :=
  match k with
  | 0 => { s with fmr := withBit s.fmr 0 true }
  | 1 => { s with fa1r := withBit s.fa1r b.val false }
  | 2 => { s with fs1r := withBit s.fs1r b.val scale.toBool }
  | 3 => { s with fm1r := withBit s.fm1r b.val mode.toBool }
  | 4 => s.setBank b { s.bank b with fr1 := .of s.arg0 }
  | 5 => s.setBank b { s.bank b with fr2 := .of s.arg1 }
  | 6 => { s with ffa1r := withBit s.ffa1r b.val (fifoBit fifo) }
  | 7 => { s with fa1r := withBit s.fa1r b.val true }
  | _ => { s with fmr := withBit s.fmr 0 false }

/-- The filter registers of an existing bank are written in filter-initialization mode (R98). -/
theorem writeReg_bank_of_finit {b : Fin 28} {s : State} (hb : b.val < s.cfg.val.fbCount) (hf : s.finit = true) (v : Word) :
    writeReg (.fr1 b) v s = s.setBank b { s.bank b with fr1 := .of v } ∧
      writeReg (.fr2 b) v s = s.setBank b { s.bank b with fr2 := .of v } := by
  simp [writeReg, State.hasBank, hb, hf]

variable {b scale mode fifo}

/-- One micro-operation of CFGF on an existing bank, from the second on in filter-initialization mode, is the update of
its place. -/
theorem cfgfMicro_eq {p : InFlight} {s : State} (hb : b.val < s.cfg.val.fbCount) (hf : p.step = 0 ∨ s.finit = true) :
    cfgfMicro b.val scale mode fifo p s =
      if p.step < 8 then goto { p with step := p.step + 1 } (cfgfUpdate b scale mode fifo p.step s)
      else finish .ok 0 (cfgfUpdate b scale mode fifo p.step s) := by
  unfold cfgfMicro
  rw [dif_pos ⟨hb, b.isLt⟩]
  simp only
  split
  · next hp => rw [modifyReg_fmr, hp]; rfl
  · next hp => rw [modifyReg_fa1r s hb, hp]; rfl
  · next hp => rw [modifyReg_fs1r s hb _ (hf.resolve_left (by omega)), hp]; rfl
  · next hp => rw [modifyReg_fm1r s hb _ (hf.resolve_left (by omega)), hp]; rfl
  · next hp => rw [(writeReg_bank_of_finit hb (hf.resolve_left (by omega)) _).1, hp]; rfl
  · next hp => rw [(writeReg_bank_of_finit hb (hf.resolve_left (by omega)) _).2, hp]; rfl
  · next hp => rw [modifyReg_ffa1r s hb _ (hf.resolve_left (by omega)), hp]; rfl
  · next hp => rw [modifyReg_fa1r s hb, hp]; rfl
  · next h0 h1 h2 h3 h4 h5 h6 h7 =>
    have past : 8 ≤ p.step := by
      by_contra hlt
      interval_cases p.step <;> contradiction
    obtain ⟨k, hk⟩ := Nat.exists_eq_add_of_le' past
    rw [if_neg (Nat.not_lt.2 past), modifyReg_fmr, hk]
    rfl

/-- The first access turns filter-initialization mode on, and only the last turns it off (R172). -/
theorem cfgfUpdate_finit {k : Nat} {s : State} (h8 : k < 8) (hf : k = 0 ∨ s.finit = true) :
    (cfgfUpdate b scale mode fifo k s).finit = true := by
  rcases hf with rfl | hf
  · exact bit_withBit_self s.fmr true (by decide)
  · interval_cases k
    · exact bit_withBit_self s.fmr true (by decide)
    all_goals exact hf

theorem cfgfUpdate_cfg (k : Nat) (s : State) : (cfgfUpdate b scale mode fifo k s).cfg = s.cfg := by
  unfold cfgfUpdate
  split <;> rfl

theorem cfgfUpdate_goto (k : Nat) (p : InFlight) (s : State) :
    cfgfUpdate b scale mode fifo k (goto p s) = goto p (cfgfUpdate b scale mode fifo k s) := by
  unfold cfgfUpdate
  split <;> rfl

variable (b scale mode fifo) in
/-- The updates of CFGF that are left when `j` of them follow the next one. -/
def cfgfRest (j : Nat) (s : State) : State :=
  match j with
  | 0 => cfgfUpdate b scale mode fifo 8 s
  | j + 1 => cfgfRest j (cfgfUpdate b scale mode fifo (7 - j) s)

theorem cfgfRest_goto (j : Nat) (p : InFlight) (s : State) :
    cfgfRest b scale mode fifo j (goto p s) = goto p (cfgfRest b scale mode fifo j s) := by
  induction j generalizing s with
  | zero => exact cfgfUpdate_goto 8 p s
  | succ j ih => rw [cfgfRest, cfgfRest, cfgfUpdate_goto, ih]

/-- From any of its places a CFGF of an existing bank makes the updates that are left. -/
theorem cfgf_completes_rest {j : Nat} {s : State} (hj : s.pos.step + j = 8) (hb : b.val < s.cfg.val.fbCount)
    (hf : s.pos.step = 0 ∨ s.finit = true) :
    Completes (.cfgf b.val scale mode fifo) (j + 1) s (finish .ok 0 (cfgfRest b scale mode fifo j s)) := by
  induction j generalizing s with
  | zero =>
    have micro := cfgfMicro_eq (scale := scale) (mode := mode) (fifo := fifo) hb hf
    rw [if_neg (by omega), show s.pos.step = 8 by omega] at micro
    exact completes_one (congrArg Host.Outcome.next micro) rfl
  | succ j ih =>
    have micro := cfgfMicro_eq (scale := scale) (mode := mode) (fifo := fifo) hb hf
    have here : s.pos.step = 7 - j := by omega
    rw [if_pos (by omega), here] at micro
    have left := ih (s := goto { s.pos with step := 7 - j + 1 } (cfgfUpdate b scale mode fifo (7 - j) s))
      (show 7 - j + 1 + j = 8 by omega) (by rwa [goto_cfg, cfgfUpdate_cfg])
      (.inr (cfgfUpdate_finit (by omega) (here ▸ hf)))
    rw [cfgfRest_goto] at left
    exact completes_go (congrArg Host.Outcome.next micro) rfl left

variable (b scale mode fifo) in
/-- The state a CFGF of an existing bank leaves (R171, R178): FINIT is 0, and the bank is active with its new values. -/
def cfgfDone (s : State) : State :=
  finish .ok 0 { s.setBank b ⟨.of s.arg0, .of s.arg1⟩ with
    fmr := withBit s.fmr 0 false, fa1r := withBit s.fa1r b.val true, fs1r := withBit s.fs1r b.val scale.toBool,
    fm1r := withBit s.fm1r b.val mode.toBool, ffa1r := withBit s.ffa1r b.val (fifoBit fifo) }

theorem cfgf_completes {s : State} (h0 : s.pos.step = 0) (hb : b.val < s.cfg.val.fbCount) :
    Completes (.cfgf b.val scale mode fifo) 9 s (cfgfDone b scale mode fifo s) := by
  have done : finish .ok 0 (cfgfRest b scale mode fifo 8 s) = cfgfDone b scale mode fifo s := by
    simp [cfgfRest, cfgfUpdate, cfgfDone, withBit_withBit, State.setBank, State.bank]
  rw [← done]
  exact cfgf_completes_rest (by omega) hb (.inl h0)

/-- Writing a bank what a CFGF has written it changes nothing. -/
theorem cfgfDone_cfgfDone (s : State) :
    cfgfDone b scale mode fifo (issue s.cmd s.arg0 s.arg1 s.arg2 (cfgfDone b scale mode fifo s)) =
      cfgfDone b scale mode fifo s := by
  simp [cfgfDone, issue, finish, withBit_withBit, State.setBank]

end Updates

/-- A CFGF of an absent bank ends at once, whatever its place (R173). -/
theorem exec_cfgf_badBank {bank : Nat} {s : State} (h : s.cfg.val.fbCount ≤ bank) (scale : FilterScale)
    (mode : FilterMode) (fifo : Fin 2) : exec (.cfgf bank scale mode fifo) s = .next (raise .badBank s) := by
  have absent : ¬(bank < s.cfg.val.fbCount ∧ bank < 28) := by omega
  exact congrArg Host.Outcome.next (dif_neg absent)

/-- A whole CFGF ends in nine micro-operations with the bank configured, or in one with BAD_BANK. -/
theorem cfgf_completes_cases {bank n : Nat} {scale : FilterScale} {mode : FilterMode} {fifo : Fin 2} {s t : State}
    (h0 : s.pos.step = 0) (h : Completes (.cfgf bank scale mode fifo) n s t) :
    (∃ b : Fin 28, b.val = bank ∧ b.val < s.cfg.val.fbCount ∧ n = 9 ∧ t = cfgfDone b scale mode fifo s) ∨
      (s.cfg.val.fbCount ≤ bank ∧ n = 1 ∧ t = raise .badBank s) := by
  rcases Nat.lt_or_ge bank s.cfg.val.fbCount with hb | hb
  · have fits : bank < 28 := Nat.lt_of_lt_of_le hb s.cfg.property.2.2.1.2
    have whole : Completes (.cfgf bank scale mode fifo) 9 s (cfgfDone ⟨bank, fits⟩ scale mode fifo s) :=
      cfgf_completes (b := ⟨bank, fits⟩) h0 hb
    obtain ⟨hn, ht⟩ := h.unique whole
    exact .inl ⟨⟨bank, fits⟩, rfl, hb, hn, ht⟩
  · obtain ⟨hn, ht⟩ := h.unique (completes_one (exec_cfgf_badBank hb scale mode fifo) rfl)
    exact .inr ⟨hb, hn, ht⟩

end Sys2Proof.Machine

/-- Settles O21: what a CFGF writes depends on its operands alone, so the second writes what is there; and no micro-operation
touches another bank. -/
theorem cfgfIdempotent : Obligations.CfgfIdempotent := by
  refine ⟨fun bank scale mode fifo n s t h0 h => ?_, fun bank scale mode fifo s t h c hc => ?_⟩
  · rcases cfgf_completes_cases h0 h with ⟨b, rfl, hb, rfl, rfl⟩ | ⟨hb, rfl, rfl⟩
    · have again := cfgf_completes (b := b) (scale := scale) (mode := mode) (fifo := fifo)
        (s := issue s.cmd s.arg0 s.arg1 s.arg2 (cfgfDone b scale mode fifo s)) rfl hb
      rwa [cfgfDone_cfgfDone] at again
    · have same : raise .badBank (issue s.cmd s.arg0 s.arg1 s.arg2 (raise .badBank s)) = raise .badBank s := rfl
      have again := exec_cfgf_badBank (s := issue s.cmd s.arg0 s.arg1 s.arg2 (raise .badBank s)) hb scale mode fifo
      rw [same] at again
      exact completes_one again rfl
  · obtain ⟨-, -, bits, bank⟩ := cfgf_reaches_frame h
    obtain ⟨fs1r, fm1r, ffa1r, fa1r⟩ := bits c.val hc
    refine ⟨bank c hc, fs1r, fm1r, ?_, fa1r⟩
    rw [State.ffa, State.ffa, ffa1r]
end

section
/-! PROOF. What an event can do, register file by register file (used by O59). -/

open Sys2Proof Sys2Proof.Machine

namespace Sys2Proof.Machine

/-- What a transmission or a reception may change: TSR, the mailboxes and the FIFOs, the time stamp, and what is left to draw
(R245, R252, R263). -/
def TrafficFrame (s t : State) : Prop :=
  t = { s with tsr := t.tsr, mailboxes := t.mailboxes, fifos := t.fifos, txOrder := t.txOrder, timeStamp := t.timeStamp,
               drawTape := t.drawTape, drawCount := t.drawCount }

theorem TrafficFrame.trans {s t u : State} (h : TrafficFrame s t) (k : TrafficFrame t u) : TrafficFrame s u := by
  unfold TrafficFrame at *
  rw [k, h]

theorem DrawnFrom.traffic {s t : State} (h : DrawnFrom s t) : TrafficFrame s t := by
  obtain ⟨_, _, rfl⟩ := h
  rfl

/-- Capturing the time stamp draws it. -/
theorem captureTime_eq (s : State) :
    ∃ t tape n, captureTime s = { s with timeStamp := t, drawTape := tape, drawCount := n } := by
  obtain ⟨tape, n, h⟩ := draw_frame s
  refine ⟨(draw s).1.setWidth 16, tape, n, ?_⟩
  simp only [captureTime, h]

theorem offer_traffic (fr : Frame) (t : BitVec 16) (s : State) : TrafficFrame s (offer fr t s) := by
  obtain ⟨u, hu, h | ⟨f, q, h⟩⟩ := offer_eq fr t s
  · rw [h]; exact hu.traffic
  · rw [h]; exact hu.traffic.trans rfl

/-- What is transmitted is drawn and captured first; then the request of the mailbox ends. -/
theorem transmitted_eq (i : Fin 3) (ok : Bool) (s : State) : ∃ a b t tape n, (transmitted i ok s).2 =
    stampTime i (requestEnded i ok a b (clearTxrq i { s with timeStamp := t, drawTape := tape, drawCount := n })) := by
  obtain ⟨t, tape, n, captured⟩ := captureTime_eq s
  obtain ⟨tape', n', drawn⟩ := (frameOfMailbox_frame i (captureTime s)).trans (drawLoss_frame ok _)
  refine ⟨(drawLoss ok (frameOfMailbox i (captureTime s)).2).1.1, (drawLoss ok (frameOfMailbox i (captureTime s)).2).1.2,
    t, tape', n', ?_⟩
  simp only [transmitted, drawn]
  rw [captured]

theorem transmitted_traffic (i : Fin 3) (ok : Bool) (s : State) : TrafficFrame s (transmitted i ok s).2 := by
  obtain ⟨a, b, t, tape, n, h⟩ := transmitted_eq i ok s
  rw [h]
  rfl

theorem txDone_cases (i : Fin 3) (ok : Bool) (s : State) : txDone i ok s = (transmitted i ok s).2 ∨
    ∃ fr t, txDone i ok s = offer fr t (transmitted i ok s).2 := by
  unfold txDone
  simp only
  split
  · exact .inr ⟨_, _, rfl⟩
  · exact .inl rfl

theorem txDone_traffic (i : Fin 3) (ok : Bool) (s : State) : TrafficFrame s (txDone i ok s) := by
  rcases txDone_cases i ok s with h | ⟨fr, t, h⟩
  · rw [h]; exact transmitted_traffic i ok s
  · rw [h]; exact (transmitted_traffic i ok s).trans (offer_traffic ..)

/-- An arrival is an offer behind the capture of the time stamp. -/
theorem rxFrame_eq (f : Frame) (s : State) :
    ∃ t tape n, rxFrame f s = offer f t { s with timeStamp := t, drawTape := tape, drawCount := n } := by
  obtain ⟨t, tape, n, captured⟩ := captureTime_eq s
  refine ⟨t, tape, n, ?_⟩
  rw [rxFrame, captured]

theorem rxFrame_traffic (f : Frame) (s : State) : TrafficFrame s (rxFrame f s) := by
  obtain ⟨t, tape, n, h⟩ := rxFrame_eq f s
  have captured : TrafficFrame s { s with timeStamp := t, drawTape := tape, drawCount := n } := rfl
  rw [h]
  exact captured.trans (offer_traffic ..)

theorem TrafficFrame.mcr {s t : State} (h : TrafficFrame s t) : t.mcr = s.mcr := by rw [h]
theorem TrafficFrame.msr {s t : State} (h : TrafficFrame s t) : t.msr = s.msr := by rw [h]

/-- What an event may change at all (R263): no event touches the command, its operands, the results or the filters. -/
def EventFrame (s t : State) : Prop :=
  t = { s with mcr := t.mcr, msr := t.msr, esr := t.esr, tsr := t.tsr, mailboxes := t.mailboxes, fifos := t.fifos,
               txOrder := t.txOrder, timeStamp := t.timeStamp, drawTape := t.drawTape, drawCount := t.drawCount }

theorem TrafficFrame.event {s t : State} (h : TrafficFrame s t) : EventFrame s t := by
  unfold TrafficFrame at h
  unfold EventFrame
  rw [h]

theorem effect_frame (e : EnvEvent) (s : State) : EventFrame s (effect e s) := by
  cases e with
  | txDone i ok => exact (txDone_traffic i ok s).event
  | rxFrame f => exact (rxFrame_traffic f s).event
  | statusDrift =>
    obtain ⟨a, b, c, tape, n, h⟩ := statusDrift_eq s
    show EventFrame s (statusDrift s)
    rw [h]
    rfl
  | sleepExit | initEnter | initExit | sleepEnter | wakeup | txAbort | none => rfl

/-- Of MCR an event clears SLEEP at most (R243). -/
theorem effect_mcr (e : EnvEvent) (s : State) : (effect e s).mcr = s.mcr ∨ (effect e s).mcr = withBit s.mcr 1 false := by
  cases e with
  | wakeup =>
    show (wakeup s).mcr = _ ∨ (wakeup s).mcr = _
    unfold wakeup
    simp only
    split
    · exact .inr rfl
    · exact .inl rfl
  | txDone i ok => exact .inl (txDone_traffic i ok s).mcr
  | rxFrame f => exact .inl (rxFrame_traffic f s).mcr
  | statusDrift =>
    obtain ⟨a, b, c, tape, n, h⟩ := statusDrift_eq s
    rw [effect, h]
    exact .inl rfl
  | sleepExit | initEnter | initExit | sleepEnter | txAbort | none => exact .inl rfl

/-- While initialization is requested and sleep is not, no event takes the acknowledgement back (R242, R243). -/
theorem effect_inak {e : EnvEvent} {s : State} (he : enabled e s = true) (hi : s.inrq = true) (hs : s.sleepReq = false)
    (ha : s.inak = true) : (effect e s).inak = true := by
  cases e with
  | initExit => simp [enabled, hi] at he
  | sleepEnter => simp [enabled, hs] at he
  | initEnter => exact (bit_withBit_of_ne _ false (by decide)).trans (bit_withBit_self s.msr true (by decide))
  | sleepExit => exact (bit_withBit_of_ne s.msr false (by decide)).trans ha
  | wakeup => exact (bit_withBit_of_ne s.msr true (by decide)).trans ha
  | txDone i ok => exact (congrArg inakOf (txDone_traffic i ok s).msr).trans ha
  | rxFrame f => exact (congrArg inakOf (rxFrame_traffic f s).msr).trans ha
  | statusDrift =>
    obtain ⟨a, b, c, tape, n, h⟩ := statusDrift_eq s
    have kept : inakOf (merge s.msr a 0x00000F04#32) = s.inak := bit_merge s.msr a _ 0
    exact (congrArg State.inak h).trans (kept.trans ha)
  | txAbort | none => exact ha

/-- The end of a request of mailbox `i` leaves every other mailbox as it is. -/
theorem ended_other {i m : Fin 3} (hm : m ≠ i) (a b c : Bool) (s : State) :
    (requestEnded i a b c (clearTxrq i s)).tme m = s.tme m ∧
      (requestEnded i a b c (clearTxrq i s)).mailbox m = s.mailbox m := by
  refine ⟨?_, ?_⟩
  · rw [requestEnded_tme, if_neg hm]
    rfl
  · show (clearTxrq i s).mailbox m = _
    rw [clearTxrq_mailbox, if_neg hm]

theorem transmitted_other {i m : Fin 3} (hm : m ≠ i) (ok : Bool) (s : State) :
    (transmitted i ok s).2.tme m = s.tme m ∧ (transmitted i ok s).2.mailbox m = s.mailbox m := by
  obtain ⟨a, b, t, tape, n, h⟩ := transmitted_eq i ok s
  obtain ⟨tme, mailbox⟩ := ended_other hm ok a b { s with timeStamp := t, drawTape := tape, drawCount := n }
  rw [h]
  refine ⟨tme, Eq.trans ?_ mailbox⟩
  rw [stampTime, setMailbox_mailbox, if_neg hm]

/-- An offer leaves the mailboxes as they are. -/
theorem offer_mailbox (fr : Frame) (t : BitVec 16) (s : State) (m : Fin 3) :
    (offer fr t s).tme m = s.tme m ∧ (offer fr t s).mailbox m = s.mailbox m := by
  obtain ⟨u, ⟨_, _, rfl⟩, h | ⟨f, q, h⟩⟩ := offer_eq fr t s
  · rw [h]; exact ⟨rfl, rfl⟩
  · rw [h]; exact ⟨rfl, rfl⟩

/-- Events touch pending mailboxes only (R245, R247). -/
theorem effect_mailbox {e : EnvEvent} {s : State} {m : Fin 3} (he : enabled e s = true) (hm : s.tme m = true) :
    (effect e s).tme m = true ∧ (effect e s).mailbox m = s.mailbox m := by
  cases e with
  | txDone i ok =>
    have other : m ≠ i := by
      rintro rfl
      simp [enabled, hm] at he
    obtain ⟨tme, mailbox⟩ := transmitted_other other ok s
    rw [effect]
    rcases txDone_cases i ok s with h | ⟨fr, t, h⟩
    · rw [h]
      exact ⟨tme.trans hm, mailbox⟩
    · obtain ⟨tme', mailbox'⟩ := offer_mailbox fr t (transmitted i ok s).2 m
      rw [h]
      exact ⟨tme'.trans (tme.trans hm), mailbox'.trans mailbox⟩
  | txAbort i =>
    have other : m ≠ i := by
      rintro rfl
      simp [enabled, hm] at he
    obtain ⟨tme, mailbox⟩ := ended_other other false false false s
    exact ⟨tme.trans hm, mailbox⟩
  | rxFrame f =>
    obtain ⟨t, tape, n, h⟩ := rxFrame_eq f s
    obtain ⟨tme, mailbox⟩ := offer_mailbox f t { s with timeStamp := t, drawTape := tape, drawCount := n } m
    rw [effect, h]
    exact ⟨tme.trans hm, mailbox⟩
  | statusDrift =>
    obtain ⟨a, b, c, tape, n, h⟩ := statusDrift_eq s
    have low : ∀ i : Fin 3, bit 0xE0000000#32 (26 + i.val) = false := by decide
    have kept : tmeOf (merge s.tsr b 0xE0000000#32) m = s.tme m := by
      rw [tmeOf, bit_merge, low m]
      rfl
    rw [effect, h]
    exact ⟨kept.trans hm, rfl⟩
  | sleepExit | initEnter | initExit | sleepEnter | wakeup | none => exact ⟨hm, rfl⟩

/-- A store keeps the head of every queue: an overrun replaces the newest entry of a queue of two at least (R253). -/
theorem store_head {f g : Fin 2} {s : State} {hd : Entry} {tl : List Entry} (h : s.queue g = hd :: tl) (e : Entry) :
    ∃ tl', (store f e s).queue g = hd :: tl' := by
  by_cases hg : g = f
  · subst hg
    have hq : (s.fifo g).queue = hd :: tl := h
    unfold store
    simp only
    split
    · exact ⟨tl ++ [e], by rw [setFifo_queue_self, hq]; rfl⟩
    · next full =>
      split
      · exact ⟨tl, by rw [setFifo_queue_self, hq]⟩
      · obtain ⟨-, -, -, ⟨depth, -⟩, -⟩ := s.cfg.property
        cases tl with
        | nil => rw [hq, List.length_singleton] at full; omega
        | cons x rest => exact ⟨(x :: rest).dropLast ++ [e], by rw [setFifo_queue_self, hq]; rfl⟩
  · obtain ⟨q, e⟩ := store_eq f e s
    refine ⟨tl, ?_⟩
    rw [e, State.queue, setFifo_fifo, if_neg hg]
    exact h

theorem offer_head {fr : Frame} {t : BitVec 16} {g : Fin 2} {s : State} {hd : Entry} {tl : List Entry}
    (h : s.queue g = hd :: tl) : ∃ tl', (offer fr t s).queue g = hd :: tl' := by
  have drawn : (accept fr s).2.queue g = hd :: tl := by
    obtain ⟨_, _, e⟩ := accept_frame fr s
    rw [e]
    exact h
  unfold offer
  split
  · exact ⟨tl, h⟩
  · simp only
    split
    · exact ⟨tl, drawn⟩
    · exact store_head drawn _

theorem transmitted_queue (i : Fin 3) (ok : Bool) (s : State) (g : Fin 2) : (transmitted i ok s).2.queue g = s.queue g := by
  obtain ⟨a, b, t, tape, n, h⟩ := transmitted_eq i ok s
  rw [h]
  rfl

/-- No event removes the head of a queue (R228, R253). -/
theorem effect_head {g : Fin 2} {s : State} {hd : Entry} {tl : List Entry} (h : s.queue g = hd :: tl) (e : EnvEvent) :
    ∃ tl', (effect e s).queue g = hd :: tl' := by
  cases e with
  | txDone i ok =>
    have sent := (transmitted_queue i ok s g).trans h
    rw [effect]
    rcases txDone_cases i ok s with e | ⟨fr, t, e⟩
    · rw [e]; exact ⟨tl, sent⟩
    · rw [e]; exact offer_head sent
  | rxFrame f =>
    obtain ⟨t, tape, n, e⟩ := rxFrame_eq f s
    rw [effect, e]
    exact offer_head (s := { s with timeStamp := t, drawTape := tape, drawCount := n }) h
  | statusDrift =>
    obtain ⟨a, b, c, tape, n, e⟩ := statusDrift_eq s
    rw [effect, e]
    exact ⟨tl, h⟩
  | sleepExit | initEnter | initExit | sleepEnter | wakeup | txAbort | none => exact ⟨tl, h⟩

end Sys2Proof.Machine
end

section
/-! PROOF. No event undoes what the command in flight has done (used by O59). -/

open Sys2Proof Sys2Proof.Machine

namespace Sys2Proof.Machine

/-- What a command has done by its place `p`. -/
def State.SoFar (i : Instr) (p : InFlight) (s : State) : Prop :=
  match i with
  | .init _ flags _ => s.InitSoFar flags p
  | .cfgf bank scale mode fifo => s.CfgfSoFar bank scale mode fifo p
  | .tx ide rtr tgt dlc => s.TxSoFar ide rtr tgt dlc p
  | .rx f => s.RxSoFar f p

theorem inFlightSafe_iff (s : State) :
    s.InFlightSafe ↔ ∀ p i, s.seq = .busy p → decode s.cmd = .ok i → s.SoFar i p := by
  unfold State.InFlightSafe State.SoFar
  refine ⟨fun h p i hp hi => ?_, fun h p hp => ?_⟩
  · have := h p hp
    rw [hi] at this
    cases i <;> exact this
  · cases hd : decode s.cmd with
    | error e => trivial
    | ok i =>
      have := h p i hp hd
      cases i <;> exact this

theorem inFlightSafe_of_idle {s : State} (h : s.seq = .idle) : s.InFlightSafe := by
  intro p hp
  rw [h] at hp
  cases hp

/-- At its start a command has done nothing. -/
theorem soFar_start (i : Instr) (s : State) : s.SoFar i .start := by
  cases i with
  | init mode flags baud => simp [State.SoFar, State.InitSoFar, InFlight.start]
  | cfgf bank scale mode fifo => simp [State.SoFar, State.CfgfSoFar, InFlight.start]
  | tx ide rtr tgt dlc => simp [State.SoFar, State.TxSoFar, InFlight.start]
  | rx f => simp [State.SoFar, State.RxSoFar, InFlight.start]

theorem field_withBit_below (v : Word) {i lo : Nat} (hi : Nat) (b : Bool) (h : i < lo) :
    field (withBit v i b) hi lo = field v hi lo := by
  refine word_ext fun j _ => ?_
  rw [bit_field, bit_field, bit_withBit_of_ne v b (show lo + j ≠ i by omega)]

theorem effect_initSoFar {flags : FeatureFlags} {p : InFlight} {e : EnvEvent} {s : State} (he : enabled e s = true)
    (h : s.InitSoFar flags p) : (effect e s).InitSoFar flags p := by
  obtain ⟨sleep, inrq, inak, flagBits⟩ := h
  have inak' : 4 ≤ p.step → (effect e s).inak = true :=
    fun hp => effect_inak he (inrq (by omega)) (sleep (by omega)) (inak hp)
  unfold State.InitSoFar State.sleepReq State.inrq
  rcases effect_mcr e s with hm | hm
  · rw [hm]
    exact ⟨sleep, inrq, inak', flagBits⟩
  · rw [hm]
    refine ⟨fun _ => bit_withBit_self s.mcr false (by decide), fun hp => ?_, inak', fun hp => ?_⟩
    · exact (bit_withBit_of_ne s.mcr false (by decide)).trans (inrq hp)
    · exact (field_withBit_below s.mcr 7 false (by decide)).trans (flagBits hp)

theorem effect_cfgfSoFar {bank : Nat} {scale : FilterScale} {mode : FilterMode} {fifo : Fin 2} {p : InFlight} {s : State}
    (e : EnvEvent) (h : s.CfgfSoFar bank scale mode fifo p) : (effect e s).CfgfSoFar bank scale mode fifo p := by
  rw [effect_frame e s]
  exact h

theorem effect_txSoFar {ide rtr tgt : Bool} {dlc : Nat} {p : InFlight} {e : EnvEvent} {s : State}
    (he : enabled e s = true) (h : s.TxSoFar ide rtr tgt dlc p) : (effect e s).TxSoFar ide rtr tgt dlc p := by
  obtain ⟨tme, tir, tdtr, tdlr, tdhr⟩ := h
  have kept : 1 ≤ p.step → (effect e s).tme p.m = true ∧ (effect e s).mailbox p.m = s.mailbox p.m :=
    fun hp => effect_mailbox he (tme hp)
  obtain ⟨arg0, arg1, arg2⟩ : (effect e s).arg0 = s.arg0 ∧ (effect e s).arg1 = s.arg1 ∧ (effect e s).arg2 = s.arg2 := by
    rw [effect_frame e s]
    exact ⟨rfl, rfl, rfl⟩
  unfold State.TxSoFar
  rw [arg0, arg1, arg2]
  refine ⟨fun hp => (kept hp).1, fun hp => ?_, fun hp => ?_, fun hp => ?_, fun hp => ?_⟩
  · rw [(kept (by omega)).2]; exact tir hp
  · rw [(kept (by omega)).2]; exact tdtr hp
  · rw [(kept (by omega)).2]; exact tdlr hp
  · rw [(kept (by omega)).2]; exact tdhr hp

theorem effect_rxSoFar {f : Fin 2} {p : InFlight} {s : State} (e : EnvEvent) (h : s.RxSoFar f p) :
    (effect e s).RxSoFar f p := by
  intro hp
  obtain ⟨hd, tl, queue, words⟩ := h hp
  obtain ⟨tl', queue'⟩ := effect_head queue e
  exact ⟨hd, tl', queue', words⟩

theorem fire_soFar {i : Instr} {p : InFlight} {s : State} (e : EnvEvent) (h : s.SoFar i p) : (fire e s).SoFar i p := by
  unfold fire
  split
  · next he =>
    cases i with
    | init mode flags baud => exact effect_initSoFar he h
    | cfgf bank scale mode fifo => exact effect_cfgfSoFar e h
    | tx ide rtr tgt dlc => exact effect_txSoFar he h
    | rx f => exact effect_rxSoFar e h
  · exact h

theorem fire_inFlightSafe {s : State} (e : EnvEvent) (h : s.InFlightSafe) : (fire e s).InFlightSafe := by
  have kept : (fire e s).seq = s.seq ∧ (fire e s).cmd = s.cmd := by
    unfold fire
    split
    · rw [effect_frame e s]; exact ⟨rfl, rfl⟩
    · exact ⟨rfl, rfl⟩
  rw [inFlightSafe_iff] at *
  intro p i hp hi
  rw [kept.1] at hp
  rw [kept.2] at hi
  exact fire_soFar e (h p i hp hi)

end Sys2Proof.Machine
end

section
/-! PROOF. A micro-operation leaves what the next one relies on (used by O59). -/

open Sys2Proof Sys2Proof.Machine

namespace Sys2Proof.Machine

/-- If the command goes on in `t`, it has done by its new place what `i` requires. -/
def State.GoesOnSafe (i : Instr) (t : State) : Prop := ∀ q, t.seq = .busy q → t.SoFar i q

theorem finish_goesOnSafe {i : Instr} {st : Status} {n : Nat} {s : State} : (finish st n s).GoesOnSafe i :=
  fun _ h => Seq.noConfusion h

theorem goto_goesOnSafe {i : Instr} {q : InFlight} {s : State} (h : s.SoFar i q) : (goto q s).GoesOnSafe i := by
  intro q' hq
  cases hq
  cases i <;> exact h

/-! ### INIT: the flags and requests are bits of MCR, written as read -/

/-- A field write of MCR below its reserved bits is the update of its bit. -/
theorem modifyReg_mcr_bit (s : State) {i : Nat} (hi : i < 8) (b : Bool) :
    modifyReg .mcr (fun v => withBit v i b) s = { s with mcr := withBit s.mcr i b } := by
  have low : ∀ i < 8, bit 0x000100FF#32 i = true := by decide
  have noReset : bit (withBit (s.mcr &&& 0x000100FF#32) i b) 15 = false := by
    rw [bit_withBit_of_ne _ _ (by omega), bit_and, show bit 0x000100FF#32 15 = false by decide, Bool.and_false]
  rw [modifyReg_mcr s (fun v => withBit v i b) noReset, merge_withBit_read _ _ _ (low i hi)]

/-- The flags of INIT are written into MCR as read (R155). -/
theorem modifyReg_mcr_flags (s : State) (flags : FeatureFlags) :
    modifyReg .mcr (withFlags flags) s = { s with mcr := withFlags flags s.mcr } := by
  have noReset : bit (withFlags flags (s.mcr &&& 0x000100FF#32)) 15 = false := by
    rw [withFlags, bit_merge, show bit 0x000000FC#32 15 = false by decide, if_neg Bool.false_ne_true, bit_and,
      show bit 0x000100FF#32 15 = false by decide, Bool.and_false]
  have within : ∀ j < 32, bit 0x000000FC#32 j = true → bit 0x000100FF#32 j = true := by decide
  have merged : merge s.mcr (withFlags flags (s.mcr &&& 0x000100FF#32)) 0x000100FF#32 = withFlags flags s.mcr := by
    refine word_ext fun j hj => ?_
    simp only [withFlags, bit_merge, bit_and]
    cases hf : bit 0x000000FC#32 j with
    | true => simp [within j hj hf]
    | false => cases bit 0x000100FF#32 j <;> simp
  rw [modifyReg_mcr s (withFlags flags) noReset, merged]

theorem field_withFlags (flags : FeatureFlags) (v : Word) : field (withFlags flags v) 7 2 = flags.code := by
  have inside : ∀ j < 6, bit 0x000000FC#32 (2 + j) = true := by decide
  refine word_ext fun j hj => ?_
  rw [bit_field, withFlags, bit_merge]
  by_cases h : j < 6
  · simp [inside j h, h, hj, show 2 + j < 32 by omega, show 1 < 2 + j by omega]
  · rw [bit_flagsCode flags (by omega)]
    simp [h]

theorem withFlags_low (flags : FeatureFlags) (v : Word) {j : Nat} (h : j < 2) : bit (withFlags flags v) j = bit v j := by
  have outside : ∀ j < 2, bit 0x000000FC#32 j = false := by decide
  rw [withFlags, bit_merge, outside j h, if_neg Bool.false_ne_true]

/-- A poll goes on with what it saw, or stays at its place (R152). -/
theorem pollMsr_goesOnSafe {i : Instr} {seen : Word → Bool} {next p : InFlight} {timeout : Status} {s : State}
    (hseen : seen (s.msr &&& 0x00000F1F#32) = true → s.SoFar i next)
    (hpoll : s.SoFar i { p with polls := p.polls + 1 }) : (pollMsr seen next timeout p s).GoesOnSafe i := by
  rw [pollMsr_cases]
  split
  · next h => exact goto_goesOnSafe (hseen h)
  · split
    · exact finish_goesOnSafe
    · exact goto_goesOnSafe hpoll

theorem initMicro_goesOnSafe {mode : OpMode} {flags : FeatureFlags} {baud : Nat} {p : InFlight} {s : State}
    (h : s.InitSoFar flags p) : (initMicro mode flags baud p s).GoesOnSafe (.init mode flags baud) := by
  have ⟨sleep, inrq, inak, _⟩ := h
  unfold initMicro
  split
  · exact finish_goesOnSafe
  · split
    · rw [modifyReg_mcr_bit s (by decide)]
      exact goto_goesOnSafe ⟨fun _ => bit_withBit_self s.mcr false (by decide), by simp, by simp, by simp⟩
    · next hp =>
      exact pollMsr_goesOnSafe (fun _ => ⟨fun _ => sleep (by omega), by simp, by simp, by simp⟩) h
    · next hp =>
      rw [modifyReg_mcr_bit s (by decide)]
      refine goto_goesOnSafe ⟨fun _ => ?_, fun _ => bit_withBit_self s.mcr true (by decide), by simp, by simp⟩
      exact (bit_withBit_of_ne s.mcr true (by decide)).trans (sleep (by omega))
    · next hp =>
      refine pollMsr_goesOnSafe (fun seen => ⟨fun _ => sleep (by omega), fun _ => inrq (by omega), fun _ => ?_,
        by simp⟩) h
      have : (bit s.msr 0 && bit 0x00000F1F#32 0) = true := by rw [← bit_and]; exact seen
      exact (Bool.and_eq_true_iff.1 this).1
    · next hp =>
      rw [modifyReg_mcr_flags]
      exact goto_goesOnSafe ⟨fun _ => (withFlags_low flags s.mcr (by decide)).trans (sleep (by omega)),
        fun _ => (withFlags_low flags s.mcr (by decide)).trans (inrq (by omega)), fun _ => inak (by omega),
        fun _ => field_withFlags flags s.mcr⟩
    · exact finish_goesOnSafe

/-! ### CFGF: an update leaves every register but its own -/

section Cfgf

variable {b : Fin 28} {scale : FilterScale} {mode : FilterMode} {fifo : Fin 2} {k : Nat}

theorem cfgfUpdate_args (s : State) : (cfgfUpdate b scale mode fifo k s).arg0 = s.arg0 ∧
    (cfgfUpdate b scale mode fifo k s).arg1 = s.arg1 := by
  unfold cfgfUpdate
  split <;> exact ⟨rfl, rfl⟩

theorem cfgfUpdate_fa1r (h1 : k ≠ 1) (h7 : k ≠ 7) (s : State) : (cfgfUpdate b scale mode fifo k s).fa1r = s.fa1r := by
  unfold cfgfUpdate
  split <;> try rfl
  · exact absurd rfl h1
  · exact absurd rfl h7

theorem cfgfUpdate_fs1r (h : k ≠ 2) (s : State) : (cfgfUpdate b scale mode fifo k s).fs1r = s.fs1r := by
  unfold cfgfUpdate
  split <;> try rfl
  exact absurd rfl h

theorem cfgfUpdate_fm1r (h : k ≠ 3) (s : State) : (cfgfUpdate b scale mode fifo k s).fm1r = s.fm1r := by
  unfold cfgfUpdate
  split <;> try rfl
  exact absurd rfl h

theorem cfgfUpdate_ffa1r (h : k ≠ 6) (s : State) : (cfgfUpdate b scale mode fifo k s).ffa1r = s.ffa1r := by
  unfold cfgfUpdate
  split <;> try rfl
  exact absurd rfl h

theorem cfgfUpdate_fr1 (h : k ≠ 4) (s : State) :
    ((cfgfUpdate b scale mode fifo k s).bank b).fr1 = (s.bank b).fr1 := by
  unfold cfgfUpdate
  split <;> try rfl
  · exact absurd rfl h
  · rw [setBank_bank_self]

theorem cfgfUpdate_fr2 (h : k ≠ 5) (s : State) :
    ((cfgfUpdate b scale mode fifo k s).bank b).fr2 = (s.bank b).fr2 := by
  unfold cfgfUpdate
  split <;> try rfl
  · rw [setBank_bank_self]
  · exact absurd rfl h

theorem ffa_withBit (v : Word) (s : State) : ({ s with ffa1r := withBit v b.val (fifoBit fifo) } : State).ffa b.val = fifo := by
  rw [State.ffa, bit_withBit_self _ _ (by omega)]
  revert fifo
  decide

/-- An update of CFGF adds its own value to those that are in place. -/
theorem cfgfUpdate_soFar {p : InFlight} {s : State} (h8 : p.step < 8) (h : s.CfgfSoFar b.val scale mode fifo p) :
    (cfgfUpdate b scale mode fifo p.step s).CfgfSoFar b.val scale mode fifo { p with step := p.step + 1 } := by
  obtain ⟨finit, fact, fsc, fbm, fr1, fr2, ffa⟩ := h
  obtain ⟨arg0, arg1⟩ := cfgfUpdate_args (b := b) (scale := scale) (mode := mode) (fifo := fifo) (k := p.step) s
  have hb : b.val < 32 := by omega
  refine ⟨fun _ => cfgfUpdate_finit h8 (or_iff_not_imp_left.2 fun h0 => finit (by omega)), fun hk => ?_, fun hk => ?_,
    fun hk => ?_, fun hk c hc => ?_, fun hk c hc => ?_, fun hk => ?_⟩
  all_goals simp only at hk
  · by_cases hp : p.step = 1
    · rw [hp]; exact bit_withBit_self s.fa1r false hb
    · rw [State.fact, cfgfUpdate_fa1r hp (by omega)]; exact fact (by omega)
  · by_cases hp : p.step = 2
    · rw [hp]; exact bit_withBit_self s.fs1r scale.toBool hb
    · rw [State.fsc, cfgfUpdate_fs1r hp]; exact fsc (by omega)
  · by_cases hp : p.step = 3
    · rw [hp]; exact bit_withBit_self s.fm1r mode.toBool hb
    · rw [State.fbm, cfgfUpdate_fm1r hp]; exact fbm (by omega)
  · obtain rfl := Fin.ext hc
    rw [arg0]
    by_cases hp : p.step = 4
    · rw [hp, cfgfUpdate, setBank_bank_self]
    · rw [cfgfUpdate_fr1 hp]; exact fr1 (by omega) c rfl
  · obtain rfl := Fin.ext hc
    rw [arg1]
    by_cases hp : p.step = 5
    · rw [hp, cfgfUpdate, setBank_bank_self]
    · rw [cfgfUpdate_fr2 hp]; exact fr2 (by omega) c rfl
  · by_cases hp : p.step = 6
    · rw [hp]; exact ffa_withBit s.ffa1r s
    · rw [State.ffa, cfgfUpdate_ffa1r hp]; exact ffa (by omega)

end Cfgf

theorem cfgfMicro_goesOnSafe {bank : Nat} {scale : FilterScale} {mode : FilterMode} {fifo : Fin 2} {p : InFlight} {s : State}
    (h : s.CfgfSoFar bank scale mode fifo p) :
    (cfgfMicro bank scale mode fifo p s).GoesOnSafe (.cfgf bank scale mode fifo) := by
  by_cases hb : bank < s.cfg.val.fbCount ∧ bank < 28
  · have micro := cfgfMicro_eq (b := ⟨bank, hb.2⟩) (scale := scale) (mode := mode) (fifo := fifo) (p := p) hb.1
      (or_iff_not_imp_left.2 fun h0 => h.1 (by omega))
    rw [micro]
    split
    · next h8 => exact goto_goesOnSafe (cfgfUpdate_soFar (b := ⟨bank, hb.2⟩) h8 h)
    · exact finish_goesOnSafe
  · rw [cfgfMicro, dif_neg hb]
    exact finish_goesOnSafe

/-! ### TX: the claimed mailbox is empty, so each write is stored -/

theorem field_toNat_lt (v : Word) (hi lo : Nat) : (field v hi lo).toNat < 2 ^ (hi + 1 - lo) := by
  rw [field_toNat]
  exact Nat.mod_lt _ (Nat.two_pow_pos _)

/-- The operands of a decoded command come from its fields, so they fit them (R133). -/
theorem decode_wellFormed {w : Word} {i : Instr} (h : decode w = .ok i) : i.wellFormed = true := by
  unfold decode at h
  split at h
  · cases h; exact decide_eq_true (field_toNat_lt w 23 16)
  split at h
  · cases h; exact decide_eq_true (field_toNat_lt w 8 4)
  split at h
  · cases h; exact decide_eq_true (field_toNat_lt w 11 8)
  split at h
  · cases h; rfl
  · cases h

/-- The word TX writes into TDTmR has no reserved bit (R44, R196). -/
theorem tdtWord_writable (tgt : Bool) {dlc : Nat} (h : dlc < 16) :
    tdtWord tgt dlc &&& 0xFFFF010F#32 = tdtWord tgt dlc := by
  have all : ∀ d < 16, ∀ b : Bool, tdtWord b d &&& 0xFFFF010F#32 = tdtWord b d := by decide
  exact all dlc h tgt

/-- A masked write makes the bits of its mask hold the written values. -/
theorem patch_and_mask (c : Cell) (m v : Word) :
    (c.patch m v).val &&& m = v &&& m ∧ (c.patch m v).known &&& m = m := by
  refine ⟨merge_and_mask .., word_ext fun j _ => ?_⟩
  simp only [Cell.patch, bit_and, bit_or]
  cases bit m j <;> simp

/-- What a write of TIiR without a request stores in an empty mailbox (R43). -/
theorem writeTir_of_empty {i : Fin 3} {v : Word} {s : State} (h : s.tme i = true) (hv : bit v 0 = false) :
    writeReg (.tir i) v s = s.setMailbox i { s.mailbox i with tir := .of v } := by
  rw [writeReg, writeTir, if_pos h]
  exact if_neg (by rw [hv]; exact Bool.false_ne_true)

theorem txMicro_goesOnSafe {ide rtr tgt : Bool} {dlc : Nat} {p : InFlight} {s : State} (hd : dlc < 16)
    (h : s.TxSoFar ide rtr tgt dlc p) : (txMicro ide rtr tgt dlc p s).GoesOnSafe (.tx ide rtr tgt dlc) := by
  obtain ⟨tme, tir, tdtr, tdlr, tdhr⟩ := h
  unfold txMicro
  simp only
  split
  · obtain ⟨u, ⟨_, _, rfl⟩, ⟨st, e, -⟩ | ⟨-, -, e⟩ | ⟨-, m, hm, e⟩⟩ := txClaim_cases ide dlc p s <;> rw [e]
    · exact finish_goesOnSafe
    · exact finish_goesOnSafe
    · exact goto_goesOnSafe ⟨fun _ => hm, by simp, by simp, by simp, by simp⟩
  · next hp =>
    rw [writeTir_of_empty (tme (by omega)) (idWord_bit0 ..)]
    refine goto_goesOnSafe ⟨fun _ => tme (by omega), fun _ => ?_, by simp [hp], by simp [hp], by simp [hp]⟩
    rw [setMailbox_mailbox_self, setMailbox_arg0]
  · next hp =>
    obtain ⟨val, known⟩ := patch_and_mask (s.mailbox p.m).tdtr 0xFFFF010F#32 (tdtWord tgt dlc)
    rw [writeReg, if_pos (tme (by omega))]
    refine goto_goesOnSafe ⟨fun _ => tme (by omega), fun _ => ?_, fun _ => ?_, by simp [hp], by simp [hp]⟩
    · rw [setMailbox_mailbox_self]; exact tir (by omega)
    · rw [setMailbox_mailbox_self]; exact ⟨val.trans (tdtWord_writable tgt hd), known⟩
  · next hp =>
    rw [writeReg, if_pos (tme (by omega))]
    refine goto_goesOnSafe ⟨fun _ => tme (by omega), fun _ => ?_, fun _ => ?_, fun _ => ?_, by simp [hp]⟩
    · rw [setMailbox_mailbox_self]; exact tir (by omega)
    · rw [setMailbox_mailbox_self]; exact tdtr (by omega)
    · rw [setMailbox_mailbox_self, setMailbox_arg1]
  · next hp =>
    rw [writeReg, if_pos (tme (by omega))]
    refine goto_goesOnSafe ⟨fun _ => tme (by omega), fun _ => ?_, fun _ => ?_, fun _ => ?_, fun _ => ?_⟩
    · rw [setMailbox_mailbox_self]; exact tir (by omega)
    · rw [setMailbox_mailbox_self]; exact tdtr (by omega)
    · rw [setMailbox_mailbox_self]; exact tdlr (by omega)
    · rw [setMailbox_mailbox_self, setMailbox_arg2]
  · exact finish_goesOnSafe

/-! ### RX: the reads show the head, and only draw -/

/-- An empty FIFO reads FMP = 0 (R222). -/
theorem fmpOf_of_empty {f : Fin 2} {s : State} (h : s.queue f = []) : fmpOf (readReg (.rfr f) s).1 = 0 := by
  have none : ∀ a b : Bool, fmpOf (Fifo.word ⟨[], a, b⟩) = 0 := by decide
  have e : s.fifo f = ⟨[], (s.fifo f).full, (s.fifo f).fovr⟩ := by
    rw [← h]
    rfl
  rw [readReg_of_view (v := (s.fifo f).word) (by simp) rfl, e]
  exact none _ _

section Head

variable {f : Fin 2} {s : State} {e : Entry} {rest : List Entry} (h : s.queue f = e :: rest)
include h

/-! What RX reads of the head of the queue (R46 to R48, R220). -/

theorem readReg_rir_head : (readReg (.rir f) s).1 = e.ri &&& 0xFFFFFFFE#32 :=
  readReg_of_view (by simp) (by simp only [view, h])

theorem readReg_rdtr_head : (readReg (.rdtr f) s).1 = e.rdt &&& 0xFFFFFF0F#32 :=
  readReg_of_view (by simp) (by simp only [view, h])

theorem readReg_rdlr_head : (readReg (.rdlr f) s).1 &&& e.rdl.known = e.rdl.val &&& e.rdl.known := by
  rw [readReg_eq_resolve (by simp), show view (.rdlr f) s = e.rdl by simp only [view, h]]
  exact resolve_and_known ..

theorem readReg_rdhr_head : (readReg (.rdhr f) s).1 &&& e.rdh.known = e.rdh.val &&& e.rdh.known := by
  rw [readReg_eq_resolve (by simp), show view (.rdhr f) s = e.rdh by simp only [view, h]]
  exact resolve_and_known ..

end Head

theorem rxMicro_goesOnSafe {f : Fin 2} {p : InFlight} {s : State} (h : s.RxSoFar f p) :
    (rxMicro f p s).GoesOnSafe (.rx f) := by
  have queue : ∀ r, (readReg r s).2.queue f = s.queue f := fun r => readReg_queue f r s
  unfold rxMicro rxPending
  simp only
  split
  · split
    · exact finish_goesOnSafe
    · next pending =>
      refine goto_goesOnSafe fun _ => ?_
      rw [queue]
      cases hq : s.queue f with
      | nil => exact absurd (fmpOf_of_empty hq) pending
      | cons e rest =>
        exact ⟨e, rest, rfl, by simp, by simp, by simp, by simp⟩
  · next hp =>
    obtain ⟨e, rest, hq, -⟩ := h (by omega)
    exact goto_goesOnSafe fun _ => ⟨e, rest, (queue _).trans hq, fun _ => readReg_rir_head hq,
      by simp, by simp, by simp⟩
  · next hp =>
    obtain ⟨e, rest, hq, ri, -⟩ := h (by omega)
    exact goto_goesOnSafe fun _ => ⟨e, rest, (queue _).trans hq, fun _ => ri (by omega), fun _ => readReg_rdtr_head hq,
      by simp, by simp⟩
  · next hp =>
    obtain ⟨e, rest, hq, ri, rdt, -⟩ := h (by omega)
    exact goto_goesOnSafe fun _ => ⟨e, rest, (queue _).trans hq, fun _ => ri (by omega), fun _ => rdt (by omega),
      fun _ => readReg_rdlr_head hq, by simp⟩
  · next hp =>
    obtain ⟨e, rest, hq, ri, rdt, lo, -⟩ := h (by omega)
    exact goto_goesOnSafe fun _ => ⟨e, rest, (queue _).trans hq, fun _ => ri (by omega), fun _ => rdt (by omega),
      fun _ => lo (by omega), fun _ => readReg_rdhr_head hq⟩
  · exact finish_goesOnSafe

end Sys2Proof.Machine
end

section
/-! PROOF. What the command in flight has done stays done, whoever makes the next step (O59). -/

open Sys2Proof Sys2Proof.Machine

namespace Sys2Proof.Machine

/-- No register write moves the sequencer. -/
theorem writeReg_seq (r : Reg) (v : Word) (s : State) : (writeReg r v s).seq = s.seq := by
  cases r with
  | mcr => simp only [writeReg, writeMcr]; split <;> rfl
  | rfr f => simp only [writeReg, writeRfr]; split <;> rfl
  | tir i =>
    simp only [writeReg, writeTir]
    split
    · split <;> rfl
    · rfl
  | btr | tdtr | tdlr | tdhr | fm1r | fs1r | ffa1r | fr1 | fr2 => simp only [writeReg]; split <;> rfl
  | msr | tsr | ier | esr | rir | rdtr | rdlr | rdhr | fmr | fa1r => rfl

theorem elapse_soFar {i : Instr} {p : InFlight} {s : State} (h : s.SoFar i p) : (elapse s).SoFar i p := by
  cases i <;> exact h

/-- A micro-operation of the command in flight leaves what the next one relies on. -/
theorem exec_goesOnSafe {i : Instr} {s t : State} (hw : i.wellFormed = true) (h : s.SoFar i s.pos)
    (he : exec i s = .next t) : t.GoesOnSafe i := by
  cases i with
  | init mode flags baud => cases he; exact initMicro_goesOnSafe h
  | cfgf bank scale mode fifo => cases he; exact cfgfMicro_goesOnSafe h
  | tx ide rtr tgt dlc => cases he; exact txMicro_goesOnSafe (of_decide_eq_true hw) h
  | rx f => cases he; exact rxMicro_goesOnSafe h

theorem sequencer_inFlightSafe {s t : State} (h : s.InFlightSafe) (hs : sequencer s = .next t) : t.InFlightSafe := by
  rcases sequencer_cases hs with ⟨-, rfl⟩ | ⟨i, hb, hd, he⟩ | ⟨e, -, -, rfl⟩
  · exact h
  · rw [inFlightSafe_iff] at *
    have here : s.SoFar i s.pos := by
      cases hp : s.seq with
      | idle => exact absurd hp hb
      | busy p => rw [pos_of_busy hp]; exact h p i hp hd
    have next : t.GoesOnSafe i := exec_goesOnSafe (decode_wellFormed hd) (elapse_soFar here) he
    obtain ⟨-, -, hcmd, -⟩ := exec_keeps he
    intro q j hq hj
    rw [hcmd, elapse_cmd, hd] at hj
    cases hj
    exact next q hq
  · exact inFlightSafe_of_idle rfl

end Sys2Proof.Machine

/-- Settles O59: the next micro-operation adds to what is done, an event touches nothing of it, and the host moves only while
no command is in flight. -/
theorem stepKeepsCommandInFlight : Obligations.StepKeepsCommandInFlight := by
  intro s t h hs
  rcases step_cases hs with hs | ⟨⟨wait, move⟩, rest, -, due, hs⟩
  · exact sequencer_inFlightSafe h hs
  · cases move with
    | env e =>
      cases hs
      exact fire_inFlightSafe (s := { s with agenda := rest }) e h
    | host a =>
      have idle : s.seq = .idle := of_decide_eq_true due
      rcases hostAct_cases hs with ⟨cmd, a0, a1, a2, rfl⟩ | ⟨ws, u, ⟨_, _, rfl⟩, rfl⟩ | rfl | ⟨r, v, rfl⟩
      · rw [inFlightSafe_iff]
        intro p i hp _
        cases hp
        exact soFar_start i _
      · exact inFlightSafe_of_idle idle
      · exact inFlightSafe_of_idle idle
      · exact inFlightSafe_of_idle ((writeReg_seq r v _).trans idle)
end

section
/-! PROOF. The encoder writes back the word a command was decoded from, and the words no row accepts are the reserved ones
(O1 to O4). -/

open Sys2Proof Sys2Proof.Machine

namespace Sys2Proof.Machine

/-! ### A field put back in its place -/

/-- A field shifted back is the word on the bits of the field. -/
theorem field_shiftLeft (w : Word) (hi lo : Nat) : field w hi lo <<< lo = w &&& (mask (hi + 1 - lo) <<< lo) := by
  refine word_ext fun j _ => ?_
  simp only [field, bit_shiftLeft, bit_and, bit_shiftRight]
  by_cases h : j < lo
  · simp [h]
  · rw [Nat.add_sub_cancel' (Nat.le_of_not_lt h), Bool.and_left_comm]

/-- A bit shifted back is the word on that bit. -/
theorem ofBit_bit_shiftLeft (w : Word) (k : Nat) : ofBit (bit w k) <<< k = w &&& single k := by
  refine word_ext fun j hj => ?_
  rw [bit_shiftLeft, bit_ofBit, bit_and, bit_single]
  rcases Nat.lt_trichotomy j k with h | rfl | h
  · simp [h, Nat.ne_of_lt h]
  · simp [hj]
  · simp [Nat.ne_of_gt h, Nat.sub_ne_zero_of_lt h]

/-! ### Operands come back from the fields they were read from -/

theorem code_ofField {n : Nat} (h : n < 4) : (OpMode.ofField n).code = BitVec.ofNat 32 n := by
  interval_cases n <;> rfl

theorem code_ofField_field (w : Word) : (OpMode.ofField (field w 5 4).toNat).code = field w 5 4 := by
  rw [code_ofField (field_toNat_lt w 5 4), BitVec.ofNat_toNat, BitVec.setWidth_eq]

theorem fifoBit_fifoOfBit (b : Bool) : fifoBit (fifoOfBit b) = b := by cases b <;> rfl

theorem scale_toBool_ite (b : Bool) : (if b then FilterScale.one32 else .two16).toBool = b := by cases b <;> rfl

theorem mode_toBool_ite (b : Bool) : (if b then FilterMode.list else .mask).toBool = b := by cases b <;> rfl

/-- FLAGS in its place, flag by flag (R122). -/
theorem flagsCode_shiftLeft (f : FeatureFlags) : f.code <<< 6 =
    (ofBit f.txfp <<< 6) ||| (ofBit f.rflm <<< 7) ||| (ofBit f.nart <<< 8) ||| (ofBit f.awum <<< 9) |||
      (ofBit f.abom <<< 10) ||| (ofBit f.ttcm <<< 11) := by
  simp only [FeatureFlags.code, BitVec.shiftLeft_or_distrib, ← BitVec.shiftLeft_add]

/-! ### Encoding what was decoded: every bit of the word outside the row's fixed bits, and those of the row -/

theorem encode_decodeInit (w : Word) : encode (decodeInit w) = (w &&& ~~~rowInit.mask) ||| rowInit.pattern := by
  have bits : mask 8 <<< 16 ||| (single 6 ||| single 7 ||| single 8 ||| single 9 ||| single 10 ||| single 11) |||
      mask 2 <<< 4 = ~~~rowInit.mask := by decide
  simp only [decodeInit, encode, flagsCode_shiftLeft, code_ofField_field, BitVec.ofNat_toNat, BitVec.setWidth_eq,
    field_shiftLeft, ofBit_bit_shiftLeft, ← BitVec.and_or_distrib_left]
  rw [← bits]
  rfl

theorem encode_decodeCfgf (w : Word) : encode (decodeCfgf w) = (w &&& ~~~rowCfgf.mask) ||| rowCfgf.pattern := by
  have bits : single 11 ||| single 10 ||| single 9 ||| mask 5 <<< 4 = ~~~rowCfgf.mask := by decide
  simp only [decodeCfgf, encode, fifoBit_fifoOfBit, scale_toBool_ite, mode_toBool_ite, BitVec.ofNat_toNat,
    BitVec.setWidth_eq, field_shiftLeft, ofBit_bit_shiftLeft, ← BitVec.and_or_distrib_left]
  rw [← bits]
  rfl

theorem encode_decodeTx (w : Word) : encode (decodeTx w) = (w &&& ~~~rowTx.mask) ||| rowTx.pattern := by
  have bits : mask 4 <<< 8 ||| single 6 ||| single 5 ||| single 4 = ~~~rowTx.mask := by decide
  simp only [decodeTx, encode, BitVec.ofNat_toNat, BitVec.setWidth_eq, field_shiftLeft, ofBit_bit_shiftLeft,
    ← BitVec.and_or_distrib_left]
  rw [← bits]
  rfl

theorem encode_decodeRx (w : Word) : encode (decodeRx w) = (w &&& ~~~rowRx.mask) ||| rowRx.pattern := by
  have bits : single 4 = ~~~rowRx.mask := by decide
  simp only [decodeRx, encode, fifoBit_fifoOfBit, ofBit_bit_shiftLeft]
  rw [← bits]
  rfl

/-- A word is what it holds outside a row's fixed bits and, when the row accepts it, the row's pattern. -/
theorem eq_of_accepts {r : Row} {w : Word} (h : r.accepts w = true) : (w &&& ~~~r.mask) ||| r.pattern = w := by
  have fixed : w &&& r.mask = r.pattern := of_decide_eq_true h
  refine word_ext fun j hj => ?_
  rw [← fixed]
  simp only [bit_or, bit_and, bit_not, hj, decide_true, Bool.true_and]
  cases bit w j <;> cases bit r.mask j <;> rfl

/-- No bit of a command word is dropped (R127). -/
theorem encode_decode {w : Word} {i : Instr} (h : decode w = .ok i) : encode i = w := by
  unfold decode at h
  split at h
  · next row => cases h; exact (encode_decodeInit w).trans (eq_of_accepts row)
  split at h
  · next row => cases h; exact (encode_decodeCfgf w).trans (eq_of_accepts row)
  split at h
  · next row => cases h; exact (encode_decodeTx w).trans (eq_of_accepts row)
  split at h
  · next row => cases h; exact (encode_decodeRx w).trans (eq_of_accepts row)
  · cases h

/-! ### The fixed bits of a row as arithmetic on the word -/

/-- The word is 0 on the bits of a field exactly when the field is 0. -/
theorem and_field_eq_zero_iff (w : Word) (hi lo : Nat) :
    w &&& (mask (hi + 1 - lo) <<< lo) = 0#32 ↔ w.toNat / 2 ^ lo % 2 ^ (hi + 1 - lo) = 0 := by
  rw [← field_shiftLeft, ← Nat.shiftRight_eq_div_pow, ← field_toNat]
  constructor
  · intro h
    have zero : field w hi lo = 0#32 := word_ext fun j _ => by
      by_cases hj : lo + j < 32
      · have := congrArg (bit · (lo + j)) h
        simpa [hj] using this
      · rw [bit_field, bit_of_ge w (Nat.le_of_not_lt hj), bit_zero, Bool.false_and, Bool.false_and]
    rw [zero]
    rfl
  · intro h
    rw [BitVec.eq_of_toNat_eq (y := 0#32) h, BitVec.zero_shiftLeft]

/-- The opcode is `CMD[3:0]` (R121). -/
theorem and_opcode_eq_iff (w p : Word) : w &&& 0xF#32 = p ↔ w.toNat % 16 = p.toNat := by
  rw [← BitVec.toNat_inj, BitVec.toNat_and]
  exact iff_of_eq (congrArg (· = p.toNat) (Nat.and_two_pow_sub_one_eq_mod w.toNat 4))

/-- Two groups of fixed bits, of which only the first holds a set bit, are checked one after the other. -/
theorem and_or_eq_iff {w a b p : Word} (ha : p &&& a = p) (hb : p &&& b = 0#32) :
    w &&& (a ||| b) = p ↔ w &&& a = p ∧ w &&& b = 0#32 := by
  constructor
  · intro h
    have on : ∀ m, w &&& ((a ||| b) &&& m) = p &&& m := fun m => by rw [← BitVec.and_assoc, h]
    have ea : (a ||| b) &&& a = a := word_ext fun j _ => by simp only [bit_and, bit_or]; cases bit a j <;> simp
    have eb : (a ||| b) &&& b = b := word_ext fun j _ => by simp only [bit_and, bit_or]; cases bit b j <;> simp
    exact ⟨by rw [← ea, on, ha], by rw [← eb, on, hb]⟩
  · rintro ⟨h, k⟩
    rw [BitVec.and_or_distrib_left, h, k, BitVec.or_zero]

theorem rowInit_accepts_iff (w : Word) : rowInit.accepts w = true ↔
    (w.toNat % 16 = 1 ∧ w.toNat / 2 ^ 12 % 2 ^ 4 = 0) ∧ w.toNat / 2 ^ 24 % 2 ^ 8 = 0 := by
  have parts : rowInit.mask = (0xF#32 ||| mask 4 <<< 12) ||| mask 8 <<< 24 := by decide
  rw [Row.accepts, decide_eq_true_iff, parts, and_or_eq_iff (by decide) (by decide),
    and_or_eq_iff (by decide) (by decide), and_opcode_eq_iff, and_field_eq_zero_iff w 15 12,
    and_field_eq_zero_iff w 31 24]
  rfl

theorem rowCfgf_accepts_iff (w : Word) : rowCfgf.accepts w = true ↔
    w.toNat % 16 = 2 ∧ w.toNat / 2 ^ 12 % 2 ^ 20 = 0 := by
  have parts : rowCfgf.mask = 0xF#32 ||| mask 20 <<< 12 := by decide
  rw [Row.accepts, decide_eq_true_iff, parts, and_or_eq_iff (by decide) (by decide),
    and_opcode_eq_iff, and_field_eq_zero_iff w 31 12]
  rfl

theorem rowTx_accepts_iff (w : Word) : rowTx.accepts w = true ↔
    (w.toNat % 16 = 3 ∧ w.toNat / 2 ^ 7 % 2 ^ 1 = 0) ∧ w.toNat / 2 ^ 12 % 2 ^ 20 = 0 := by
  have parts : rowTx.mask = (0xF#32 ||| mask 1 <<< 7) ||| mask 20 <<< 12 := by decide
  rw [Row.accepts, decide_eq_true_iff, parts, and_or_eq_iff (by decide) (by decide),
    and_or_eq_iff (by decide) (by decide), and_opcode_eq_iff, and_field_eq_zero_iff w 7 7,
    and_field_eq_zero_iff w 31 12]
  rfl

theorem rowRx_accepts_iff (w : Word) : rowRx.accepts w = true ↔
    w.toNat % 16 = 4 ∧ w.toNat / 2 ^ 5 % 2 ^ 27 = 0 := by
  have parts : rowRx.mask = 0xF#32 ||| mask 27 <<< 5 := by decide
  rw [Row.accepts, decide_eq_true_iff, parts, and_or_eq_iff (by decide) (by decide),
    and_opcode_eq_iff, and_field_eq_zero_iff w 31 5]
  rfl

/-- A word is illegal exactly when no row accepts it (R132, R133). -/
theorem decode_error_iff (w : Word) : (∃ e, decode w = .error e) ↔
    ¬(rowInit.accepts w = true ∨ rowCfgf.accepts w = true ∨ rowTx.accepts w = true ∨ rowRx.accepts w = true) := by
  unfold decode
  split
  · next h => simp [h]
  split
  · next h => simp [h]
  split
  · next h => simp [h]
  split
  · next h => simp [h]
  · next h1 h2 h3 h4 => simp [h1, h2, h3, h4]

/-- The illegal words are the reserved words of R132. -/
theorem decode_error_iff_reserved (w : Word) : (∃ e, decode w = .error e) ↔ ReservedWord w := by
  have bound : w.toNat < 2 ^ 32 := w.isLt
  rw [decode_error_iff, rowInit_accepts_iff, rowCfgf_accepts_iff, rowTx_accepts_iff, rowRx_accepts_iff]
  simp only [ReservedWord]
  omega

/-! ### An illegal command in flight -/

/-- The sequencer ends an illegal command at once, a step of it having passed. -/
theorem sequencer_of_error {s : State} {e : Illegal} (hb : s.seq ≠ .idle) (hd : decode s.cmd = .error e) :
    sequencer s = .next (raise .illegalCommand (elapse s)) := by
  unfold sequencer
  split
  · next h => exact absurd h hb
  · rw [hd]

end Sys2Proof.Machine

/-- Settles O1: format by format, each operand is read back from the field it was put in. -/
theorem decodeOfEncode : Obligations.DecodeOfEncode := fun _ h => decode_encode h

/-- Settles O2: the encoder fills the operand fields with what was read from them, and the row's check fixes the rest. -/
theorem encodeOfDecode : Obligations.EncodeOfDecode := fun _ _ h => ⟨decode_wellFormed h, encode_decode h⟩

/-- Settles O3: the rows' checks are R132 as arithmetic, and the sequencer's step on such a word is the end of the command. -/
theorem illegalCommandWritesOnlyStatus : Obligations.IllegalCommandWritesOnlyStatus := by
  refine ⟨decode_error_iff_reserved, fun s turn reserved => ?_⟩
  obtain ⟨e, he⟩ := (decode_error_iff_reserved s.cmd).2 reserved
  rw [step_of_sequencerTurn turn, sequencer_of_error turn.1 he]
  rfl

/-- Settles O4: each word is decoded by evaluation. -/
theorem specWordsDecode : Obligations.SpecWordsDecode := by
  unfold Obligations.SpecWordsDecode
  decide
end

section
/-! PROOF. The frames of the four commands, from any place, by one micro-operation or to the end (O17, O22, O26, O31). -/

open Sys2Proof Sys2Proof.Machine

namespace Sys2Proof.Machine

/-- What is reached, when `P` holds while the command goes on: `Q`, which every micro-operation from a state with `P` gives. -/
theorem Completes.gives {i : Instr} {P Q : State → Prop}
    (h : ∀ u v, P u → exec i u = .next v → Q v ∧ (v.seq ≠ .idle → P v)) {n : Nat} {s t : State} (hs : P s)
    (c : Completes i n s t) : Q t := by
  induction n generalizing s with
  | zero => exact c.elim
  | succ n ih =>
    cases n with
    | zero => exact (h s t hs c.1).1
    | succ n =>
      obtain ⟨u, hu, busy, c⟩ := c
      exact ih ((h s u hs hu).2 busy) c

theorem Reaches.gives {i : Instr} {P Q : State → Prop}
    (h : ∀ u v, P u → exec i u = .next v → Q v ∧ (v.seq ≠ .idle → P v)) {s t : State} (hs : P s)
    (r : Reaches i s t) : Q t := by
  rcases r with e | ⟨n, c⟩
  · exact (h s t hs e).1
  · exact c.gives h hs

/-- What a command reaches is its next state, or what it reaches from there. -/
theorem Reaches.first {i : Instr} {s t : State} (r : Reaches i s t) :
    ∃ u, exec i s = .next u ∧ (t = u ∨ (u.seq ≠ .idle ∧ Reaches i u t)) := by
  rcases r with e | ⟨n, c⟩
  · exact ⟨t, e, .inl rfl⟩
  · match n, c with
    | 1, ⟨e, _⟩ => exact ⟨t, e, .inl rfl⟩
    | n + 2, ⟨u, e, busy, c⟩ => exact ⟨u, e, .inr ⟨busy, .inr ⟨n + 1, c⟩⟩⟩

/-! ### INIT -/

theorem InitFrame.refl (s : State) : InitFrame s s := ⟨rfl, rfl, fun _ => rfl⟩

theorem init_reaches_frame {mode : OpMode} {flags : FeatureFlags} {baud : Nat} {s t : State}
    (r : Reaches (.init mode flags baud) s t) : InitFrame s t := by
  refine r.gives (P := InitFrame s) (fun u v hu e => ?_) (.refl s)
  cases e
  have next := hu.trans (initMicro_frame mode flags baud u.pos u)
  exact ⟨next, fun _ => next⟩

/-! ### TX -/

/-- TX keeps to mailbox `m`, which it has not yet handed over. -/
def TxKeepsTo (m : Fin 3) (s u : State) : Prop :=
  TxFrame m s u ∧ u.txOrder = s.txOrder ∧ 1 ≤ u.pos.step ∧ u.pos.m = m

/-- What TX may change with mailbox `m` handed over at most once. -/
def TxReached (m : Fin 3) (s t : State) : Prop :=
  TxFrame m s t ∧ (t.txOrder = s.txOrder ∨ t.txOrder = s.txOrder ++ [m])

/-- A TX that keeps to a mailbox keeps to it until its end. -/
theorem TxKeepsTo.reached {ide rtr tgt : Bool} {dlc : Nat} {m : Fin 3} {s u t : State} (h : TxKeepsTo m s u)
    (r : Reaches (.tx ide rtr tgt dlc) u t) : TxReached m s t := by
  refine r.gives (P := TxKeepsTo m s) (fun u v hu e => ?_) h
  cases e
  obtain ⟨frame, order, step, claimed⟩ := hu
  obtain ⟨next, ⟨idle, handed⟩ | ⟨kept, step', claimed'⟩⟩ := txMicro_frame ide rtr tgt dlc m u step claimed
  · rw [order] at handed
    exact ⟨⟨frame.trans next, handed⟩, fun busy => absurd idle busy⟩
  · exact ⟨⟨frame.trans next, .inl (kept.trans order)⟩, fun _ => ⟨frame.trans next, kept.trans order, step', claimed'⟩⟩

/-- The first micro-operation of TX ends the command, or claims a mailbox; it changes no register. -/
theorem tx_start_cases {ide rtr tgt : Bool} {dlc : Nat} {s u : State} (h0 : s.pos.step = 0)
    (e : exec (.tx ide rtr tgt dlc) s = .next u) :
    (∀ m, TxFrame m s u) ∧ u.txOrder = s.txOrder ∧ (u.seq = .idle ∨ 1 ≤ u.pos.step) := by
  cases e
  have claim : txMicro ide rtr tgt dlc s.pos s = txClaim ide dlc s.pos s := by
    simp [txMicro, h0]
  rw [claim]
  obtain ⟨u, drawn, ⟨st, e, -⟩ | ⟨-, -, e⟩ | ⟨-, m, -, e⟩⟩ := txClaim_cases ide dlc s.pos s <;> rw [e]
  · exact ⟨fun m => finish_txFrame m st 0 s, rfl, .inl rfl⟩
  · exact ⟨fun m => drawn.txFrame.trans (finish_txFrame m .noMailbox 0 u), drawn.txOrder, .inl rfl⟩
  · exact ⟨fun k => drawn.txFrame.trans (goto_txFrame k _ u), drawn.txOrder, .inr (Nat.le_refl 1)⟩

theorem tx_reaches {ide rtr tgt : Bool} {dlc : Nat} {s t : State} (r : Reaches (.tx ide rtr tgt dlc) s t) :
    ∃ m : Fin 3, (1 ≤ s.pos.step → m = s.pos.m) ∧ TxReached m s t := by
  rcases Nat.eq_zero_or_pos s.pos.step with h0 | h1
  · obtain ⟨u, e, c⟩ := r.first
    obtain ⟨frame, order, c'⟩ := tx_start_cases h0 e
    have claimed : 1 ≤ s.pos.step → u.pos.m = s.pos.m := fun h => by omega
    refine ⟨u.pos.m, claimed, ?_⟩
    rcases c with rfl | ⟨busy, r⟩
    · exact ⟨frame _, .inl order⟩
    · exact TxKeepsTo.reached ⟨frame _, order, c'.resolve_left busy, rfl⟩ r
  · exact ⟨s.pos.m, fun _ => rfl, TxKeepsTo.reached ⟨.refl _ s, rfl, h1, rfl⟩ r⟩

/-! ### RX -/

theorem RxFrame.refl (f : Fin 2) (s : State) : RxFrame f s s := ⟨rfl, fun _ _ => rfl, rfl, rfl⟩

/-- RX keeps to FIFO `f`, of which it has not yet released the head. -/
def RxKeepsQueue (f : Fin 2) (s u : State) : Prop := RxFrame f s u ∧ u.queue f = s.queue f

/-- What RX may change with the head released at most once. -/
def RxReached (f : Fin 2) (s t : State) : Prop :=
  RxFrame f s t ∧ (t.queue f = s.queue f ∨ t.queue f = (s.queue f).tail)

/-- RX removes the head of the queue only with the micro-operation that ends it (R227). -/
theorem rx_reaches {f : Fin 2} {s t : State} (r : Reaches (.rx f) s t) : RxReached f s t := by
  refine r.gives (P := RxKeepsQueue f s) (fun u v hu e => ?_) ⟨.refl f s, rfl⟩
  cases e
  obtain ⟨frame, queue⟩ := hu
  obtain ⟨next, kept | ⟨idle, tail⟩⟩ := rxMicro_frame f u
  · rw [queue] at kept
    exact ⟨⟨frame.trans next, .inl kept⟩, fun _ => ⟨frame.trans next, kept⟩⟩
  · rw [queue] at tail
    exact ⟨⟨frame.trans next, .inr tail⟩, fun busy => absurd idle busy⟩

end Sys2Proof.Machine

/-- Settles O17: every micro-operation of INIT keeps within the frame, and the frame composes. -/
theorem initLeavesTheRest : Obligations.InitLeavesTheRest := fun _ _ _ _ _ r => init_reaches_frame r

/-- Settles O22: every micro-operation of CFGF keeps within the frame, and the frame composes. -/
theorem cfgfLeavesTheRest : Obligations.CfgfLeavesTheRest := fun _ _ _ _ _ _ r => cfgf_reaches_frame r

/-- Settles O26: the mailbox is the one claimed, by the first micro-operation or before. -/
theorem txLeavesTheRest : Obligations.TxLeavesTheRest := by
  intro ide rtr tgt dlc s t r
  obtain ⟨m, claimed, ⟨rest, pending, others, flags⟩, order⟩ := tx_reaches r
  exact ⟨rest, m, claimed, pending, others, flags, order⟩

/-- Settles O31: no micro-operation but the last touches the queue. -/
theorem rxLeavesTheOtherFifo : Obligations.RxLeavesTheOtherFifo := by
  intro f s t r
  obtain ⟨⟨rest, other, full, fovr⟩, queue⟩ := rx_reaches r
  exact ⟨rest, other, full, fovr, queue⟩
end

section
/-! PROOF. RX on a FIFO that holds a frame: its six micro-operations and the result words (O29). -/

open Sys2Proof Sys2Proof.Machine

namespace Sys2Proof.Machine

/-! ### The result words of the words read -/

theorem unpackId_eq (ide : Bool) (ri : Word) : unpackId ide ri = if ide then ri >>> 3 else ri >>> 21 := by
  cases ide with
  | false =>
    refine word_ext fun j hj => ?_
    by_cases h : j < 11
    · simp [unpackId, bit_field, hj, h]
    · simp [unpackId, bit_field, h, bit_of_ge ri (show 32 ≤ 21 + j by omega)]
  | true =>
    refine word_ext fun j hj => ?_
    simp only [unpackId, if_true, bit_or, bit_shiftLeft, bit_field, bit_shiftRight]
    by_cases h : j < 18
    · simp [h, hj]
    · rw [show 21 + (j - 18) = 3 + j by omega]
      by_cases h' : j < 29
      · simp [h, hj, show j - 18 < 32 by omega, show j - 18 < 11 by omega]
      · simp [h, hj, bit_of_ge ri (show 32 ≤ 3 + j by omega)]

/-- RES[1] of the identifier word as RX reads it, bit 0 of which is 0 (R129, R221). -/
theorem resultId_read (ri : Word) : resultId (ri &&& 0xFFFFFFFE#32) =
    (ofBit (bit ri 2) <<< 31) ||| (ofBit (bit ri 1) <<< 30) ||| (if bit ri 2 then ri >>> 3 else ri >>> 21) := by
  have b1 : bit (ri &&& 0xFFFFFFFE#32) 1 = bit ri 1 := by
    rw [bit_and, show bit 0xFFFFFFFE#32 1 = true by decide, Bool.and_true]
  have b2 : bit (ri &&& 0xFFFFFFFE#32) 2 = bit ri 2 := by
    rw [bit_and, show bit 0xFFFFFFFE#32 2 = true by decide, Bool.and_true]
  have ones : ∀ k ∈ [3, 21], (0xFFFFFFFE#32 : Word) >>> k = BitVec.allOnes 32 >>> k := by decide
  have shift : ∀ k ∈ [3, 21], (ri &&& 0xFFFFFFFE#32) >>> k = ri >>> k := fun k hk => by
    rw [BitVec.ushiftRight_and_distrib, ones k hk, ← BitVec.ushiftRight_and_distrib, BitVec.and_allOnes]
  rw [resultId, b1, b2, unpackId_eq, shift 3 (by simp), shift 21 (by simp)]

/-- RES[2] is the time, index and length word as RX reads it (R130). -/
theorem resultMeta_read (rdt : Word) : resultMeta (rdt &&& 0xFFFFFF0F#32) = rdt &&& 0xFFFFFF0F#32 := by
  have fields (v : Word) : resultMeta v = v &&& 0xFFFFFF0F#32 := by
    have low : field v 3 0 = v &&& mask 4 <<< 0 := by
      rw [← field_shiftLeft v 3 0, BitVec.shiftLeft_zero]
    rw [resultMeta, field_shiftLeft, field_shiftLeft, low, ← BitVec.and_or_distrib_left, ← BitVec.and_or_distrib_left]
    rfl
  rw [fields, BitVec.and_assoc, BitVec.and_self]

/-- The bytes RX copies, from the length word as it reads it (R224, R225). -/
theorem payloadLength_read (rdt : Word) :
    payloadLength (rdt &&& 0xFFFFFF0F#32) = min (rdt &&& 0xF#32).toNat 8 := by
  have low : field (rdt &&& 0xFFFFFF0F#32) 3 0 = rdt &&& 0xF#32 := by
    rw [← BitVec.shiftLeft_zero (field _ 3 0), field_shiftLeft, BitVec.and_assoc]
    rfl
  rw [payloadLength, low]

/-! ### The six micro-operations -/

/-- FMP is the length of the queue, which fits its field (R39, R56). -/
theorem fmpOf_word (q : Fifo) : fmpOf q.word = BitVec.ofNat 32 (q.queue.length % 4) := by
  have all : ∀ n < 4, ∀ a b : Bool, fmpOf (BitVec.ofNat 32 n ||| (ofBit a <<< 3) ||| (ofBit b <<< 4)) = BitVec.ofNat 32 n := by
    decide
  exact all _ (Nat.mod_lt _ (by decide)) q.full q.fovr

/-- A queue that holds a frame, within its depth, reads FMP ≠ 0: the depth is at most 3 (R9). -/
theorem fmpOf_word_ne_zero {f : Fin 2} {s : State} (h : s.queue f ≠ [])
    (fit : (s.queue f).length ≤ s.cfg.val.fifoDepth) : fmpOf (s.fifo f).word ≠ 0 := by
  have depth : s.cfg.val.fifoDepth ≤ 3 := s.cfg.property.2.2.2.1.2
  have short : (s.queue f).length < 4 := Nat.lt_succ_of_le (fit.trans depth)
  have length : (s.fifo f).queue.length % 4 = (s.queue f).length := Nat.mod_eq_of_lt short
  have all : ∀ n < 4, 0 < n → BitVec.ofNat 32 n ≠ 0#32 := by decide
  rw [fmpOf_word, length]
  exact all _ short (List.length_pos_iff.2 h)

/-- The end of RX: the result words of `p`, and the head released. -/
def rxDone (f : Fin 2) (p : InFlight) (s : State) : State :=
  finish .ok 0 (rxResults p (s.setFifo f { s.fifo f with queue := (s.queue f).tail }))

section Micros

variable {f : Fin 2} {p : InFlight} {s : State}

theorem exec_rx_pending (h0 : s.pos.step = 0) (h : s.queue f ≠ []) (fit : (s.queue f).length ≤ s.cfg.val.fifoDepth) :
    exec (.rx f) s = .next (goto { s.pos with step := 1 } s) := by
  have start : exec (.rx f) s = .next (rxPending f s.pos s) := by simp [exec, execRx, rxMicro, h0]
  have read : readReg (.rfr f) s = ((s.fifo f).word, s) := by simp [readReg, view]
  rw [start, rxPending, read]
  exact congrArg Host.Outcome.next (if_neg (fmpOf_word_ne_zero h fit))

/-- A read from place `p` leaves the state it stands at but for the draws and the place. -/
theorem goto_readReg (q p : InFlight) (r : Reg) (s : State) :
    ∃ u, DrawnFrom s u ∧ goto q (readReg r (goto p s)).2 = goto q u := by
  obtain ⟨tape, n, e⟩ := readReg_frame r (goto p s)
  exact ⟨{ s with drawTape := tape, drawCount := n }, ⟨tape, n, rfl⟩, by rw [e]; rfl⟩

/-- Each of the four reads of the output mailbox goes on to the next place (R220). -/
theorem rxMicro_read (f : Fin 2) (s : State) (h1 : 1 ≤ p.step) (h4 : p.step ≤ 4) :
    ∃ q u, q.step = p.step + 1 ∧ DrawnFrom s u ∧ rxMicro f p (goto p s) = goto q u := by
  have read : ∀ r (q : InFlight), q.step = p.step + 1 →
      ∃ q' u, q'.step = p.step + 1 ∧ DrawnFrom s u ∧ goto q (readReg r (goto p s)).2 = goto q' u := fun r q hq => by
    obtain ⟨u, drawn, e⟩ := goto_readReg q p r s
    exact ⟨q, u, hq, drawn, e⟩
  obtain hp | hp | hp | hp : p.step = 1 ∨ p.step = 2 ∨ p.step = 3 ∨ p.step = 4 := by omega
  all_goals
    simp only [rxMicro, hp] at read ⊢
    exact read _ _ rfl

theorem exec_rx_release (hp : p.step = 5) : exec (.rx f) (goto p s) = .next (rxDone f p s) := by
  have micro : rxMicro f p (goto p s) = finish .ok 0 (rxResults p (writeRfr f (single 5) (goto p s))) := by
    simp [rxMicro, hp, writeReg]
  rw [writeRfr_release] at micro
  exact congrArg Host.Outcome.next micro

/-- From any place behind the pending check RX reads the words that are left, all of them of the frame at the head, and
releases it (R228). -/
theorem rx_completes_rest {j : Nat} (hj : p.step + j = 5) (h1 : 1 ≤ p.step) (safe : s.RxSoFar f p) :
    ∃ q u, q.step = 5 ∧ DrawnFrom s u ∧ u.RxSoFar f q ∧ Completes (.rx f) (j + 1) (goto p s) (rxDone f q u) := by
  induction j generalizing p s with
  | zero => exact ⟨p, s, hj, .refl s, safe, completes_one (exec_rx_release hj) rfl⟩
  | succ j ih =>
    obtain ⟨q, u, hq, drawn, micro⟩ := rxMicro_read f s h1 (by omega)
    have next : (rxMicro f p (goto p s)).GoesOnSafe (.rx f) := rxMicro_goesOnSafe (s := goto p s) safe
    rw [micro] at next
    obtain ⟨q', v, h5, drawn', safe', c⟩ := ih (p := q) (s := u) (by omega) (by omega) (next q rfl)
    exact ⟨q', v, h5, drawn.trans drawn', safe', completes_go (congrArg Host.Outcome.next micro) rfl c⟩

/-- A whole RX on a FIFO that holds a frame. -/
theorem rx_completes (h0 : s.pos.step = 0) (h : s.queue f ≠ []) (fit : (s.queue f).length ≤ s.cfg.val.fifoDepth) :
    ∃ q u, q.step = 5 ∧ DrawnFrom s u ∧ u.RxSoFar f q ∧ Completes (.rx f) 6 s (rxDone f q u) := by
  obtain ⟨e, rest, hq⟩ := List.exists_cons_of_ne_nil h
  have safe : s.RxSoFar f { s.pos with step := 1 } := fun _ => ⟨e, rest, hq, by simp, by simp, by simp, by simp⟩
  obtain ⟨q, u, h5, drawn, safe, c⟩ := rx_completes_rest (j := 4) rfl (Nat.le_refl 1) safe
  exact ⟨q, u, h5, drawn, safe, completes_go (exec_rx_pending h0 h fit) rfl c⟩

end Micros

end Sys2Proof.Machine

/-- Settles O29: what RX has read when it stands at the release is the frame at the head, and the release is the last. -/
theorem rxReturnsTheHeadFrame : Obligations.RxReturnsTheHeadFrame := by
  intro f e rest s h0 h fit
  obtain ⟨q, u, h5, ⟨tape, n, rfl⟩, safe, c⟩ := rx_completes h0 (by rw [h]; exact List.cons_ne_nil e rest) fit
  obtain ⟨e', rest', head, ri, rdt, lo, hi⟩ := safe (by omega)
  obtain ⟨rfl, rfl⟩ : e = e' ∧ rest = rest' := List.cons.inj (h.symm.trans head)
  refine ⟨q.lo, q.hi, tape, n, lo (by omega), hi (by omega), ?_⟩
  have released : (s.queue f).tail = rest := congrArg List.tail h
  rw [← resultId_read, ← resultMeta_read, ← payloadLength_read, ← ri (by omega), ← rdt (by omega), ← released]
  exact c
end

section
/-! PROOF. After CFGF.ALL the bank's one filter matches every frame, and a frame that a filter matches is selected (O52). -/

open Sys2Proof Sys2Proof.Machine

namespace Sys2Proof.Machine

/-! ### A matching filter makes the matcher select a FIFO -/

/-- The greatest class present has a filter whenever one matches (R258). -/
theorem bestClass_ne_nil {hits : List Hit} (h : hits ≠ []) : bestClass hits ≠ [] := by
  obtain ⟨x, hx⟩ := List.exists_mem_of_ne_nil hits h
  obtain ⟨best, hb, greatest⟩ := hits.toFinset.exists_max_image Hit.rank ⟨x, List.mem_toFinset.2 hx⟩
  refine List.ne_nil_of_mem (List.mem_filter.2 ⟨List.mem_toFinset.1 hb, ?_⟩)
  exact List.all_eq_true.2 fun y hy => decide_eq_true (greatest y (List.mem_toFinset.2 hy))

/-- The FIFO chosen is that of a filter of the class (R258). -/
theorem exists_mem_chooseFifo {c : List Hit} (h : c ≠ []) (s : State) : ∃ x ∈ c, x.ffa = (chooseFifo c s).1 := by
  obtain ⟨x, hx⟩ := List.exists_mem_of_ne_nil c h
  have two : ∀ q : Fin 2, q = 0 ∨ q = 1 := by decide
  unfold chooseFifo
  split
  · next all0 => exact ⟨x, hx, of_decide_eq_true (List.all_eq_true.1 all0 x hx)⟩
  split
  · next all1 => exact ⟨x, hx, of_decide_eq_true (List.all_eq_true.1 all1 x hx)⟩
  · next not0 not1 =>
    have other : ∀ q : Fin 2, ¬ (c.all fun x => decide (x.ffa = q)) = true → ∃ x ∈ c, x.ffa ≠ q := fun q hq => by
      simpa using hq
    obtain ⟨y, hy, ne0⟩ := other 0 not0
    obtain ⟨z, hz, ne1⟩ := other 1 not1
    rcases two (drawIn 0 [1] s).1 with e | e
    · exact ⟨z, hz, ((two z.ffa).resolve_right ne1).trans e.symm⟩
    · exact ⟨y, hy, ((two y.ffa).resolve_left ne0).trans e.symm⟩

/-- A frame that a filter of an active bank matches is selected for some FIFO (R258). -/
theorem accept_ne_none {f : Frame} {s : State} {b : MatchBank} (hb : b ∈ (activeBanks (List.finRange 28) s).1)
    (hit : b.hits f ≠ []) : (accept f s).1 ≠ none := by
  have hits : ((activeBanks (List.finRange 28) s).1.flatMap fun b => b.hits f) ≠ [] := by
    obtain ⟨x, hx⟩ := List.exists_mem_of_ne_nil _ hit
    exact List.ne_nil_of_mem (List.mem_flatMap.2 ⟨b, hb, hx⟩)
  have best := bestClass_ne_nil hits
  unfold accept
  simp only
  split
  · next e => exact absurd e best
  · next e =>
    split
    · exact Option.some_ne_none _
    · next notFound =>
      obtain ⟨x, hx, ffa⟩ := exists_mem_chooseFifo (List.cons_ne_nil _ _) (activeBanks (List.finRange 28) s).2
      exact absurd (decide_eq_true ffa) (List.find?_eq_none.1 notFound x hx)

/-! ### The bank CFGF.ALL configures -/

/-- An active bank whose registers hold values stands among the matcher's banks with those values, whatever is drawn for
the banks before it (R256). -/
theorem mem_activeBanks {b : Fin 28} {l : List (Fin 28)} {s : State} {v w : Word} (hl : b ∈ l)
    (hb : s.hasBank b.val = true) (ha : s.fact b.val = true) (regs : s.bank b = ⟨.of v, .of w⟩) :
    ⟨b.val, s.fsc b.val, s.fbm b.val, s.ffa b.val, v, w⟩ ∈ (activeBanks l s).1 := by
  induction l generalizing s with
  | nil => exact absurd hl List.not_mem_nil
  | cons c rest ih =>
    rw [activeBanks]
    rcases List.mem_cons.1 hl with rfl | hl
    · rw [if_pos (by rw [hb, ha]; rfl), regs]
      simp
    · split
      · obtain ⟨tape, n, e⟩ := (resolve_frame (s.bank c).fr1 s).trans (resolve_frame (s.bank c).fr2 _)
        simp only [e]
        exact List.mem_cons_of_mem _ (ih hl hb ha regs)
      · exact ih hl hb ha regs

/-- A 32-bit mask filter whose mask is 0 matches every frame (R176, R256). -/
theorem hits_zero_mask (b : Nat) (q : Fin 2) (f : Frame) : (⟨b, true, false, q, 0#32, 0#32⟩ : MatchBank).hits f ≠ [] := by
  have all : maskMatch f.w32 0#32 0#32 = true := by simp [maskMatch]
  simp [MatchBank.hits, MatchBank.conditions, all]

section Done

variable (b : Fin 28) (scale : FilterScale) (mode : FilterMode) (fifo : Fin 2) (s : State)

theorem cfgfDone_bank : (cfgfDone b scale mode fifo s).bank b = ⟨.of s.arg0, .of s.arg1⟩ := setBank_bank_self ..

/-- The filter bits a whole CFGF leaves: the bank active with its scale and mode, the matcher no longer suspended. -/
theorem cfgfDone_bits : (cfgfDone b scale mode fifo s).finit = false ∧ (cfgfDone b scale mode fifo s).fact b.val = true ∧
    (cfgfDone b scale mode fifo s).fsc b.val = scale.toBool ∧
    (cfgfDone b scale mode fifo s).fbm b.val = mode.toBool :=
  have in32 : b.val < 32 := Nat.lt_trans b.isLt (by decide)
  ⟨bit_withBit_self _ _ (by decide), bit_withBit_self _ _ in32, bit_withBit_self _ _ in32, bit_withBit_self _ _ in32⟩

end Done

end Sys2Proof.Machine

/-- Settles O52: the bank is active with a mask of 0, so its filter matches, and a frame that a filter matches is selected. -/
theorem cfgfAllAcceptsEveryFrame : Obligations.CfgfAllAcceptsEveryFrame := by
  intro b fifo f n s t h0 hb a0 a1 c
  obtain ⟨-, rfl⟩ := c.unique (cfgf_completes h0 hb)
  obtain ⟨finit, active, scale, mode⟩ := cfgfDone_bits b .one32 .mask fifo s
  have regs := cfgfDone_bank b .one32 .mask fifo s
  rw [a0, a1] at regs
  have present : (cfgfDone b .one32 .mask fifo s).hasBank b.val = true := decide_eq_true hb
  have bank := mem_activeBanks (List.mem_finRange b) present active regs
  rw [scale, mode] at bank
  exact ⟨finit, accept_ne_none bank (hits_zero_mask b.val _ f)⟩
end

section
/-! PROOF. INIT: each of its micro-operations is a field write of MCR, one read of a poll, or the write of BTR, so a whole
INIT is their sequence, and a poll that is never answered is an induction on the reads that are left (O13 to O16). -/

open Sys2Proof Sys2Proof.Machine

namespace Sys2Proof.Machine

open Sys2Proof.Laws.EncodeMatches (bit_of_fits)

/-! ### The values INIT writes -/

/-- A value of `w` bits, shifted into a field that lies within a mask, has no bit outside the mask. -/
theorem shiftLeft_and_eq_self {v m : Word} {w lo : Nat} (hv : ∀ j, w ≤ j → bit v j = false)
    (hm : ∀ j < w, bit m (lo + j) = true) : v <<< lo &&& m = v <<< lo := by
  refine word_ext fun j _ => ?_
  rw [bit_and, bit_shiftLeft]
  by_cases inField : lo ≤ j ∧ j - lo < w
  · have inside := hm (j - lo) inField.2
    rw [Nat.add_sub_cancel' inField.1] at inside
    rw [inside, Bool.and_true]
  · have outside : j < lo ∨ bit v (j - lo) = false := by
      rcases Nat.lt_or_ge j lo with below | above
      · exact .inl below
      · exact .inr (hv _ (by omega))
    rcases outside with h | h <;> simp [h]

/-- BTR after its write by INIT: the operands within its writable bits, its reserved bits kept (R42, R156). -/
theorem merge_btrWord (mode : OpMode) {t : BitTiming} (ht : t.InRange) (old : Word) :
    merge old (btrWord mode t) 0xC37F03FF#32 = (old &&& 0x3C80FC00#32) ||| (mode.code <<< 30) |||
      (BitVec.ofNat 32 (t.ts2 - 1) <<< 20) ||| (BitVec.ofNat 32 (t.ts1 - 1) <<< 16) ||| BitVec.ofNat 32 (t.brp - 1) := by
  obtain ⟨⟨-, brp⟩, ⟨-, ts1⟩, -, ts2⟩ := ht
  have modeFits : mode.code <<< 30 &&& 0xC37F03FF#32 = mode.code <<< 30 :=
    shiftLeft_and_eq_self (w := 2) (fun _ => bit_modeCode mode) (by decide)
  have ts2Fits : BitVec.ofNat 32 (t.ts2 - 1) <<< 20 &&& 0xC37F03FF#32 = BitVec.ofNat 32 (t.ts2 - 1) <<< 20 :=
    shiftLeft_and_eq_self (w := 3) (fun _ => bit_of_fits (by omega)) (by decide)
  have ts1Fits : BitVec.ofNat 32 (t.ts1 - 1) <<< 16 &&& 0xC37F03FF#32 = BitVec.ofNat 32 (t.ts1 - 1) <<< 16 :=
    shiftLeft_and_eq_self (w := 4) (fun _ => bit_of_fits (by omega)) (by decide)
  have brpFits : BitVec.ofNat 32 (t.brp - 1) <<< 0 &&& 0xC37F03FF#32 = BitVec.ofNat 32 (t.brp - 1) <<< 0 :=
    shiftLeft_and_eq_self (w := 10) (fun _ => bit_of_fits (by omega)) (by decide)
  rw [BitVec.shiftLeft_zero] at brpFits
  have within : btrWord mode t &&& 0xC37F03FF#32 = btrWord mode t := by
    rw [btrWord, BitVec.and_or_distrib_right, BitVec.and_or_distrib_right, BitVec.and_or_distrib_right, modeFits, ts2Fits,
      ts1Fits, brpFits]
  rw [merge, within, btrWord, ← BitVec.or_assoc, ← BitVec.or_assoc, ← BitVec.or_assoc]
  rfl

/-- MCR after the flags are written: the six bits of FLAGS, the others as read (R155). -/
theorem withFlags_eq (flags : FeatureFlags) (mcr : Word) :
    withFlags flags mcr = (mcr &&& 0xFFFFFF03#32) ||| (flags.code <<< 2) := by
  have within : flags.code <<< 2 &&& 0x000000FC#32 = flags.code <<< 2 :=
    shiftLeft_and_eq_self (w := 6) (fun _ => bit_flagsCode flags) (by decide)
  rw [withFlags, merge, within]
  rfl

/-- MCR after all three writes of INIT: SLEEP = 0, INRQ = 1, and the flags (R151, R157). -/
theorem withFlags_requests (flags : FeatureFlags) (mcr : Word) :
    withFlags flags (withBit (withBit mcr 1 false) 0 true) = (mcr &&& 0xFFFFFF00#32) ||| (flags.code <<< 2) ||| 1#32 := by
  have requests : withBit (withBit mcr 1 false) 0 true &&& 0xFFFFFF03#32 = (mcr &&& 0xFFFFFF00#32) ||| 1#32 := by
    have same : ∀ j < 32, 2 ≤ j → bit 0xFFFFFF03#32 j = bit 0xFFFFFF00#32 j ∧ bit 1#32 j = false := by decide
    refine word_ext fun j hj => ?_
    rw [bit_or, bit_and, bit_and, bit_withBit, bit_withBit]
    obtain rfl | rfl | h : j = 0 ∨ j = 1 ∨ 2 ≤ j := by omega
    · simp [show bit 0xFFFFFF03#32 0 = true by decide, show bit 1#32 0 = true by decide]
    · simp [show bit 0xFFFFFF00#32 1 = false by decide, show bit 1#32 1 = false by decide]
    · simp [same j hj h, show j ≠ 0 by omega, show j ≠ 1 by omega]
  rw [withFlags_eq, requests, BitVec.or_assoc, BitVec.or_assoc, BitVec.or_comm 1#32]

/-- A poll reads SLAK as MSR holds it (R37). -/
theorem slakOf_read (s : State) : slakOf (s.msr &&& 0x00000F1F#32) = s.slak := (bit_and ..).trans (Bool.and_true _)

/-- A poll reads INAK as MSR holds it (R37). -/
theorem inakOf_read (s : State) : inakOf (s.msr &&& 0x00000F1F#32) = s.inak := (bit_and ..).trans (Bool.and_true _)

/-! ### The micro-operations of INIT (R151) -/

theorem exec_init (mode : OpMode) (flags : FeatureFlags) (baud : Nat) (s : State) :
    exec (.init mode flags baud) s = .next (initMicro mode flags baud s.pos s) := rfl

/-- A baud index without a table entry ends INIT before any access (R154). -/
theorem exec_init_badBaud {baud : Nat} {s : State} (h : s.cfg.val.btTable.length ≤ baud) (mode : OpMode)
    (flags : FeatureFlags) : exec (.init mode flags baud) s = .next (raise .badBaud s) := by
  simp only [exec_init, initMicro, List.getElem?_eq_none h]

/-- The poll of MSR that INIT stands at misses what it waits for; `st` is the status of its timeout (R152). -/
def State.PollMisses (st : Status) (s : State) : Prop :=
  (s.pos.step = 1 ∧ s.slak = true ∧ st = .sleepExit) ∨ (s.pos.step = 3 ∧ s.inak = false ∧ st = .initEntry)

section Micros

variable {mode : OpMode} {flags : FeatureFlags} {baud : Nat} {t : BitTiming} {s : State}
variable (ht : s.cfg.val.btTable[baud]? = some t)

include ht

theorem exec_init_clearSleep (h : s.pos.step = 0) : exec (.init mode flags baud) s =
    .next (goto { s.pos with step := 1, polls := 0 } { s with mcr := withBit s.mcr 1 false }) := by
  simp [exec_init, initMicro, ht, h, modifyReg_mcr_bit]

theorem exec_init_awake (h : s.pos.step = 1) (awake : s.slak = false) : exec (.init mode flags baud) s =
    .next (goto { s.pos with step := 2, polls := 0 } s) := by
  simp [exec_init, initMicro, ht, h, pollMsr_cases, slakOf_read, awake]

theorem exec_init_setInrq (h : s.pos.step = 2) : exec (.init mode flags baud) s =
    .next (goto { s.pos with step := 3, polls := 0 } { s with mcr := withBit s.mcr 0 true }) := by
  simp [exec_init, initMicro, ht, h, modifyReg_mcr_bit]

theorem exec_init_acknowledged (h : s.pos.step = 3) (acknowledged : s.inak = true) : exec (.init mode flags baud) s =
    .next (goto { s.pos with step := 4, polls := 0 } s) := by
  simp [exec_init, initMicro, ht, h, pollMsr_cases, inakOf_read, acknowledged]

theorem exec_init_flags (h : s.pos.step = 4) : exec (.init mode flags baud) s =
    .next (goto { s.pos with step := 5 } { s with mcr := withFlags flags s.mcr }) := by
  simp [exec_init, initMicro, ht, h, modifyReg_mcr_flags]

theorem exec_init_timing (h : s.pos.step = 5) (acknowledged : s.inak = true) : exec (.init mode flags baud) s =
    .next (finish .ok 0 { s with btr := merge s.btr (btrWord mode t) 0xC37F03FF#32 }) := by
  simp [exec_init, initMicro, ht, h, writeReg, acknowledged]

/-- A read that misses ends the poll at the bound, and is counted before it (R152). -/
theorem exec_init_miss {st : Status} (h : s.PollMisses st) : exec (.init mode flags baud) s =
    .next (if s.cfg.val.initPollLimit ≤ s.pos.polls + 1 then finish st 0 s
      else goto { s.pos with polls := s.pos.polls + 1 } s) := by
  rcases h with ⟨h, asleep, rfl⟩ | ⟨h, unacknowledged, rfl⟩
  · simp [exec_init, initMicro, ht, h, pollMsr_cases, slakOf_read, asleep]
  · simp [exec_init, initMicro, ht, h, pollMsr_cases, inakOf_read, unacknowledged]

/-! ### Whole runs of INIT -/

/-- A poll that is never answered takes the reads that are left, and changes nothing but the status (R152, R158). -/
theorem init_poll_times_out {st : Status} (h : s.PollMisses st) {n : Nat}
    (left : s.pos.polls + (n + 1) = s.cfg.val.initPollLimit) :
    Completes (.init mode flags baud) (n + 1) s (finish st 0 s) := by
  have read := exec_init_miss (mode := mode) (flags := flags) ht h
  induction n generalizing s with
  | zero =>
    rw [if_pos (by omega)] at read
    exact completes_one read rfl
  | succ n ih =>
    rw [if_neg (by omega)] at read
    have again : (goto { s.pos with polls := s.pos.polls + 1 } s).PollMisses st := h
    have stillLeft : s.pos.polls + 1 + (n + 1) = s.cfg.val.initPollLimit := by omega
    exact completes_go read rfl (ih (s := goto _ s) ht again stillLeft (exec_init_miss (s := goto _ s) ht again))

/-- Once initialization mode is acknowledged INIT writes the flags and the bit timing (R155, R156). -/
theorem init_completes_acknowledged (h : s.pos.step = 3) (acknowledged : s.inak = true) :
    Completes (.init mode flags baud) 3 s (finish .ok 0 { s with
      mcr := withFlags flags s.mcr, btr := merge s.btr (btrWord mode t) 0xC37F03FF#32 }) :=
  completes_go (exec_init_acknowledged ht h acknowledged) rfl <|
  completes_go (exec_init_flags (s := goto _ s) ht rfl) rfl <|
  completes_one (exec_init_timing (s := goto _ { s with mcr := withFlags flags s.mcr }) ht rfl acknowledged) rfl

/-- An awake controller answers the first poll at once, so INIT comes to its second poll in three micro-operations (R151). -/
theorem init_completes_awake (h : s.pos.step = 0) (awake : s.slak = false) {n : Nat} {u : State}
    (rest : Completes (.init mode flags baud) (n + 1)
      (goto { s.pos with step := 3, polls := 0 } { s with mcr := withBit (withBit s.mcr 1 false) 0 true }) u) :
    Completes (.init mode flags baud) (n + 4) s u :=
  completes_go (exec_init_clearSleep ht h) rfl <|
  completes_go (exec_init_awake (s := goto _ { s with mcr := withBit s.mcr 1 false }) ht rfl awake) rfl <|
  completes_go (exec_init_setInrq (s := goto _ { s with mcr := withBit s.mcr 1 false }) ht rfl) rfl rest

end Micros

/-- Every entry of the table of bit timings fits its fields (R9). -/
theorem inRange_of_getElem? {s : State} {baud : Nat} {t : BitTiming} (ht : s.cfg.val.btTable[baud]? = some t) : t.InRange :=
  s.cfg.property.1 t (List.mem_of_getElem? ht)

end Sys2Proof.Machine

/-- Settles O13: both polls are answered by their first read, and the writes are those of steps 1, 3, 5 and 6. -/
theorem initFromInitializationMode : Obligations.InitFromInitializationMode := by
  intro mode flags baud t s h0 ht awake acknowledged
  rw [← merge_btrWord mode (inRange_of_getElem? ht), ← withFlags_requests]
  exact init_completes_awake ht h0 awake (init_completes_acknowledged (s := goto _ { s with mcr := _ }) ht rfl acknowledged)

/-- Settles O14: the read that sees INAK ends the poll, and the two writes after it are those of R155 and R156. -/
theorem initAfterAcknowledge : Obligations.InitAfterAcknowledge := by
  intro mode flags baud t s h3 ht acknowledged
  rw [← merge_btrWord mode (inRange_of_getElem? ht), ← withFlags_eq]
  exact init_completes_acknowledged ht h3 acknowledged

/-- Settles O15: a poll that is never answered takes the reads that are left, after the writes before it. -/
theorem initTimeoutLeavesRequests : Obligations.InitTimeoutLeavesRequests := by
  intro mode flags baud s hb
  have ht : s.cfg.val.btTable[baud]? = some s.cfg.val.btTable[baud] := List.getElem?_eq_getElem hb
  have fromPoll : ∀ st, s.pos.polls < s.cfg.val.initPollLimit → s.PollMisses st →
      Completes (.init mode flags baud) (s.cfg.val.initPollLimit - s.pos.polls) s (finish st 0 s) := fun st hp miss => by
    obtain ⟨n, left⟩ := Nat.exists_eq_add_of_lt hp
    rw [show s.cfg.val.initPollLimit - s.pos.polls = n + 1 by omega]
    exact init_poll_times_out ht miss left.symm
  obtain ⟨n, bound⟩ : ∃ n, s.cfg.val.initPollLimit = n + 1 :=
    Nat.exists_eq_add_of_le' s.cfg.property.2.2.2.2
  refine ⟨fun h0 asleep => ?_, fun h0 awake unacknowledged => ?_,
    fun h1 hp asleep => fromPoll .sleepExit hp (.inl ⟨h1, asleep, rfl⟩),
    fun h3 hp unacknowledged => fromPoll .initEntry hp (.inr ⟨h3, unacknowledged, rfl⟩)⟩
  · rw [bound, show s.mcr &&& ~~~2#32 = withBit s.mcr 1 false from rfl]
    have miss : (goto { s.pos with step := 1, polls := 0 } { s with mcr := withBit s.mcr 1 false }).PollMisses .sleepExit :=
      .inl ⟨rfl, asleep, rfl⟩
    exact completes_go (exec_init_clearSleep ht h0) rfl
      (init_poll_times_out (s := goto _ { s with mcr := _ }) ht miss ((Nat.zero_add _).trans bound.symm))
  · rw [bound, show (s.mcr &&& ~~~2#32) ||| 1#32 = withBit (withBit s.mcr 1 false) 0 true from rfl]
    have miss : (goto { s.pos with step := 3, polls := 0 }
        { s with mcr := withBit (withBit s.mcr 1 false) 0 true }).PollMisses .initEntry := .inr ⟨rfl, unacknowledged, rfl⟩
    exact init_completes_awake ht h0 awake
      (init_poll_times_out (s := goto _ { s with mcr := _ }) ht miss ((Nat.zero_add _).trans bound.symm))

/-- Settles O16: the table has no entry at the index, so INIT ends before its first access. -/
theorem initRejectsBaudBeforeAnyWrite : Obligations.InitRejectsBaudBeforeAnyWrite :=
  fun mode flags _ _ h => exec_init_badBaud h mode flags
end

section
/-! PROOF. A whole CFGF: the bank it leaves as its operands say, what the host reads of it, and the end of one whose bank
does not exist (O18 to O20). -/

open Sys2Proof Sys2Proof.Machine

namespace Sys2Proof.Machine

/-! ### The operands as bits -/

theorem scale_toBool_eq (scale : FilterScale) : scale.toBool = decide (scale = .one32) := by cases scale <;> rfl

theorem mode_toBool_eq (mode : FilterMode) : mode.toBool = decide (mode = .list) := by cases mode <;> rfl

/-! ### Reads of the filter registers -/

/-- A read of a filter register shows the stored bit of an existing bank (R50 to R53). -/
theorem bit_readReg_bank {r : Reg} {s : State} {w : Word} (hr : r ≠ .tsr) (h : view r s = .of (w &&& s.bankMask)) {b : Nat}
    (hb : b < s.cfg.val.fbCount) : bit (readReg r s).1 b = bit w b := by
  rw [readReg_of_view hr h, bit_and, bankMask_bit s hb, Bool.and_true]

/-- A read of FMR shows FINIT (R49). -/
theorem bit_readReg_fmr (s : State) : bit (readReg .fmr s).1 0 = s.finit := by
  rw [readReg_of_view (by decide) rfl, bit_and, show bit 0x00003F01#32 0 = true by decide, Bool.and_true, State.finit]

/-- The host reads the values of a bank whose registers hold values, and the reads draw nothing (R54, R60). -/
theorem memRead_bank {b : Fin 28} {s : State} {v w : Word} (hb : b.val < s.cfg.val.fbCount)
    (regs : s.bank b = ⟨.of v, .of w⟩) :
    memRead (0x240 + 8 * b.val) s = (v, s) ∧ memRead (0x244 + 8 * b.val) s = (w, s) := by
  have present : s.hasBank b.val = true := decide_eq_true hb
  have fr1 : memRead (0x240 + 8 * b.val) s = readReg (.fr1 b) s := memRead_offset (.fr1 b) s
  have fr2 : memRead (0x244 + 8 * b.val) s = readReg (.fr2 b) s := memRead_offset (.fr2 b) s
  rw [fr1, fr2]
  simp [readReg_eq_resolve, view, present, regs]

/-- The host reads the bits of an existing bank, and FINIT, as they are stored (R49 to R53). -/
theorem memRead_bankBits {b : Nat} {s : State} (hb : b < s.cfg.val.fbCount) :
    bit (memRead 0x20C s).1 b = s.fsc b ∧ bit (memRead 0x204 s).1 b = s.fbm b ∧
      bit (memRead 0x214 s).1 b = bit s.ffa1r b ∧ bit (memRead 0x21C s).1 b = s.fact b ∧
      bit (memRead 0x200 s).1 0 = s.finit := by
  have fs1r : memRead 0x20C s = readReg .fs1r s := memRead_offset .fs1r s
  have fm1r : memRead 0x204 s = readReg .fm1r s := memRead_offset .fm1r s
  have ffa1r : memRead 0x214 s = readReg .ffa1r s := memRead_offset .ffa1r s
  have fa1r : memRead 0x21C s = readReg .fa1r s := memRead_offset .fa1r s
  have fmr : memRead 0x200 s = readReg .fmr s := memRead_offset .fmr s
  rw [fs1r, fm1r, ffa1r, fa1r, fmr]
  exact ⟨bit_readReg_bank (by decide) rfl hb, bit_readReg_bank (by decide) rfl hb, bit_readReg_bank (by decide) rfl hb,
    bit_readReg_bank (by decide) rfl hb, bit_readReg_fmr s⟩

end Sys2Proof.Machine

/-- Settles O18: the nine updates of CFGF together are the update of the bank and its bits. -/
theorem cfgfConfiguresBank : Obligations.CfgfConfiguresBank := by
  intro b scale mode fifo s h0 hb
  rw [← scale_toBool_eq, ← mode_toBool_eq]
  exact cfgf_completes h0 hb

/-- Settles O20: the host's reads show the registers and the bits of the state a whole CFGF leaves. -/
theorem cfgfReadsBack : Obligations.CfgfReadsBack := by
  intro b scale mode fifo n s t h0 hb c
  obtain ⟨-, rfl⟩ := c.unique (cfgf_completes h0 hb)
  obtain ⟨finit, fact, fsc, fbm⟩ := cfgfDone_bits b scale mode fifo s
  have ffa : bit (cfgfDone b scale mode fifo s).ffa1r b.val = decide (fifo = 1) := bit_withBit_self _ _ (by omega)
  obtain ⟨fr1, fr2⟩ := memRead_bank (s := cfgfDone b scale mode fifo s) hb (cfgfDone_bank ..)
  obtain ⟨fs1r, fm1r, ffa1r, fa1r, fmr⟩ := memRead_bankBits (s := cfgfDone b scale mode fifo s) hb
  rw [scale_toBool_eq] at fsc
  rw [mode_toBool_eq] at fbm
  exact ⟨fr1, fr2, fs1r.trans fsc, fm1r.trans fbm, ffa1r.trans ffa, fa1r.trans fact, fmr.trans finit⟩

/-- Settles O19: the check of the bank stands before every access, and BAD_BANK is the code 0x23. -/
theorem cfgfRejectsBankBeforeAnyWrite : Obligations.CfgfRejectsBankBeforeAnyWrite :=
  fun _ scale mode fifo _ h => exec_cfgf_badBank h scale mode fifo
end

section
/-! PROOF. The match condition of each filter as a statement about the words of R254 and of the bank's registers, and those
words from the frame's identifier (O50). -/

open Sys2Proof Sys2Proof.Machine

namespace Sys2Proof.Machine

/-! ### Halves and masks -/

/-- A field that reaches to the top of what a word holds is a shift. -/
theorem field_eq_shiftRight {v : Word} {hi : Nat} (h : v.toNat < 2 ^ (hi + 1)) (lo : Nat) : field v hi lo = v >>> lo := by
  refine word_ext fun j hj => ?_
  rw [bit_field, bit_shiftRight]
  by_cases inside : j < hi + 1 - lo
  · simp [inside, hj]
  · have above : bit v (lo + j) = false :=
      Nat.testBit_lt_two_pow (h.trans_le (Nat.pow_le_pow_right (by decide) (by omega)))
    rw [above, Bool.false_and, Bool.false_and]

theorem lowHalf_eq (r : Word) : lowHalf r = r &&& 0xFFFF#32 := by
  rw [lowHalf, field, BitVec.ushiftRight_zero]
  rfl

theorem highHalf_eq (r : Word) : highHalf r = r >>> 16 := field_eq_shiftRight r.isLt 16

/-- A mask bit 1 must match (R177). -/
theorem maskMatch_iff (v r m : Word) : maskMatch v r m = true ↔ ∀ j, bit m j = true → bit v j = bit r j := by
  rw [maskMatch, decide_eq_true_iff]
  constructor
  · intro h j hm
    have same := congrArg (fun w => bit w j) h
    simpa [hm] using same
  · intro h
    refine word_ext fun j _ => ?_
    rw [bit_and, bit_and]
    cases hm : bit m j with
    | false => rw [Bool.and_false, Bool.and_false]
    | true => rw [h j hm]

theorem bit_filterK (j : Nat) : bit filterK j = (decide (j < 32) && decide (1 ≤ j)) := by
  by_cases hj : j < 32
  · have all : ∀ j < 32, bit filterK j = decide (1 ≤ j) := by decide
    rw [all j hj, decide_eq_true hj, Bool.true_and]
  · rw [bit_of_ge _ (Nat.le_of_not_lt hj), decide_eq_false hj, Bool.false_and]

/-- Under `K` the words match but for bit 0 (R257). -/
theorem maskMatch_filterK (v r : Word) : maskMatch v r filterK = true ↔ v >>> 1 = r >>> 1 := by
  rw [maskMatch_iff]
  constructor
  · intro h
    refine word_ext fun j _ => ?_
    rw [bit_shiftRight, bit_shiftRight]
    by_cases hj : 1 + j < 32
    · exact h (1 + j) (by simp [bit_filterK, hj])
    · rw [bit_of_ge _ (Nat.le_of_not_lt hj), bit_of_ge _ (Nat.le_of_not_lt hj)]
  · intro h j hj
    have le : 1 ≤ j := by
      rw [bit_filterK, Bool.and_eq_true, decide_eq_true_iff, decide_eq_true_iff] at hj
      exact hj.2
    have same := congrArg (fun w => bit w (j - 1)) h
    simpa [Nat.add_sub_cancel' le] using same

/-- A mask under `K` compares its bits from 1 on (R256, R257). -/
theorem maskMatch_and_filterK (v r m : Word) :
    maskMatch v r (m &&& filterK) = true ↔ ∀ j, 1 ≤ j → bit m j = true → bit v j = bit r j := by
  have inside : ∀ j, bit (m &&& filterK) j = true ↔ 1 ≤ j ∧ bit m j = true := fun j => by
    rw [bit_and, bit_filterK]
    by_cases hj : j < 32
    · simp [hj, and_comm]
    · simp [bit_of_ge m (Nat.le_of_not_lt hj)]
  simp only [maskMatch_iff, inside, and_imp]

/-- The high half of a register is the mask of the identifier in its low half (R256). -/
theorem maskMatch_halves (v r : Word) :
    maskMatch v (lowHalf r) (highHalf r) = true ↔ ∀ j, j < 16 → bit r (16 + j) = true → bit v j = bit r j := by
  have low : ∀ j < 16, bit (lowHalf r) j = bit r j := fun j hj => by
    have all : ∀ j < 16, bit 0xFFFF#32 j = true := by decide
    rw [lowHalf_eq, bit_and, all j hj, Bool.and_true]
  rw [maskMatch_iff, highHalf_eq]
  simp only [bit_shiftRight]
  constructor
  · intro h j hj hm
    rw [h j hm, low j hj]
  · intro h j hm
    have hj : j < 16 := by
      by_contra ge
      rw [bit_of_ge r (by omega)] at hm
      exact Bool.noConfusion hm
    rw [h j hj hm, low j hj]

/-! ### The filters of a bank -/

theorem conditions_length (b : MatchBank) (f : Frame) : (b.conditions f).length = filterCount b.fsc b.fbm := by
  unfold MatchBank.conditions filterCount
  split <;> rfl

section Bank

variable {f : Frame} {s : State} {b : Fin 28}

/-- A filter that matches is one of the filters its bank has (R176). -/
theorem filterMatches_lt_count {p : Nat} (h : FilterMatches s f b p) :
    p < filterCount (s.fsc b.val) (s.fbm b.val) := by
  obtain ⟨-, -, hp⟩ := h
  obtain ⟨inside, -⟩ := List.getElem?_eq_some_iff.1 hp
  rwa [conditions_length] at inside

theorem not_filterMatches_of_count {n p : Nat} (count : filterCount (s.fsc b.val) (s.fbm b.val) = n) (hp : n ≤ p) :
    ¬ FilterMatches s f b p :=
  fun h => absurd (count ▸ filterMatches_lt_count h) (Nat.not_lt.2 hp)

/-- In an active and existing bank a filter matches when the condition at its position holds. -/
theorem filterMatches_iff (hb : b.val < s.cfg.val.fbCount) (ha : s.fact b.val = true) {fsc fbm : Bool}
    (hs : s.fsc b.val = fsc) (hm : s.fbm b.val = fbm) {p : Nat} {c : Bool}
    (hc : ((⟨b.val, fsc, fbm, s.ffa b.val, (s.bank b).fr1.val, (s.bank b).fr2.val⟩ : MatchBank).conditions f)[p]? =
      some c) :
    FilterMatches s f b p ↔ c = true := by
  subst hs hm
  rw [FilterMatches, hc]
  exact ⟨fun h => Option.some_inj.1 h.2.2, fun h => ⟨hb, ha, congrArg some h⟩⟩

end Bank

/-! ### The images of a frame -/

/-- The two parts of a 29-bit identifier stand in a 32-bit image as they stand in the identifier (R254). -/
theorem stid_or_exid {id : Word} (h : id.toNat < 2 ^ 29) :
    (field id 28 18 <<< 21) ||| (field id 17 0 <<< 3) = id <<< 3 := by
  rw [field_eq_shiftRight h]
  refine word_ext fun j hj => ?_
  simp only [bit_or, bit_shiftLeft, bit_shiftRight, bit_field]
  by_cases high : j < 21
  · simp [high, hj, show j - 3 < 18 by omega, show j - 3 < 32 by omega]
  · simp [high, hj, show ¬ j < 3 by omega, show ¬ j - 3 < 18 by omega, show 18 + (j - 21) = j - 3 by omega]

theorem field_exid (id : Word) : field (field id 17 0) 17 15 = (id >>> 15) &&& 7#32 := by
  refine word_ext fun j hj => ?_
  rw [show (7#32 : Word) = mask 3 by decide]
  by_cases low : j < 3
  · simp [bit_field, low, hj, show 15 + j < 18 by omega, show 15 + j < 32 by omega]
  · simp [bit_field, low]

/-- The images of a frame with an 11-bit identifier (R254). -/
theorem images_standard {id : Word} (h : id.toNat < 2 ^ 11) (rtr : Bool) (dlc : BitVec 4) (lo hi : Word) :
    (⟨false, id, rtr, dlc, lo, hi⟩ : Frame).w32 = (id <<< 21) ||| (ofBit rtr <<< 1) ∧
      (⟨false, id, rtr, dlc, lo, hi⟩ : Frame).h16 = (id <<< 5) ||| (ofBit rtr <<< 4) := by
  have stid : field id 10 0 = id := (field_eq_shiftRight h 0).trans (BitVec.ushiftRight_zero id)
  have exid : field 0#32 17 15 = 0#32 := by decide
  simp [Frame.w32, Frame.h16, Frame.stid, Frame.exid, ofBit, stid, exid]

/-- The images of a frame with a 29-bit identifier (R254). -/
theorem images_extended {id : Word} (h : id.toNat < 2 ^ 29) (rtr : Bool) (dlc : BitVec 4) (lo hi : Word) :
    (⟨true, id, rtr, dlc, lo, hi⟩ : Frame).w32 = (id <<< 3) ||| 4#32 ||| (ofBit rtr <<< 1) ∧
      (⟨true, id, rtr, dlc, lo, hi⟩ : Frame).h16 =
        ((id >>> 18) <<< 5) ||| (ofBit rtr <<< 4) ||| 8#32 ||| ((id >>> 15) &&& 7#32) := by
  constructor
  · rw [← stid_or_exid h]
    rfl
  · rw [← field_exid, ← field_eq_shiftRight h]
    rfl

end Sys2Proof.Machine

/-- Settles O50: each condition of R256 is read at its position in its bank's list, and the list has no further one. -/
theorem filterConditions : Obligations.FilterConditions := by
  refine ⟨fun f s b hb ha => ⟨fun hs hm => ?_, fun hs hm => ?_, fun hs hm => ?_, fun hs hm => ?_⟩,
    fun f s b p absent h => absent ⟨h.1, h.2.1⟩,
    fun rtr id dlc lo hi => ⟨fun h => images_standard h .., fun h => images_extended h ..⟩⟩
  all_goals
    have atPosition {p : Nat} {c : Bool} := filterMatches_iff (f := f) (p := p) (c := c) hb ha hs hm
    have noFurther := fun p => not_filterMatches_of_count (f := f) (p := p) (congrArg₂ filterCount hs hm)
  · exact ⟨(atPosition rfl).trans (maskMatch_filterK ..),
      (atPosition rfl).trans (maskMatch_filterK ..), noFurther⟩
  · exact ⟨(atPosition rfl).trans (maskMatch_and_filterK ..), noFurther⟩
  · rw [← lowHalf_eq, ← lowHalf_eq, ← highHalf_eq, ← highHalf_eq]
    exact ⟨(atPosition rfl).trans decide_eq_true_iff, (atPosition rfl).trans decide_eq_true_iff,
      (atPosition rfl).trans decide_eq_true_iff, (atPosition rfl).trans decide_eq_true_iff, noFurther⟩
  · exact ⟨(atPosition rfl).trans (maskMatch_halves ..),
      (atPosition rfl).trans (maskMatch_halves ..), noFurther⟩
end

section
/-! PROOF. The operand and register words of TX, bit by bit and byte by byte (O27, O28). -/

open Sys2Proof Sys2Proof.Machine

namespace Sys2Proof.Machine

/-- A field at the bottom of a word is a mask. -/
theorem field_low (v : Word) (hi : Nat) : field v hi 0 = v &&& mask (hi + 1) := by
  rw [field, BitVec.ushiftRight_zero, Nat.sub_zero]

/-- Byte `k` of a word cut down to its low `n` bytes (R99). -/
theorem byte_and_mask (v : Word) {k : Nat} (hk : k < 4) (n : Nat) :
    field (v &&& mask (8 * n)) (8 * k + 7) (8 * k) = if k < n then field v (8 * k + 7) (8 * k) else 0#32 := by
  refine word_ext fun j _ => ?_
  rw [bit_field, bit_and, bit_mask]
  by_cases byte : j < 8
  · have width : 8 * k + j < 32 := by omega
    by_cases kept : k < n
    · have inside : 8 * k + j < 8 * n := by omega
      rw [if_pos kept, bit_field]
      simp [inside, width]
    · have outside : ¬ 8 * k + j < 8 * n := by omega
      rw [if_neg kept]
      simp [outside]
  · have beyond : ¬ j < 8 * k + 7 + 1 - 8 * k := by omega
    split
    · rw [bit_field]
      simp [beyond]
    · simp [beyond]

end Sys2Proof.Machine

/-- Settles O27: each field is a shift and a mask, and below 2^29 the two fields of an identifier join to the identifier. -/
theorem packIdPlacesTheIdentifier : Obligations.PackIdPlacesTheIdentifier := by
  have mask11 : mask 11 = 0x7FF#32 := by decide
  have mask18 : mask 18 = 0x3FFFF#32 := by decide
  refine ⟨fun id => ?_, fun id h => congrArg (· ||| 4#32) (stid_or_exid h), fun id => ?_⟩
  · rw [packId, if_neg Bool.false_ne_true, field_low, mask11]
  · rw [packId, if_pos rfl, field_low, mask18, ← mask11]
    rfl

/-- Settles O28: byte `k` stands in the low word below 4 and in the high word from 4 on, each cut down to its own bytes. -/
theorem payloadMasksKeepBytesBelowLength : Obligations.PayloadMasksKeepBytesBelowLength := by
  intro lo hi d k _ hk
  unfold payloadByte
  by_cases low : k < 4
  · have kept : k < min d 4 ↔ k < d := by omega
    rw [if_pos low, if_pos low, loMask, byte_and_mask lo low, if_congr kept rfl rfl]
  · have kept : k - 4 < max d 4 - 4 ↔ k < d := by omega
    rw [if_neg low, if_neg low, hiMask, byte_and_mask hi (by omega), if_congr kept rfl rfl]
end

section
/-! PROOF. Which mailbox a read of TSR shows in CODE (O23). -/

open Sys2Proof Sys2Proof.Machine

namespace Sys2Proof.Machine

/-- The CODE field behind a mailbox that `codeOf` names. -/
theorem field_of_codeOf {tsr : Word} {m : Fin 3} (h : codeOf tsr = some m) : field tsr 25 24 = BitVec.ofNat 32 m.val := by
  unfold codeOf at h
  split at h
  all_goals cases h
  all_goals exact BitVec.eq_of_toNat_eq ‹_›

/-- Every member of the list is drawn for some word of the tape (R13). -/
theorem exists_drawIn {α : Type} {a x : α} {l : List α} (hl : l.length + 1 < 2 ^ 32) (h : a ∈ x :: l) :
    ∃ w, ∀ s : State, (drawIn x l { s with drawTape := w :: s.drawTape }).1 = a := by
  obtain ⟨n, hn, rfl⟩ := List.mem_iff_getElem.1 h
  rw [List.length_cons] at hn
  refine ⟨BitVec.ofNat 32 n, fun s => ?_⟩
  have index : (BitVec.ofNat 32 n).toNat % (l.length + 1) = n := by
    rw [BitVec.toNat_ofNat, Nat.mod_eq_of_lt (hn.trans hl), Nat.mod_eq_of_lt hn]
  show (x :: l).getD ((BitVec.ofNat 32 n).toNat % (l.length + 1)) x = _
  rw [index, List.getD_eq_getElem _ _ (by simpa using hn)]

theorem drawCode_of_cons {s : State} {i : Fin 3} {rest : List (Fin 3)} (h : s.emptyMailboxes = i :: rest) :
    drawCode s = drawIn i rest s := by
  rw [drawCode, h]

theorem drawCode_of_nil {s : State} (h : s.emptyMailboxes = []) : drawCode s = drawIn 0 [1, 2] s := by
  rw [drawCode, h]

/-- Among the mailboxes of R190 the draw of CODE can give each one. -/
theorem exists_drawCode {s : State} {m : Fin 3} (h : s.tme m = true ∨ ∀ i, s.tme i = false) :
    ∃ w, (drawCode { s with drawTape := w :: s.drawTape }).1 = m := by
  cases he : s.emptyMailboxes with
  | cons i rest =>
    have short : (i :: rest).length ≤ 3 := he ▸ List.length_filter_le ..
    have first : s.tme i = true := (mem_emptyMailboxes s i).1 (he ▸ List.mem_cons_self ..)
    have empty : s.tme m = true := h.resolve_right fun none => by simp [none i] at first
    obtain ⟨w, hw⟩ := exists_drawIn (short.trans_lt (by decide)) (he ▸ (mem_emptyMailboxes s m).2 empty)
    exact ⟨w, (congrArg Prod.fst (drawCode_of_cons (s := { s with drawTape := w :: s.drawTape }) he)).trans (hw s)⟩
  | nil =>
    have all : ∀ k : Fin 3, k ∈ [0, 1, 2] := by decide
    obtain ⟨w, hw⟩ := exists_drawIn (by decide) (all m)
    exact ⟨w, (congrArg Prod.fst (drawCode_of_nil (s := { s with drawTape := w :: s.drawTape }) he)).trans (hw s)⟩

end Sys2Proof.Machine

/-- Settles O23: CODE shows the mailbox drawn, and the draw can give every member of its list. -/
theorem codeNamesAnEmptyMailbox : Obligations.CodeNamesAnEmptyMailbox := by
  refine ⟨fun s => ⟨(drawCode s).1, field_of_codeOf (codeOf_readTsr s), fun ⟨_, h⟩ => drawCode_empty s h⟩, fun s m h => ?_⟩
  obtain ⟨w, hw⟩ := exists_drawCode h
  exact ⟨w, hw ▸ field_of_codeOf (codeOf_readTsr _)⟩
end

section
/-! PROOF. TX from its start: how it fails, and how it hands a frame to the mailbox it claims (O24, O25). -/

open Sys2Proof Sys2Proof.Machine

namespace Sys2Proof.Machine

/-! ### The operand checks -/

section Checks

variable {ide : Bool} {dlc : Nat} {id : Word}

theorem txRejects_dlc (h : 8 < dlc) : txRejects ide dlc id = some .badDlc := if_pos h

theorem txRejects_id (h : dlc ≤ 8) (wide : (if ide then 2 ^ 29 else 2 ^ 11) ≤ id.toNat) :
    txRejects ide dlc id = some .badId := by
  have fits : idFits ide id = false := Bool.eq_false_iff.2 fun fits => Nat.not_lt.2 wide ((idFits_iff ide id).1 fits)
  rw [txRejects, if_neg (Nat.not_lt.2 h), fits]
  rfl

theorem txRejects_none (h : dlc ≤ 8) (narrow : id.toNat < (if ide then 2 ^ 29 else 2 ^ 11)) :
    txRejects ide dlc id = none := by
  rw [txRejects, if_neg (Nat.not_lt.2 h), (idFits_iff ide id).2 narrow]
  rfl

end Checks

/-! ### The micro-operations -/

section Micros

variable {ide rtr tgt : Bool} {dlc : Nat} {p : InFlight} {s : State}

theorem exec_tx_claim (h0 : s.pos.step = 0) : exec (.tx ide rtr tgt dlc) s = .next (txClaim ide dlc s.pos s) := by
  simp [exec, execTx, txMicro, h0]

/-- An operand check that fails ends TX before its first access (R199). -/
theorem exec_tx_rejects (h0 : s.pos.step = 0) {st : Status} (h : txRejects ide dlc s.arg0 = some st) :
    exec (.tx ide rtr tgt dlc) s = .next (finish st 0 s) := by
  rw [exec_tx_claim h0, txClaim, h]
  rfl

/-- With valid operands and no empty mailbox TX ends after its read of TSR (R199). -/
theorem exec_tx_noMailbox (h0 : s.pos.step = 0) (valid : txRejects ide dlc s.arg0 = none) (full : ∀ i, s.tme i = false) :
    ∃ u, DrawnFrom s u ∧ exec (.tx ide rtr tgt dlc) s = .next (finish .noMailbox 0 u) := by
  obtain ⟨u, drawn, ⟨st, -, rejects⟩ | ⟨-, -, e⟩ | ⟨-, m, empty, -⟩⟩ := txClaim_cases ide dlc s.pos s
  · rw [valid] at rejects; cases rejects
  · exact ⟨u, drawn, (exec_tx_claim h0).trans (congrArg _ e)⟩
  · rw [full m] at empty; cases empty

/-- With valid operands and an empty mailbox TX claims an empty mailbox (R190, R192 step 1). -/
theorem exec_tx_claims (h0 : s.pos.step = 0) (valid : txRejects ide dlc s.arg0 = none) {i : Fin 3} (empty : s.tme i = true) :
    ∃ u m, DrawnFrom s u ∧ s.tme m = true ∧
      exec (.tx ide rtr tgt dlc) s = .next (goto { s.pos with step := 1, m := m } u) := by
  obtain ⟨u, drawn, ⟨st, -, rejects⟩ | ⟨-, full, -⟩ | ⟨-, m, claimed, e⟩⟩ := txClaim_cases ide dlc s.pos s
  · rw [valid] at rejects; cases rejects
  · rw [full i] at empty; cases empty
  · exact ⟨u, m, drawn, claimed, (exec_tx_claim h0).trans (congrArg _ e)⟩

/-- What the write of place `k` makes of the claimed mailbox (R192 steps 2 to 5). -/
def txFill (ide rtr tgt : Bool) (dlc : Nat) (s : State) (k : Nat) (mb : Mailbox) : Mailbox :=
  match k with
  | 1 => { mb with tir := .of (idWord ide rtr s.arg0) }
  | 2 => { mb with tdtr := mb.tdtr.patch 0xFFFF010F#32 (tdtWord tgt dlc) }
  | 3 => { mb with tdlr := .of (s.arg1 &&& loMask dlc) }
  | _ => { mb with tdhr := .of (s.arg2 &&& hiMask dlc) }

theorem txFill_setMailbox (m : Fin 3) (mb : Mailbox) (k : Nat) :
    txFill ide rtr tgt dlc (s.setMailbox m mb) k = txFill ide rtr tgt dlc s k := rfl

/-- Each of the four writes to the claimed mailbox, empty as it is, is stored (R198). -/
theorem exec_tx_write (h1 : 1 ≤ p.step) (h4 : p.step ≤ 4) (empty : s.tme p.m = true) :
    exec (.tx ide rtr tgt dlc) (goto p s) = .next (goto { p with step := p.step + 1 }
      (s.setMailbox p.m (txFill ide rtr tgt dlc s p.step (s.mailbox p.m)))) := by
  have empty' : (goto p s).tme p.m = true := empty
  refine congrArg Host.Outcome.next ?_
  show txMicro ide rtr tgt dlc p (goto p s) = _
  obtain hp | hp | hp | hp : p.step = 1 ∨ p.step = 2 ∨ p.step = 3 ∨ p.step = 4 := by omega
  all_goals simp only [txMicro, txFill, hp]
  · rw [writeTir_of_empty empty' (idWord_bit0 ..)]
    rfl
  all_goals
    rw [writeReg, if_pos empty']
    rfl

/-- The last micro-operation of TX requests the transmission of its mailbox (R192 step 6, R194). -/
theorem exec_tx_request (hp : p.step = 5) (empty : s.tme p.m = true) {v : Word} (tir : (s.mailbox p.m).tir = .of v) :
    exec (.tx ide rtr tgt dlc) (goto p s) = .next (finish .ok p.m.val
      (transmitRequest p.m (s.setMailbox p.m { s.mailbox p.m with tir := .of (withBit v 0 true) }))) := by
  have read : readReg (.tir p.m) (goto p s) = (v, goto p s) := by
    rw [readReg_eq_resolve (by simp), view, show ((goto p s).mailbox p.m).tir = .of v from tir, resolve_of]
  have request := writeTir_request (s := goto p s) empty (bit_withBit_self v true (by decide : 0 < 32))
  refine congrArg Host.Outcome.next ?_
  show txMicro ide rtr tgt dlc p (goto p s) = _
  simp only [txMicro, hp, modifyReg, read, writeReg, request]
  rfl

/-- What TX makes of a mailbox by the time it requests its transmission: the frame of R193 to R196, with TXRQ = 1. -/
def txFilled (ide rtr tgt : Bool) (dlc : Nat) (s : State) (mb : Mailbox) : Mailbox where
  tir  := .of (withBit (idWord ide rtr s.arg0) 0 true)
  tdtr := mb.tdtr.patch 0xFFFF010F#32 (tdtWord tgt dlc)
  tdlr := .of (s.arg1 &&& loMask dlc)
  tdhr := .of (s.arg2 &&& hiMask dlc)

/-- The end of TX: mailbox `m` filled and requested, and reported. -/
def txHanded (ide rtr tgt : Bool) (dlc : Nat) (m : Fin 3) (s : State) : State :=
  finish .ok m.val (transmitRequest m (s.setMailbox m (txFilled ide rtr tgt dlc s (s.mailbox m))))

/-- A TX that stands at one of the four writes makes it and goes on. -/
theorem tx_completes_write {n : Nat} {t : State} (h1 : 1 ≤ p.step) (h4 : p.step ≤ 4) (empty : s.tme p.m = true)
    (c : Completes (.tx ide rtr tgt dlc) (n + 1) (goto { p with step := p.step + 1 }
      (s.setMailbox p.m (txFill ide rtr tgt dlc s p.step (s.mailbox p.m)))) t) :
    Completes (.tx ide rtr tgt dlc) (n + 2) (goto p s) t :=
  completes_go (exec_tx_write h1 h4 empty) rfl c

/-- From its claim on TX fills the mailbox by four writes and requests its transmission (R192). -/
theorem tx_completes_claimed (hp : p.step = 1) (empty : s.tme p.m = true) :
    Completes (.tx ide rtr tgt dlc) 5 (goto p s) (txHanded ide rtr tgt dlc p.m s) := by
  obtain ⟨step, polls, m, ri, rdt, lo, hi⟩ := p
  obtain rfl : step = 1 := hp
  iterate 4 refine tx_completes_write (by simp) (by simp) empty ?_
  simp only [setMailbox_setMailbox, setMailbox_mailbox_self, txFill_setMailbox]
  have request := exec_tx_request (ide := ide) (rtr := rtr) (tgt := tgt) (dlc := dlc)
    (p := ⟨5, polls, m, ri, rdt, lo, hi⟩) (s := s.setMailbox m { txFilled ide rtr tgt dlc s (s.mailbox m) with
      tir := .of (idWord ide rtr s.arg0) }) rfl empty (congrArg Mailbox.tir (setMailbox_mailbox_self ..))
  simp only [setMailbox_setMailbox, setMailbox_mailbox_self] at request
  exact completes_one request rfl

/-- A whole TX with valid operands and an empty mailbox (R192). -/
theorem tx_completes (h0 : s.pos.step = 0) (valid : txRejects ide dlc s.arg0 = none) {i : Fin 3} (empty : s.tme i = true) :
    ∃ u m, DrawnFrom s u ∧ s.tme m = true ∧
      Completes (.tx ide rtr tgt dlc) 6 s (txHanded ide rtr tgt dlc m u) := by
  obtain ⟨u, m, ⟨_, _, rfl⟩, claimed, e⟩ := exec_tx_claims (rtr := rtr) (tgt := tgt) h0 valid empty
  exact ⟨_, m, ⟨_, _, rfl⟩, claimed, completes_go e rfl (tx_completes_claimed rfl claimed)⟩

end Micros

theorem statusWord_ok (n : Nat) : statusWord .ok n = BitVec.ofNat 32 n <<< 8 := by
  simp [statusWord, Status.code, Status.detail]

/-- TIiR as TX leaves it: the packed identifier, RTR and TXRQ = 1 (R193, R194). -/
theorem withBit_idWord (ide rtr : Bool) (id : Word) :
    withBit (idWord ide rtr id) 0 true = packId ide id ||| (ofBit rtr <<< 1) ||| 1#32 := rfl

end Sys2Proof.Machine

/-- Settles O24: the mailbox claimed is empty and stays so through the writes, each of which is therefore stored. -/
theorem txHandsTheFrameToAMailbox : Obligations.TxHandsTheFrameToAMailbox := by
  intro ide rtr tgt dlc s h0 hd hid ⟨i, hi⟩
  obtain ⟨_, m, ⟨tape, n, rfl⟩, empty, c⟩ :=
    tx_completes (rtr := rtr) (tgt := tgt) h0 (txRejects_none hd hid) hi
  refine ⟨m, tape, n, empty, ?_⟩
  rw [← statusWord_ok, ← withBit_idWord]
  exact c

/-- Settles O25: TX ends with its first micro-operation, by the check that fails or by its read of TSR. -/
theorem txFailureMutatesNothing : Obligations.TxFailureMutatesNothing := by
  intro ide rtr tgt dlc s h0
  refine ⟨fun h => exec_tx_rejects h0 (txRejects_dlc h), fun h wide => exec_tx_rejects h0 (txRejects_id h wide),
    fun h narrow full => ?_⟩
  obtain ⟨_, ⟨tape, n, rfl⟩, e⟩ := exec_tx_noMailbox (rtr := rtr) (tgt := tgt) h0 (txRejects_none h narrow) full
  exact ⟨tape, n, e⟩
end

section
/-! PROOF. What each event writes, which is its column of R263 (O46). -/

open Sys2Proof Sys2Proof.Machine

namespace Sys2Proof.Machine

/-- An event that is not enabled leaves the state, and one that is has its effect (R244). -/
theorem fire_of (P : State → Prop) {e : EnvEvent} {s : State} (kept : P s) (done : enabled e s = true → P (effect e s)) :
    P (fire e s) := by
  unfold fire
  split
  · next he => exact done he
  · exact kept

/-! ### Words -/

/-- A masked write leaves the bits of every mask that shares no bit with its own. -/
theorem merge_and_of_disjoint {m r : Word} (h : m &&& r = 0#32) (old new : Word) : merge old new m &&& r = old &&& r := by
  refine word_ext fun j _ => ?_
  have disjoint : (bit m j && bit r j) = false := by rw [← bit_and, h, bit_zero]
  rw [bit_and, bit_and, bit_merge]
  split
  · next hm =>
    rw [hm, Bool.true_and] at disjoint
    rw [disjoint, Bool.and_false, Bool.and_false]
  · rfl

theorem merge_and_not (old new m : Word) : merge old new m &&& ~~~m = old &&& ~~~m :=
  merge_and_of_disjoint (BitVec.and_not_self m) old new

/-- A masked write of a cell leaves the bits of every mask that shares no bit with its own, with their values or without. -/
theorem patch_and_of_disjoint {m r : Word} (h : m &&& r = 0#32) (c : Cell) (v : Word) :
    (c.patch m v).val &&& r = c.val &&& r ∧ (c.patch m v).known &&& r = c.known &&& r := by
  refine ⟨merge_and_of_disjoint h c.val v, ?_⟩
  show (c.known ||| m) &&& r = _
  rw [BitVec.and_or_distrib_right, h, BitVec.or_zero]

/-- A bit write leaves the bits of every mask without that bit. -/
theorem withBit_and_of_not_bit {r : Word} {i : Nat} (h : bit r i = false) (v : Word) (b : Bool) :
    withBit v i b &&& r = v &&& r := by
  refine word_ext fun j _ => ?_
  rw [bit_and, bit_and]
  by_cases e : j = i
  · rw [e, h, Bool.and_false, Bool.and_false]
  · rw [bit_withBit_of_ne v b e]

/-! ### The mode events -/

/-- What a mode event may change (R240 to R243, R263). -/
def ModeFrame (s t : State) : Prop :=
  t = { s with msr := t.msr, mcr := t.mcr } ∧ t.msr &&& ~~~0x0000001B#32 = s.msr &&& ~~~0x0000001B#32

theorem ModeFrame.refl (s : State) : ModeFrame s s := ⟨rfl, rfl⟩

theorem sleepExit_frame (s : State) : ModeFrame s (sleepExit s) := ⟨rfl, withBit_and_of_not_bit (by decide) ..⟩

theorem initEnter_frame (s : State) : ModeFrame s (initEnter s) :=
  ⟨rfl, (withBit_and_of_not_bit (by decide) ..).trans (withBit_and_of_not_bit (by decide) ..)⟩

theorem initExit_frame (s : State) : ModeFrame s (initExit s) := ⟨rfl, withBit_and_of_not_bit (by decide) ..⟩

theorem sleepEnter_frame (s : State) : ModeFrame s (sleepEnter s) :=
  ⟨rfl, ((withBit_and_of_not_bit (by decide) ..).trans (withBit_and_of_not_bit (by decide) ..)).trans
    (withBit_and_of_not_bit (by decide) ..)⟩

theorem wakeup_frame (s : State) : ModeFrame s (wakeup s) := ⟨rfl, withBit_and_of_not_bit (by decide) ..⟩

/-! ### The end of a request -/

/-- Of the mailboxes and of TSR, what the end of a request of mailbox `i` may change (R245, R247, R263). -/
def RequestFrame (i : Fin 3) (s t : State) : Prop :=
  TsrOutside i t.tsr s.tsr ∧ ∀ j, j ≠ i → t.mailbox j = s.mailbox j

theorem RequestFrame.refl (i : Fin 3) (s : State) : RequestFrame i s s := ⟨fun _ _ _ _ => rfl, fun _ _ => rfl⟩

theorem requestEnded_tsrOutside (i : Fin 3) (a b c : Bool) (s : State) : TsrOutside i (requestEnded i a b c s).tsr s.tsr := by
  intro j tme abrq low
  rw [requestEnded_bit]
  repeat rw [if_neg (by omega)]

theorem transmitted_requestFrame (i : Fin 3) (ok : Bool) (s : State) : RequestFrame i s (transmitted i ok s).2 := by
  refine ⟨?_, fun _ hj => (transmitted_other hj ok s).2⟩
  obtain ⟨a, b, t, tape, n, h⟩ := transmitted_eq i ok s
  rw [h]
  exact requestEnded_tsrOutside i ok a b _

/-- The fields of a mailbox that no event writes (R245, R247, R263). -/
def MailboxFrame (new old : Mailbox) : Prop :=
  new.tdlr = old.tdlr ∧ new.tdhr = old.tdhr ∧
  new.tir.val &&& 0xFFFFFFFE#32 = old.tir.val &&& 0xFFFFFFFE#32 ∧
  new.tir.known &&& 0xFFFFFFFE#32 = old.tir.known &&& 0xFFFFFFFE#32 ∧
  new.tdtr.val &&& 0x0000FFFF#32 = old.tdtr.val &&& 0x0000FFFF#32 ∧
  new.tdtr.known &&& 0x0000FFFF#32 = old.tdtr.known &&& 0x0000FFFF#32

theorem MailboxFrame.refl (mb : Mailbox) : MailboxFrame mb mb := ⟨rfl, rfl, rfl, rfl, rfl, rfl⟩

theorem MailboxFrame.trans {a b c : Mailbox} (h : MailboxFrame a b) (k : MailboxFrame b c) : MailboxFrame a c := by
  obtain ⟨h1, h2, h3, h4, h5, h6⟩ := h
  obtain ⟨k1, k2, k3, k4, k5, k6⟩ := k
  exact ⟨h1.trans k1, h2.trans k2, h3.trans k3, h4.trans k4, h5.trans k5, h6.trans k6⟩

/-- Clearing TXRQ writes bit 0 of TIiR alone. -/
theorem clearTxrq_mailboxFrame (i j : Fin 3) (s : State) : MailboxFrame ((clearTxrq i s).mailbox j) (s.mailbox j) := by
  rw [clearTxrq_mailbox]
  split
  · next e =>
    subst e
    obtain ⟨val, known⟩ := patch_and_of_disjoint (m := 1#32) (r := 0xFFFFFFFE#32) (by decide) (s.mailbox j).tir 0#32
    exact ⟨rfl, rfl, val, known, rfl, rfl⟩
  · exact .refl _

/-- The time stamp goes to the high half of TDTiR alone. -/
theorem stampTime_mailboxFrame (i j : Fin 3) (s : State) : MailboxFrame ((stampTime i s).mailbox j) (s.mailbox j) := by
  rw [stampTime, setMailbox_mailbox]
  split
  · next e =>
    subst e
    obtain ⟨val, known⟩ := patch_and_of_disjoint (m := 0xFFFF0000#32) (r := 0x0000FFFF#32) (by decide) (s.mailbox j).tdtr
      (s.timeStamp.zeroExtend 32 <<< 16)
    exact ⟨rfl, rfl, rfl, rfl, val, known⟩
  · exact .refl _

theorem transmitted_mailboxFrame (i j : Fin 3) (ok : Bool) (s : State) :
    MailboxFrame ((transmitted i ok s).2.mailbox j) (s.mailbox j) := by
  obtain ⟨a, b, t, tape, n, h⟩ := transmitted_eq i ok s
  rw [h]
  exact (stampTime_mailboxFrame i j _).trans
    (clearTxrq_mailboxFrame i j { s with timeStamp := t, drawTape := tape, drawCount := n })

/-- No event writes the identifier, the control fields or the data of a mailbox (R263). -/
theorem effect_mailboxFrame (e : EnvEvent) (s : State) (j : Fin 3) :
    MailboxFrame ((effect e s).mailbox j) (s.mailbox j) := by
  cases e with
  | txDone i ok =>
    have sent := transmitted_mailboxFrame i j ok s
    rw [effect]
    rcases txDone_cases i ok s with h | ⟨fr, t, h⟩
    · rw [h]; exact sent
    · rw [h, (offer_mailbox fr t (transmitted i ok s).2 j).2]; exact sent
  | txAbort i => exact clearTxrq_mailboxFrame i j s
  | rxFrame f =>
    obtain ⟨t, tape, n, h⟩ := rxFrame_eq f s
    rw [effect, h, (offer_mailbox f t { s with timeStamp := t, drawTape := tape, drawCount := n } j).2]
    exact .refl _
  | statusDrift =>
    obtain ⟨a, b, c, tape, n, h⟩ := statusDrift_eq s
    rw [effect, h]
    exact .refl _
  | sleepExit | initEnter | initExit | sleepEnter | wakeup | none => exact .refl _

/-! ### Offers -/

/-- What an offer may change: the FIFOs and what is left to draw (R252). -/
theorem offer_frame (fr : Frame) (t : BitVec 16) (s : State) : offer fr t s =
    { s with fifos := (offer fr t s).fifos, drawTape := (offer fr t s).drawTape, drawCount := (offer fr t s).drawCount } := by
  obtain ⟨_, ⟨tape, n, rfl⟩, h | ⟨f, q, h⟩⟩ := offer_eq fr t s
  · rw [h]
  · rw [h]; rfl

theorem accept_fifo (fr : Frame) (s : State) (q : Fin 2) : (accept fr s).2.fifo q = s.fifo q := by
  obtain ⟨_, _, h⟩ := accept_frame fr s
  rw [h]
  rfl

theorem store_other {f q : Fin 2} (h : q ≠ f) (e : Entry) (s : State) : (store f e s).fifo q = s.fifo q := by
  obtain ⟨x, stored⟩ := store_eq f e s
  rw [stored, setFifo_fifo, if_neg h]

/-- A FIFO that `accept` does not select stays (R252, R258). -/
theorem offer_unselected {fr : Frame} {s : State} {q : Fin 2} (h : ∀ index, (accept fr s).1 ≠ some (q, index))
    (t : BitVec 16) : (offer fr t s).fifo q = s.fifo q := by
  unfold offer
  split
  · rfl
  · simp only
    split
    · exact accept_fifo fr s q
    · next f index selected =>
      have other : q ≠ f := fun e => h index (e ▸ selected)
      exact (store_other other ..).trans (accept_fifo fr s q)

/-! ### EV_TX_ABORT, EV_TX_DONE and EV_RX_FRAME -/

/-- What EV_TX_ABORT may change (R247, R263). -/
def TxAbortFrame (i : Fin 3) (s t : State) : Prop :=
  t = { s with tsr := t.tsr, mailboxes := t.mailboxes, txOrder := t.txOrder } ∧ RequestFrame i s t

theorem TxAbortFrame.refl (i : Fin 3) (s : State) : TxAbortFrame i s s := ⟨rfl, .refl i s⟩

theorem txAbort_frame (i : Fin 3) (s : State) : TxAbortFrame i s (txAbort i s) :=
  ⟨rfl, requestEnded_tsrOutside i false false false (clearTxrq i s), fun _ hj => (ended_other hj false false false s).2⟩

theorem transmitted_fifos (i : Fin 3) (ok : Bool) (s : State) : (transmitted i ok s).2.fifos = s.fifos := by
  obtain ⟨a, b, t, tape, n, h⟩ := transmitted_eq i ok s
  rw [h]
  rfl

theorem transmitted_lbkm (i : Fin 3) (ok : Bool) (s : State) : (transmitted i ok s).2.lbkm = s.lbkm := by
  rw [transmitted_traffic i ok s]
  rfl

/-- What EV_TX_DONE may change (R245, R263). -/
def TxDoneFrame (i : Fin 3) (ok : Bool) (s t : State) : Prop :=
  TrafficFrame s t ∧ RequestFrame i s t ∧ (ok = false ∨ s.lbkm = false → t.fifos = s.fifos) ∧
  ∀ q, (∀ index, (accept (transmitted i ok s).1 (transmitted i ok s).2).1 ≠ some (q, index)) → t.fifo q = s.fifo q

theorem TxDoneFrame.refl (i : Fin 3) (ok : Bool) (s : State) : TxDoneFrame i ok s s :=
  ⟨rfl, .refl i s, fun _ => rfl, fun _ _ => rfl⟩

theorem txDone_frame (i : Fin 3) (ok : Bool) (s : State) : TxDoneFrame i ok s (txDone i ok s) := by
  have fifos := transmitted_fifos i ok s
  have fifo (q : Fin 2) : (transmitted i ok s).2.fifo q = s.fifo q := congrArg (·[q]) fifos
  refine ⟨txDone_traffic i ok s, ?_⟩
  obtain ⟨flags, others⟩ := transmitted_requestFrame i ok s
  unfold txDone
  simp only
  split
  · next offered =>
    rw [transmitted_lbkm, Bool.and_eq_true] at offered
    refine ⟨⟨?_, fun j hj => (offer_mailbox ..).2.trans (others j hj)⟩, fun h => ?_,
      fun q h => (offer_unselected h _).trans (fifo q)⟩
    · rw [offer_frame]
      exact flags
    · rw [offered.1, offered.2] at h
      simp at h
  · exact ⟨⟨flags, others⟩, fun _ => fifos, fun q _ => fifo q⟩

/-- What EV_RX_FRAME may change (R252, R263). -/
def ArrivalFrame (f : Frame) (s t : State) : Prop :=
  t = { s with fifos := t.fifos, timeStamp := t.timeStamp, drawTape := t.drawTape, drawCount := t.drawCount } ∧
  ∀ q, (∀ index, (accept f (captureTime s)).1 ≠ some (q, index)) → t.fifo q = s.fifo q

theorem ArrivalFrame.refl (f : Frame) (s : State) : ArrivalFrame f s s := ⟨rfl, fun _ _ => rfl⟩

theorem rxFrame_frame (f : Frame) (s : State) : ArrivalFrame f s (rxFrame f s) := by
  obtain ⟨t, tape, n, captured⟩ := captureTime_eq s
  refine ⟨?_, fun q h => (offer_unselected h _).trans ?_⟩
  · unfold rxFrame
    simp only [captured]
    rw [offer_frame]
  · rw [captured]
    rfl

/-! ### Status drift -/

/-- What status drift may change (R250, R263). -/
def DriftFrame (s t : State) : Prop :=
  t = { s with msr := t.msr, tsr := t.tsr, esr := t.esr, drawTape := t.drawTape, drawCount := t.drawCount } ∧
  t.msr &&& ~~~0x00000F04#32 = s.msr &&& ~~~0x00000F04#32 ∧ t.tsr &&& ~~~0xE0000000#32 = s.tsr &&& ~~~0xE0000000#32 ∧
  t.esr &&& ~~~0xFFFF0077#32 = s.esr &&& ~~~0xFFFF0077#32

theorem statusDrift_frame (s : State) : DriftFrame s (statusDrift s) := by
  obtain ⟨a, b, c, tape, n, h⟩ := statusDrift_eq s
  rw [h]
  exact ⟨rfl, merge_and_not .., merge_and_not .., merge_and_not ..⟩

/-- Status drift takes the words of the tape (R250). -/
theorem statusDrift_of_tape (a b c : Word) (s : State) :
    statusDrift { s with drawTape := a :: b :: c :: s.drawTape } = { s with
      msr := merge s.msr a 0x00000F04#32, tsr := merge s.tsr b 0xE0000000#32, esr := merge s.esr c 0xFFFF0077#32 } := rfl

/-! ### Every event -/

/-- What does not look at the fields an event may change sees no event (R263). -/
theorem EventFrame.sees {α : Type} {s t : State} (h : EventFrame s t) (look : State → α) : look t = look { s with
    mcr := t.mcr, msr := t.msr, esr := t.esr, tsr := t.tsr, mailboxes := t.mailboxes, fifos := t.fifos,
    txOrder := t.txOrder, timeStamp := t.timeStamp, drawTape := t.drawTape, drawCount := t.drawCount } :=
  congrArg look h

theorem fire_frame (e : EnvEvent) (s : State) : EventFrame s (fire e s) :=
  fire_of (EventFrame s) rfl fun _ => effect_frame e s

theorem fire_mcr (e : EnvEvent) (s : State) : (fire e s).mcr &&& 0xFFFFFFFD#32 = s.mcr &&& 0xFFFFFFFD#32 := by
  refine fire_of (fun t => t.mcr &&& 0xFFFFFFFD#32 = s.mcr &&& 0xFFFFFFFD#32) rfl fun _ => ?_
  rcases effect_mcr e s with h | h
  · rw [h]
  · rw [h]
    exact withBit_and_of_not_bit (by decide) ..

end Sys2Proof.Machine

/-- Settles O46: each event is the update of its own register files, within the bits of its column of R263. -/
theorem eventsLeaveConfigurationAlone : Obligations.EventsLeaveConfigurationAlone := by
  intro e s t
  have frame : EventFrame s t := fire_frame e s
  have mailbox (i : Fin 3) : MailboxFrame (t.mailbox i) (s.mailbox i) :=
    fire_of (fun t => MailboxFrame (t.mailbox i) (s.mailbox i)) (.refl _) fun _ => effect_mailboxFrame e s i
  have empty (i : Fin 3) (hi : s.tme i = true) : t.tme i = true ∧ t.mailbox i = s.mailbox i :=
    fire_of (fun t => t.tme i = true ∧ t.mailbox i = s.mailbox i) ⟨hi, rfl⟩ fun he => effect_mailbox he hi
  have head (f : Fin 2) (x : Entry) (rest : List Entry) (hq : s.queue f = x :: rest) : ∃ rest', t.queue f = x :: rest' :=
    fire_of (fun t => ∃ rest', t.queue f = x :: rest') ⟨rest, hq⟩ fun _ => effect_head hq e
  refine ⟨frame.sees State.fmr, frame.sees State.fm1r, frame.sees State.fs1r, frame.sees State.ffa1r,
    frame.sees State.fa1r, frame.sees State.banks, frame.sees State.btr, frame.sees State.ier, fire_mcr e s,
    frame.sees State.cmd, frame.sees State.arg0, frame.sees State.arg1, frame.sees State.arg2, frame.sees State.res0,
    frame.sees State.res1, frame.sees State.res2, frame.sees State.res3, frame.sees State.res4, frame.sees State.seq,
    frame.sees State.cfg, frame.sees State.agenda, mailbox, empty, head, ?_⟩
  cases e with
  | sleepExit => exact fire_of (ModeFrame s) (.refl s) fun _ => sleepExit_frame s
  | initEnter => exact fire_of (ModeFrame s) (.refl s) fun _ => initEnter_frame s
  | initExit => exact fire_of (ModeFrame s) (.refl s) fun _ => initExit_frame s
  | sleepEnter => exact fire_of (ModeFrame s) (.refl s) fun _ => sleepEnter_frame s
  | wakeup => exact fire_of (ModeFrame s) (.refl s) fun _ => wakeup_frame s
  | txDone i ok =>
    obtain ⟨traffic, ⟨flags, others⟩, fifos, unselected⟩ : TxDoneFrame i ok s t :=
      fire_of (TxDoneFrame i ok s) (.refl i ok s) fun _ => txDone_frame i ok s
    exact ⟨traffic, flags, others, fifos, unselected⟩
  | txAbort i => exact fire_of (TxAbortFrame i s) (.refl i s) fun _ => txAbort_frame i s
  | rxFrame f => exact fire_of (ArrivalFrame f s) (.refl f s) fun _ => rxFrame_frame f s
  | statusDrift =>
    obtain ⟨rest, msr, tsr, esr⟩ : DriftFrame s t := statusDrift_frame s
    exact ⟨rest, msr, tsr, esr, fun a b c => ⟨a :: b :: c :: s.drawTape, statusDrift_of_tape a b c s⟩⟩
  | none => rfl
end

section
/-! PROOF. How the identifier decoder undoes the encoder (O32). -/

open Sys2Proof Sys2Proof.Machine

namespace Sys2Proof.Machine

/-- Where an identifier stands in its word: the bit its lowest bit goes to (R193). -/
def idShift (ide : Bool) : Nat := if ide then 3 else 21

/-- An identifier that fits its width stands whole in the packed word, with IDE in bit 2 (R193). -/
theorem packId_of_fits {ide : Bool} {id : Word} (fits : id.toNat < (if ide then 2 ^ 29 else 2 ^ 11)) :
    packId ide id = (id <<< idShift ide) ||| (ofBit ide <<< 2) := by
  cases ide with
  | false =>
    have whole : field id 10 0 = id := (field_eq_shiftRight fits 0).trans (BitVec.ushiftRight_zero id)
    show field id 10 0 <<< 21 = (id <<< 21) ||| (0#32 <<< 2)
    rw [whole, BitVec.zero_shiftLeft, BitVec.or_zero]
  | true => exact congrArg (· ||| 4#32) (stid_or_exid fits)

/-- Shifting a word that fits back from where it stands drops what stands below it. -/
theorem shiftLeft_or_shiftRight {v low : Word} {k : Nat} (fits : v.toNat < 2 ^ (32 - k)) (below : low >>> k = 0#32) :
    ((v <<< k) ||| low) >>> k = v := by
  rw [BitVec.ushiftRight_or_distrib, below, BitVec.or_zero]
  refine word_ext fun j hj => ?_
  rw [bit_shiftRight, bit_shiftLeft, Nat.add_sub_cancel_left]
  by_cases inside : k + j < 32
  · simp [inside]
  · have above : bit v j = false :=
      Nat.testBit_lt_two_pow (fits.trans_le (Nat.pow_le_pow_right (by decide) (by omega)))
    rw [above, Bool.and_false]

/-- `unpack_id` of TIiR, whatever TXRQ is, gives the identifier, and IDE and RTR stand in bits 2 and 1 (R193, R221). -/
theorem unpackId_idWord_txrq {ide : Bool} {id : Word} (rtr txrq : Bool) (fits : id.toNat < (if ide then 2 ^ 29 else 2 ^ 11)) :
    unpackId ide (idWord ide rtr id ||| ofBit txrq) = id ∧ bit (idWord ide rtr id ||| ofBit txrq) 2 = ide ∧
      bit (idWord ide rtr id ||| ofBit txrq) 1 = rtr := by
  have flags : ∀ a b c : Bool, ((ofBit a <<< 2) ||| ((ofBit b <<< 1) ||| ofBit c)) >>> idShift a = 0#32 ∧
      bit ((ofBit a <<< 2) ||| ((ofBit b <<< 1) ||| ofBit c)) 2 = a ∧
      bit ((ofBit a <<< 2) ||| ((ofBit b <<< 1) ||| ofBit c)) 1 = b := by decide
  obtain ⟨below, two, one⟩ := flags ide rtr txrq
  have word : idWord ide rtr id ||| ofBit txrq =
      (id <<< idShift ide) ||| ((ofBit ide <<< 2) ||| ((ofBit rtr <<< 1) ||| ofBit txrq)) := by
    rw [idWord, packId_of_fits fits, BitVec.or_assoc, BitVec.or_assoc]
  have shift : 2 < idShift ide ∧ id.toNat < 2 ^ (32 - idShift ide) := by
    cases ide with
    | false => exact ⟨by decide, fits⟩
    | true => exact ⟨by decide, fits⟩
  have low : ∀ j, j ≤ 2 → bit (id <<< idShift ide) j = false := fun j hj => by
    rw [bit_shiftLeft]
    simp [hj.trans_lt shift.1]
  refine ⟨?_, ?_, ?_⟩
  · have decoded : ∀ v, unpackId ide v = v >>> idShift ide := fun v => by
      rw [unpackId_eq]
      cases ide <;> rfl
    rw [decoded, word]
    exact shiftLeft_or_shiftRight shift.2 below
  · rw [word, bit_or, low 2 (Nat.le_refl 2), two, Bool.false_or]
  · rw [word, bit_or, low 1 (by decide), one, Bool.false_or]

/-- The same of the identifier word without TXRQ, as a FIFO stores it (R221, R252). -/
theorem unpackId_idWord {ide : Bool} {id : Word} (rtr : Bool) (fits : id.toNat < (if ide then 2 ^ 29 else 2 ^ 11)) :
    unpackId ide (idWord ide rtr id) = id ∧ bit (idWord ide rtr id) 2 = ide ∧ bit (idWord ide rtr id) 1 = rtr := by
  have word : idWord ide rtr id ||| ofBit false = idWord ide rtr id := BitVec.or_zero
  have decoded := unpackId_idWord_txrq rtr false fits
  rw [word] at decoded
  exact decoded

end Sys2Proof.Machine

/-- Settles O32: the identifier stands whole above the flags of its word, from where a shift takes it back. -/
theorem unpackOfPackIdentifier : Obligations.UnpackOfPackIdentifier :=
  ⟨fun _ rtr _ fits => unpackId_idWord rtr fits, fun ri => ⟨unpackId_eq true ri, unpackId_eq false ri⟩⟩
end

section
/-! PROOF. RX on an empty FIFO, and the release of a frame by a write of RFOM (O30, O39). -/

open Sys2Proof Sys2Proof.Machine

namespace Sys2Proof.Machine

/-- RFfR holds a value in every bit, so its read draws nothing. -/
theorem readReg_rfr (f : Fin 2) (s : State) : readReg (.rfr f) s = ((s.fifo f).word, s) := by
  rw [readReg_eq_resolve (by simp), view, resolve_of]

theorem exec_rx_empty {f : Fin 2} {s : State} (h0 : s.pos.step = 0) (empty : s.queue f = []) :
    exec (.rx f) s = .next (finish .fifoEmpty 0 s) := by
  have start : exec (.rx f) s = .next (rxPending f s.pos s) := by simp [exec, execRx, rxMicro, h0]
  have none : fmpOf (readReg (.rfr f) s).1 = 0 := fmpOf_of_empty empty
  rw [start, rxPending]
  simp only [none, if_true]
  rw [readReg_rfr]
  rfl

/-- The release removes the head, whatever else the write of RFfR clears (R226). -/
theorem writeRfr_queue {v : Word} (rfom : bit v 5 = true) (f : Fin 2) (s : State) :
    (writeRfr f v s).queue f = (s.queue f).tail := by
  rw [writeRfr]
  simp only [rfom, if_true]
  rw [release, setFifo_queue_self, setFifo_queue_self]
  rfl

/-- The state with a FIFO put back as it is. -/
theorem setFifo_fifo_eq (f : Fin 2) (s : State) : s.setFifo f (s.fifo f) = s := by
  have same : s.fifos.set f.val s.fifos[f] f.isLt = s.fifos := Vector.set_getElem_self f.isLt
  rw [State.setFifo, State.fifo, same]

/-- RFOM reads 0 (R39). -/
theorem word_rfom (q : Fifo) : bit q.word 5 = false := by
  have all : ∀ n < 4, ∀ a b : Bool, bit (BitVec.ofNat 32 n ||| (ofBit a <<< 3) ||| (ofBit b <<< 4)) 5 = false := by decide
  exact all _ (Nat.mod_lt _ (by decide)) q.full q.fovr

/-- The output mailbox shows the frame at the head of the queue (R46 to R48, R57). -/
theorem view_head {f : Fin 2} {e : Entry} {rest : List Entry} {s : State} (h : s.queue f = e :: rest) :
    view (.rir f) s = .of (e.ri &&& 0xFFFFFFFE#32) ∧ view (.rdtr f) s = .of (e.rdt &&& 0xFFFFFF0F#32) ∧
      view (.rdlr f) s = e.rdl ∧ view (.rdhr f) s = e.rdh := by
  simp only [view, h, and_self]

/-- FMP reads the pending count of a queue within its depth (R39, R56). -/
theorem fmpOf_word_toNat {q : Fifo} (short : q.queue.length < 4) : (fmpOf q.word).toNat = q.queue.length := by
  rw [fmpOf_word, Nat.mod_eq_of_lt short, BitVec.toNat_ofNat, Nat.mod_eq_of_lt (by omega)]

end Sys2Proof.Machine

/-- Settles O30: the pending check reads FMP = 0 and ends the command there. -/
theorem rxOnEmptyFifoWritesNothing : Obligations.RxOnEmptyFifoWritesNothing :=
  fun _ _ h0 empty => exec_rx_empty h0 empty

/-- Settles O39: the write is the update of the FIFO by the tail of its queue, and the registers show what is left. -/
theorem releaseRemovesTheHead : Obligations.ReleaseRemovesTheHead := by
  intro f s
  have released : writeReg (.rfr f) 0x00000020#32 s = s.setFifo f { s.fifo f with queue := (s.queue f).tail } :=
    writeRfr_release f s
  have left : (writeReg (.rfr f) 0x00000020#32 s).queue f = (s.queue f).tail := by
    rw [released, setFifo_queue_self]
  refine ⟨fun v rfom => writeRfr_queue rfom f s, released, fun empty => ?_, fun fit => ?_, fun e e' rest h => ?_,
    word_rfom _⟩
  · have same : ({ s.fifo f with queue := (s.queue f).tail } : Fifo) = s.fifo f := by
      rw [empty, List.tail_nil, ← empty]
      rfl
    rw [released, same, setFifo_fifo_eq]
  · have depth : s.cfg.val.fifoDepth ≤ 3 := s.cfg.property.2.2.2.1.2
    have count : ((writeReg (.rfr f) 0x00000020#32 s).fifo f).queue.length = (s.queue f).length - 1 :=
      (congrArg List.length left).trans List.length_tail
    rw [← count]
    exact fmpOf_word_toNat (by omega)
  · exact view_head (left.trans (congrArg List.tail h))
end

section
/-! PROOF. What an offered frame is stored as, and that its filter-match index fits its field (used by O53). -/

open Sys2Proof Sys2Proof.Machine

namespace Sys2Proof.Machine

/-! ### The filter-match index -/

theorem activeBanks_index {b : MatchBank} {l : List (Fin 28)} {s : State} (h : b ∈ (activeBanks l s).1) : b.index < 28 := by
  induction l generalizing s with
  | nil => exact absurd h List.not_mem_nil
  | cons c rest ih =>
    rw [activeBanks] at h
    split at h
    · rcases List.mem_cons.1 h with rfl | h
      · exact c.isLt
      · exact ih h
    · exact ih h

theorem filterCount_le (fsc fbm : Bool) : filterCount fsc fbm ≤ 4 := by
  revert fsc fbm
  decide

/-- A hit names its bank, and one of the bank's filters (R256). -/
theorem mem_hits {b : MatchBank} {f : Frame} {x : Hit} (h : x ∈ b.hits f) : x.bank = b.index ∧ x.position < 4 := by
  obtain ⟨⟨c, p⟩, hc, some⟩ := List.mem_filterMap.1 h
  have position : p < filterCount b.fsc b.fbm := by
    rw [← conditions_length b f]
    exact List.snd_lt_of_mem_zipIdx hc
  split at some
  · cases some
    exact ⟨rfl, position.trans_le (filterCount_le ..)⟩
  · cases some

/-- What `accept` selects is the FIFO of a hit, with the index of that hit (R258). -/
theorem accept_hit {f : Frame} {s : State} {q : Fin 2} {index : Nat} (h : (accept f s).1 = some (q, index)) :
    ∃ b ∈ (activeBanks (List.finRange 28) s).1, ∃ x ∈ b.hits f, index = fmi s q x.bank x.position := by
  unfold accept at h
  simp only at h
  split at h
  · cases h
  · next best =>
    split at h
    · next x found =>
      cases h
      have hit := List.mem_of_mem_filter (best ▸ List.mem_of_find?_eq_some found)
      obtain ⟨b, hb, hx⟩ := List.mem_flatMap.1 hit
      exact ⟨b, hb, x, hx, rfl⟩
    · cases h

/-- Either numbering counts at most four filters a bank (R262). -/
theorem fmi_le (s : State) (q : Fin 2) (b p : Nat) : fmi s q b p ≤ 4 * b + p := by
  unfold fmi
  split
  · omega
  · have terms : ∀ n ∈ ((List.range b).filter (fun b' => decide (s.ffa b' = q))).map
        (fun b' => filterCount (s.fsc b') (s.fbm b')), n ≤ 4 := fun n hn => by
      obtain ⟨b', -, rfl⟩ := List.mem_map.1 hn
      exact filterCount_le ..
    have sum := List.sum_le_card_nsmul _ 4 terms
    have count : ((List.range b).filter (fun b' => decide (s.ffa b' = q))).length ≤ b :=
      (List.length_filter_le ..).trans_eq List.length_range
    rw [List.length_map, smul_eq_mul] at sum
    omega

/-- The index of an accepted frame fits FMI, bits 15:8 of RDTfR (R47, R262). -/
theorem accept_index_lt {f : Frame} {s : State} {q : Fin 2} {index : Nat} (h : (accept f s).1 = some (q, index)) :
    index < 2 ^ 8 := by
  obtain ⟨b, hb, x, hx, rfl⟩ := accept_hit h
  have bank := activeBanks_index hb
  obtain ⟨index, position⟩ := mem_hits hx
  have le := fmi_le s q x.bank x.position
  omega

/-! ### The frame stored -/

theorem store_empty {q : Fin 2} {s : State} (empty : s.queue q = []) (e : Entry) : (store q e s).queue q = [e] := by
  have room : (s.fifo q).queue.length < s.cfg.val.fifoDepth := by
    have depth : 2 ≤ s.cfg.val.fifoDepth := s.cfg.property.2.2.2.1.1
    have none : (s.fifo q).queue.length = 0 := congrArg List.length empty
    omega
  rw [store, if_pos room, setFifo_queue_self]
  exact congrArg (· ++ [e]) empty

/-- An empty FIFO in which an offer leaves something holds the offered frame alone (R252, R253). -/
theorem offer_empty {f : Frame} {t : BitVec 16} {q : Fin 2} {s : State} (empty : s.queue q = [])
    (stored : (offer f t s).queue q ≠ []) : ∃ index, index < 2 ^ 8 ∧ (offer f t s).queue q = [entryOf f t index] := by
  have selected : ∃ index, (accept f s).1 = some (q, index) := by
    by_contra none
    exact stored ((congrArg Fifo.queue (offer_unselected (not_exists.1 none) t)).trans empty)
  obtain ⟨index, selected⟩ := selected
  have free : s.finit = false := by
    by_contra suspended
    rw [offer, if_pos (by simpa using suspended)] at stored
    exact stored empty
  refine ⟨index, accept_index_lt selected, ?_⟩
  rw [offer, if_neg (by simp [free])]
  simp only [selected]
  exact store_empty ((congrArg Fifo.queue (accept_fifo f s q)).trans empty) _

/-- The time stamp of a transmission is the one captured at its end (R245). -/
theorem transmitted_timeStamp (i : Fin 3) (ok : Bool) (s : State) :
    (transmitted i ok s).2.timeStamp = (captureTime s).timeStamp := by
  obtain ⟨tape, n, drawn⟩ := (frameOfMailbox_frame i (captureTime s)).trans (drawLoss_frame ok _)
  simp only [transmitted, drawn]
  rfl

/-- In a loopback mode a completed transmission is the offer of the frame of its mailbox with the captured time stamp
(R245). -/
theorem txDone_loopback {i : Fin 3} {s : State} (loopback : s.lbkm = true) : txDone i true s =
    offer (frameOfMailbox i (captureTime s)).1 (captureTime s).timeStamp (transmitted i true s).2 := by
  have offered : (true && (transmitted i true s).2.lbkm) = true := by rw [transmitted_lbkm, loopback, Bool.and_self]
  rw [txDone, if_pos offered, transmitted_timeStamp]
  rfl

/-- What a FIFO that was empty holds after a completed transmission in a loopback mode. -/
theorem txDone_loopback_queue {i : Fin 3} {q : Fin 2} {s : State} (loopback : s.lbkm = true) (empty : s.queue q = [])
    (stored : (txDone i true s).queue q ≠ []) :
    (txDone i true s).timeStamp = (captureTime s).timeStamp ∧ ∃ index, index < 2 ^ 8 ∧
      (txDone i true s).queue q = [entryOf (frameOfMailbox i (captureTime s)).1 (captureTime s).timeStamp index] := by
  rw [txDone_loopback loopback] at stored ⊢
  refine ⟨?_, offer_empty ((transmitted_queue i true s q).trans empty) stored⟩
  rw [offer_frame]
  exact transmitted_timeStamp i true s

end Sys2Proof.Machine
end

section
/-! PROOF. The frame the controller reads out of a mailbox that TX has filled (used by O53). -/

open Sys2Proof Sys2Proof.Machine

namespace Sys2Proof.Machine

/-- A mailbox as TX leaves it (R192). -/
def sentMailbox (ide rtr tgt : Bool) (dlc : Nat) (id lo hi : Word) : Mailbox where
  tir  := .of (idWord ide rtr id ||| ofBit true)
  tdtr := .of (tdtWord tgt dlc)
  tdlr := .of (lo &&& loMask dlc)
  tdhr := .of (hi &&& hiMask dlc)

/-- Payload bytes 4 to 7 of the frame on the bus: TX's, with the time stamp in bytes 6 and 7 under TTCM, TGT and DLC = 8
(R249). -/
def sentHigh (ttcm tgt : Bool) (dlc : Nat) (time hi : Word) : Word :=
  if ttcm = true ∧ tgt = true ∧ dlc = 8 then (hi &&& 0xFFFF#32) ||| ((time >>> 8) <<< 16) ||| (time <<< 24)
  else hi &&& hiMask dlc

/-- The frame of a mailbox as TX leaves it, transmitted at time `t` (R249). -/
def sentFrame (ide rtr tgt : Bool) (dlc : Nat) (id lo hi : Word) (ttcm : Bool) (t : BitVec 16) : Frame where
  ide := ide
  id  := id
  rtr := rtr
  dlc := BitVec.ofNat 4 dlc
  lo  := lo &&& loMask dlc
  hi  := sentHigh ttcm tgt dlc (t.zeroExtend 32) hi

theorem hiMask_eight : hiMask 8 = BitVec.allOnes 32 := by decide

/-- What stands in bits 31:16 is kept by their mask. -/
theorem shiftLeft_and_highHalf (v : Word) {k : Nat} (hk : 16 ≤ k) : (v <<< k) &&& 0xFFFF0000#32 = v <<< k := by
  have high : ∀ j < 32, bit 0xFFFF0000#32 j = decide (16 ≤ j) := by decide
  refine word_ext fun j hj => ?_
  rw [bit_and, bit_shiftLeft, high j hj]
  by_cases h : j < k
  · simp [h]
  · simp [show 16 ≤ j by omega]

/-- A byte shifted to the top is the word shifted there. -/
theorem field_low_shiftLeft (v : Word) : field v 7 0 <<< 24 = v <<< 24 := by
  refine word_ext fun j hj => ?_
  rw [bit_shiftLeft, bit_shiftLeft, bit_field, Nat.zero_add]
  by_cases h : j < 24
  · simp [h]
  · simp [show j - 24 < 8 by omega, show j - 24 < 32 by omega]

/-- The low byte of the time stamp goes to byte 7, the high one to byte 6 (R249). -/
theorem merge_stamp (t : BitVec 16) (hi : Word) :
    merge hi ((field (t.zeroExtend 32) 7 0 <<< 24) ||| (field (t.zeroExtend 32) 15 8 <<< 16)) 0xFFFF0000#32 =
      (hi &&& 0xFFFF#32) ||| ((t.zeroExtend 32 >>> 8) <<< 16) ||| (t.zeroExtend 32 <<< 24) := by
  have narrow : (t.zeroExtend 32).toNat < 2 ^ (15 + 1) := by
    rw [BitVec.zeroExtend, BitVec.toNat_setWidth_of_le (by decide)]
    exact t.isLt
  have low : ~~~0xFFFF0000#32 = 0xFFFF#32 := by decide
  rw [merge, low, BitVec.and_or_distrib_right, field_low_shiftLeft, field_eq_shiftRight narrow,
    shiftLeft_and_highHalf _ (by decide), shiftLeft_and_highHalf _ (by decide), BitVec.or_assoc,
    BitVec.or_comm (t.zeroExtend 32 <<< 24)]

/-- What the controller reads of the control word of a frame: DLC and TGT (R196, R249). -/
theorem tdtWord_fields (tgt : Bool) {dlc : Nat} (h : dlc ≤ 8) :
    bit (tdtWord tgt dlc) 8 = tgt ∧ (field (tdtWord tgt dlc) 3 0 = 8#32 ↔ dlc = 8) ∧
      (tdtWord tgt dlc).setWidth 4 = BitVec.ofNat 4 dlc := by
  have all : ∀ d < 9, ∀ b : Bool, bit (tdtWord b d) 8 = b ∧ (field (tdtWord b d) 3 0 = 8#32 ↔ d = 8) ∧
      (tdtWord b d).setWidth 4 = BitVec.ofNat 4 d := by decide
  exact all dlc (Nat.lt_succ_of_le h) tgt

/-- The frame TX handed over, as the controller reads it (R249). -/
theorem frameOfMailbox_sent {i : Fin 3} {ide rtr tgt : Bool} {dlc : Nat} {id lo hi : Word} {s : State}
    (mailbox : s.mailbox i = sentMailbox ide rtr tgt dlc id lo hi) (short : dlc ≤ 8)
    (fits : id.toNat < (if ide then 2 ^ 29 else 2 ^ 11)) :
    (frameOfMailbox i s).1 = sentFrame ide rtr tgt dlc id lo hi s.ttcm s.timeStamp := by
  obtain ⟨unpack, two, one⟩ := unpackId_idWord_txrq rtr true fits
  obtain ⟨tgtBit, eight, width⟩ := tdtWord_fields tgt short
  have high : (if (s.ttcm && tgt && decide (dlc = 8)) = true
      then merge (hi &&& hiMask dlc) ((field (s.timeStamp.zeroExtend 32) 7 0 <<< 24) |||
        (field (s.timeStamp.zeroExtend 32) 15 8 <<< 16)) 0xFFFF0000#32
      else hi &&& hiMask dlc) = sentHigh s.ttcm tgt dlc (s.timeStamp.zeroExtend 32) hi := by
    have timed : (s.ttcm && tgt && decide (dlc = 8)) = true ↔ s.ttcm = true ∧ tgt = true ∧ dlc = 8 := by
      rw [Bool.and_eq_true, Bool.and_eq_true, decide_eq_true_iff, and_assoc]
    rw [sentHigh, if_congr timed rfl rfl]
    split
    · next h =>
      rw [h.2.2, hiMask_eight, BitVec.and_allOnes]
      exact merge_stamp s.timeStamp hi
    · rfl
  simp only [frameOfMailbox, sentFrame, mailbox, sentMailbox, resolve_of, unpack, two, one, tgtBit, eight, width, high]

end Sys2Proof.Machine
end

section
/-! PROOF. The words RX reads of a frame, drawn ones included, and a loopback's way back to the host (O53). -/

open Sys2Proof Sys2Proof.Machine

namespace Sys2Proof.Machine

/-! ### What RX has read -/

theorem draw_goto (p : InFlight) (s : State) : draw (goto p s) = ((draw s).1, goto p (draw s).2) := by
  unfold draw
  rw [goto_drawTape]
  cases s.drawTape <;> rfl

/-- A read draws the same whatever the place of the command is. -/
theorem resolve_goto (c : Cell) (p : InFlight) (s : State) :
    resolve c (goto p s) = ((resolve c s).1, goto p (resolve c s).2) := by
  unfold resolve
  split
  · rfl
  · simp only [draw_goto]

theorem readReg_goto {r : Reg} (hr : r ≠ .tsr) (p : InFlight) (s : State) :
    readReg r (goto p s) = ((resolve (view r s) s).1, goto p (resolve (view r s) s).2) := by
  have same : view r (goto p s) = view r s := by cases r <;> rfl
  rw [readReg_eq_resolve hr, same, resolve_goto]

/-- A bit that holds no value is read as the tape has it. -/
theorem resolve_unknown (v w : Word) (tape : List Word) (s : State) :
    resolve ⟨v, 0#32⟩ { s with drawTape := w :: tape } = (w, { s with drawTape := tape }) := by
  have all : merge w v 0#32 = w := by rw [merge, BitVec.and_zero, BitVec.or_zero]; exact BitVec.and_allOnes
  rw [resolve, if_neg (show (0#32 : Word) ≠ BitVec.allOnes 32 by decide)]
  exact congrArg (·, { s with drawTape := tape }) all

/-- A read of a cell under the mask of the bits that hold a value. -/
theorem resolve_masked (v m : Word) (s : State) : (resolve ⟨v &&& m, m⟩ s).1 &&& m = v &&& m := by
  rw [resolve_and_known, BitVec.and_assoc, BitVec.and_self]

/-- The place of RX before its release, with the words of the frame `e` read in state `s` (R220). -/
def rxRead (p : InFlight) (e : Entry) (s : State) : InFlight :=
  { p with step := 5, ri := e.ri &&& 0xFFFFFFFE#32, rdt := e.rdt &&& 0xFFFFFF0F#32, lo := (resolve e.rdl s).1,
           hi := (resolve e.rdh (resolve e.rdl s).2).1 }

/-- The state RX stands in before its release: the two data words are read. -/
def rxDrawn (e : Entry) (s : State) : State := (resolve e.rdh (resolve e.rdl s).2).2

/-- The place behind a read of the output mailbox: the word read is latched (R220). -/
def latchWord (p : InFlight) (w : Word) : InFlight :=
  match p.step with
  | 1 => { p with step := 2, ri := w }
  | 2 => { p with step := 3, rdt := w }
  | 3 => { p with step := 4, lo := w }
  | _ => { p with step := 5, hi := w }

/-- A micro-operation of RX that reads register `r` latches what the read shows. -/
theorem exec_rx_read {f : Fin 2} {r : Reg} {p : InFlight} {c : Cell} {s : State} (shows : view r s = c) (hr : r ≠ .tsr)
    (micro : ∀ u, rxMicro f p u = goto (latchWord p (readReg r u).1) (readReg r u).2) :
    exec (.rx f) (goto p s) = .next (goto (latchWord p (resolve c s).1) (resolve c s).2) := by
  have start : exec (.rx f) (goto p s) = .next (rxMicro f p (goto p s)) := rfl
  rw [start, micro, readReg_goto hr, shows]
  rfl

/-- A whole RX with the words it reads: those of the head, drawn where they hold no value, the low word first. -/
theorem rx_completes_reads {f : Fin 2} {e : Entry} {rest : List Entry} {s : State} (h0 : s.pos.step = 0)
    (h : s.queue f = e :: rest) (fit : (s.queue f).length ≤ s.cfg.val.fifoDepth) :
    Completes (.rx f) 6 s (rxDone f (rxRead s.pos e s) (rxDrawn e s)) := by
  obtain ⟨rir, rdtr, rdlr, -⟩ := view_head h
  have rdhr : view (.rdhr f) (resolve e.rdl s).2 = e.rdh := by
    obtain ⟨tape, n, drawn⟩ := resolve_frame e.rdl s
    obtain ⟨-, -, -, rdhr⟩ := view_head (s := { s with drawTape := tape, drawCount := n }) h
    rw [drawn]
    exact rdhr
  have read1 := exec_rx_read (f := f) (p := { s.pos with step := 1 }) rir (by simp) fun _ => rfl
  have read2 := exec_rx_read (f := f) (p := { s.pos with step := 2, ri := e.ri &&& 0xFFFFFFFE#32 }) rdtr (by simp)
    fun _ => rfl
  rw [resolve_of] at read1 read2
  refine completes_go (exec_rx_pending h0 (h ▸ List.cons_ne_nil e rest) fit) rfl ?_
  refine completes_go read1 rfl (completes_go read2 rfl ?_)
  refine completes_go (exec_rx_read rdlr (by simp) fun _ => rfl) rfl ?_
  refine completes_go (exec_rx_read rdhr (by simp) fun _ => rfl) rfl ?_
  exact completes_one (exec_rx_release rfl) rfl

/-! ### What RX returns of a stored frame -/

/-- TIME and DLC of a stored frame stand beside FMI, which fits its field (R47, R252). -/
theorem entryOf_rdt (f : Frame) (t : BitVec 16) {index : Nat} (h : index < 2 ^ 8) :
    (entryOf f t index).rdt &&& 0xF#32 = f.dlc.zeroExtend 32 ∧
      ((entryOf f t index).rdt &&& 0xFFFFFF0F#32) >>> 16 = t.zeroExtend 32 := by
  have dlc : ∀ j, 4 ≤ j → bit (f.dlc.zeroExtend 32) j = false := fun j hj => by
    simp [bit, BitVec.getLsbD_of_ge f.dlc j hj]
  have fmi : ∀ j, 8 ≤ j → bit (BitVec.ofNat 32 index) j = false := fun j hj =>
    Laws.EncodeMatches.bit_of_fits h hj
  constructor
  · have lowMask : ∀ j < 32, bit 0xF#32 j = decide (j < 4) := by decide
    refine word_ext fun j hj => ?_
    rw [entryOf, bit_and, lowMask j hj, bit_or, bit_or, bit_shiftLeft, bit_shiftLeft]
    by_cases low : j < 4
    · simp [low, show j < 16 by omega, show j < 8 by omega]
    · rw [dlc j (by omega)]
      simp [low]
  · have high : (0xFFFFFF0F#32 : Word) >>> 16 = BitVec.allOnes 32 >>> 16 := by decide
    have below : ((BitVec.ofNat 32 index <<< 8) ||| f.dlc.zeroExtend 32) >>> 16 = 0#32 := by
      refine word_ext fun j _ => ?_
      rw [bit_shiftRight, bit_or, bit_shiftLeft, fmi _ (by omega), dlc _ (by omega), bit_zero, Bool.and_false,
        Bool.or_false]
    have narrow : (t.zeroExtend 32).toNat < 2 ^ (32 - 16) := by
      rw [BitVec.zeroExtend, BitVec.toNat_setWidth_of_le (by decide)]
      exact t.isLt
    rw [BitVec.ushiftRight_and_distrib, high, ← BitVec.ushiftRight_and_distrib, BitVec.and_allOnes, entryOf, BitVec.or_assoc]
    exact shiftLeft_or_shiftRight narrow below

/-- What RX returns of a frame that was stored with time stamp `t`, its payload apart, leaving the FIFO empty (R230). -/
def Returned (q : Fin 2) (f : Frame) (t : BitVec 16) (u : State) : Prop :=
  u.res0 = 0#32 ∧ u.res1 = (ofBit f.ide <<< 31) ||| (ofBit f.rtr <<< 30) ||| f.id ∧
  u.res2 &&& 0xF#32 = f.dlc.zeroExtend 32 ∧ u.res2 >>> 16 = t.zeroExtend 32 ∧ u.queue q = []

section Stored

variable {q : Fin 2} {f : Frame} {t : BitVec 16} {index : Nat} (fits : f.id.toNat < (if f.ide then 2 ^ 29 else 2 ^ 11))
  (small : index < 2 ^ 8)
include fits small

theorem rxDone_returned (p : InFlight) {s u : State} (head : u.queue q = [entryOf f t index]) :
    Returned q f t (rxDone q (rxRead p (entryOf f t index) s) u) := by
  obtain ⟨unpack, two, one⟩ := unpackId_idWord f.rtr fits
  obtain ⟨dlc, time⟩ := entryOf_rdt f t small
  have low : 0xFFFFFF0F#32 &&& 0xF#32 = 0xF#32 := by decide
  refine ⟨show statusWord .ok 0 = 0#32 by decide, ?_, ?_, ?_, ?_⟩
  · show resultId (idWord f.ide f.rtr f.id &&& 0xFFFFFFFE#32) = _
    rw [resultId_read, ← unpackId_eq, two, one, unpack]
  · show resultMeta ((entryOf f t index).rdt &&& 0xFFFFFF0F#32) &&& 0xF#32 = _
    rw [resultMeta_read, BitVec.and_assoc, low, dlc]
  · show resultMeta ((entryOf f t index).rdt &&& 0xFFFFFF0F#32) >>> 16 = _
    rw [resultMeta_read, time]
  · show (u.setFifo q { u.fifo q with queue := (u.queue q).tail }).queue q = []
    rw [setFifo_queue_self, head, List.tail_cons]

/-- RX on a FIFO that holds one stored frame: what it returns, and the data words as read, cut to the frame's length
(R220, R225). -/
theorem rx_returns_stored {s : State} (h0 : s.pos.step = 0) (head : s.queue q = [entryOf f t index]) :
    ∃ u, Completes (.rx q) 6 s u ∧ Returned q f t u ∧
      u.res3 = (resolve (storedData f).1 s).1 &&& loMask (min f.dlc.toNat 8) ∧
      u.res4 = (resolve (storedData f).2 (resolve (storedData f).1 s).2).1 &&& hiMask (min f.dlc.toNat 8) := by
  have fit : (s.queue q).length ≤ s.cfg.val.fifoDepth := by
    obtain ⟨-, -, -, ⟨depth, -⟩, -⟩ := s.cfg.property
    rw [head]
    exact (Nat.le_succ 1).trans depth
  have drawn : (rxDrawn (entryOf f t index) s).queue q = [entryOf f t index] := by
    obtain ⟨tape, n, e⟩ := (resolve_frame (entryOf f t index).rdl s).trans (resolve_frame (entryOf f t index).rdh _)
    rw [rxDrawn, e]
    exact head
  have length : payloadLength ((entryOf f t index).rdt &&& 0xFFFFFF0F#32) = min f.dlc.toNat 8 := by
    rw [payloadLength_read, (entryOf_rdt f t small).1, BitVec.zeroExtend, BitVec.toNat_setWidth_of_le (by decide)]
  refine ⟨_, rx_completes_reads h0 head fit, rxDone_returned fits small _ drawn, ?_, ?_⟩
  · exact congrArg (fun n => (resolve (storedData f).1 s).1 &&& loMask n) length
  · exact congrArg (fun n => (resolve (storedData f).2 (resolve (storedData f).1 s).2).1 &&& hiMask n) length

/-- The payload lanes of a remote frame are read as the tape has them (R261). -/
theorem rx_returns_remote (remote : f.rtr = true) {s : State} (h0 : s.pos.step = 0)
    (head : s.queue q = [entryOf f t index]) (x y : Word) (tape : List Word) :
    ∃ u, Completes (.rx q) 6 { s with drawTape := x :: y :: tape } u ∧ Returned q f t u ∧
      u.res3 = x &&& loMask (min f.dlc.toNat 8) ∧ u.res4 = y &&& hiMask (min f.dlc.toNat 8) := by
  have unknown : storedData f = (⟨f.lo &&& loMask 0, 0#32⟩, ⟨f.hi &&& hiMask 0, 0#32⟩) := by
    rw [storedData, remote]
    rfl
  obtain ⟨u, c, returned, lo, hi⟩ := rx_returns_stored fits small (s := { s with drawTape := x :: y :: tape }) h0 head
  rw [unknown, resolve_unknown] at lo hi
  rw [resolve_unknown] at hi
  exact ⟨u, c, returned, lo, hi⟩

end Stored

/-- The lanes of a data frame below its length are read as they were stored (R260). -/
theorem resolve_storedData {f : Frame} (data : f.rtr = false) (s : State) :
    (resolve (storedData f).1 s).1 &&& loMask (min f.dlc.toNat 8) = f.lo &&& loMask (min f.dlc.toNat 8) ∧
      (resolve (storedData f).2 s).1 &&& hiMask (min f.dlc.toNat 8) = f.hi &&& hiMask (min f.dlc.toNat 8) := by
  have stored : storedData f = (⟨f.lo &&& loMask (min f.dlc.toNat 8), loMask (min f.dlc.toNat 8)⟩,
      ⟨f.hi &&& hiMask (min f.dlc.toNat 8), hiMask (min f.dlc.toNat 8)⟩) := by
    rw [storedData, data]
    rfl
  rw [stored]
  exact ⟨resolve_masked .., resolve_masked ..⟩

/-! ### The way of a frame through the loopback -/

theorem sentHigh_masked (ttcm tgt : Bool) (dlc : Nat) (time hi : Word) :
    sentHigh ttcm tgt dlc time hi &&& hiMask dlc = sentHigh ttcm tgt dlc time hi := by
  unfold sentHigh
  split
  · next timed => rw [timed.2.2, hiMask_eight, BitVec.and_allOnes]
  · rw [BitVec.and_assoc, BitVec.and_self]

/-- A FIFO that was empty holds the frame that was sent, with the time stamp of its transmission, and nothing else. -/
theorem txDone_loopback_sent {i : Fin 3} {q : Fin 2} {ide rtr tgt : Bool} {dlc : Nat} {id lo hi : Word} {s : State}
    (mailbox : s.mailbox i = sentMailbox ide rtr tgt dlc id lo hi) (short : dlc ≤ 8)
    (fits : id.toNat < (if ide then 2 ^ 29 else 2 ^ 11)) (loopback : s.lbkm = true) (empty : s.queue q = [])
    (stored : (txDone i true s).queue q ≠ []) : ∃ index, index < 2 ^ 8 ∧ (txDone i true s).queue q =
      [entryOf (sentFrame ide rtr tgt dlc id lo hi s.ttcm (txDone i true s).timeStamp) (txDone i true s).timeStamp index] := by
  obtain ⟨stamp, index, small, head⟩ := txDone_loopback_queue loopback empty stored
  obtain ⟨t, tape, n, captured⟩ := captureTime_eq s
  have kept : (captureTime s).mailbox i = s.mailbox i ∧ (captureTime s).ttcm = s.ttcm := by
    rw [captured]
    exact ⟨rfl, rfl⟩
  rw [frameOfMailbox_sent (kept.1.trans mailbox) short fits, kept.2, ← stamp] at head
  exact ⟨index, small, head⟩

/-- A DLC of at most 8 in its four bits. -/
theorem dlc_fits {dlc : Nat} (short : dlc ≤ 8) :
    min (BitVec.ofNat 4 dlc).toNat 8 = dlc ∧ (BitVec.ofNat 4 dlc).zeroExtend 32 = BitVec.ofNat 32 dlc := by
  have all : ∀ d < 9, min (BitVec.ofNat 4 d).toNat 8 = d ∧ (BitVec.ofNat 4 d).zeroExtend 32 = BitVec.ofNat 32 d := by decide
  exact all dlc (Nat.lt_succ_of_le short)

end Sys2Proof.Machine

/-- Settles O53: the FIFO holds the frame that was sent and nothing else, and RX returns what it stores. -/
theorem loopbackRoundTrip : Obligations.LoopbackRoundTrip := by
  intro i ide rtr tgt dlc id lo hi a0 a1 a2 q s short fits tir tdtr tdlr tdhr ready loopback empty stored
  have fired : fire (.txDone i true) s = txDone i true s := if_pos ready
  have mailbox : s.mailbox i = sentMailbox ide rtr tgt dlc id lo hi := by
    show (⟨(s.mailbox i).tir, (s.mailbox i).tdtr, (s.mailbox i).tdlr, (s.mailbox i).tdhr⟩ : Mailbox) = _
    rw [tir, tdtr, tdlr, tdhr]
    rfl
  rw [fired] at stored ⊢
  obtain ⟨index, small, head⟩ := txDone_loopback_sent mailbox short fits loopback empty stored
  obtain ⟨length, width⟩ := dlc_fits short
  intro t time returned
  have sees : ∀ u, Returned q (sentFrame ide rtr tgt dlc id lo hi s.ttcm t.timeStamp) t.timeStamp u → returned u :=
    fun u ⟨res0, res1, res2, stamp, queue⟩ => ⟨res0, res1, res2.trans width, stamp, queue⟩
  refine ⟨?_, fun remote x y => ?_⟩
  · obtain ⟨u, c, ret, res3, res4⟩ :=
      rx_returns_stored (s := issue (encode (.rx q)) a0 a1 a2 t) fits small rfl head
    refine ⟨u, c, sees u ret, fun data => ?_⟩
    rw [(resolve_storedData data _).1] at res3
    rw [(resolve_storedData data _).2] at res4
    simp only [sentFrame, length] at res3 res4
    rw [BitVec.and_assoc, BitVec.and_self] at res3
    rw [sentHigh_masked] at res4
    exact ⟨res3, res4⟩
  · obtain ⟨u, c, ret, res3, res4⟩ :=
      rx_returns_remote (s := issue (encode (.rx q)) a0 a1 a2 t) fits small remote rfl head x y []
    simp only [sentFrame, length] at res3 res4
    exact ⟨[x, y], u, c, sees u ret, res3, res4⟩
end

section
/-! PROOF. When each mode event is enabled and what it writes (O42). -/

open Sys2Proof Sys2Proof.Machine

namespace Sys2Proof.Machine

/-- The environment's turn under the event's condition as a statement on named bits (R244). -/
theorem fire_eq_ite {e : EnvEvent} {s : State} {P : Prop} [Decidable P] (h : enabled e s = true ↔ P) :
    fire e s = if P then effect e s else s := if_congr h rfl rfl

/-- EV_SLEEP_ENTER sets SLAK and SLAKI and clears INAK (R243). -/
theorem sleepEnter_msr (s : State) : (sleepEnter s).msr = (s.msr ||| 0x12#32) &&& ~~~1#32 := by
  have split : s.msr ||| 0x12#32 = (s.msr ||| 2#32) ||| 0x10#32 := by rw [BitVec.or_assoc]; rfl
  have kept : 0x10#32 &&& ~~~1#32 = 0x10#32 := by decide
  rw [split, BitVec.and_or_distrib_right, kept]
  rfl

end Sys2Proof.Machine

/-- Settles O42: each condition is that of `enabled`, bit by bit, and each effect writes its bits of MSR or MCR. -/
theorem modeEvents : Obligations.ModeEvents := by
  refine fun s => ⟨fire_eq_ite ?_, fire_eq_ite ?_, fire_eq_ite ?_, ?_, fire_eq_ite Iff.rfl⟩
  · simp [enabled]
  · simp [enabled, and_assoc]
  · simp [enabled, and_assoc]
  · rw [← sleepEnter_msr]
    exact fire_eq_ite (by simp [enabled, and_assoc])
end

section
/-! PROOF. When a transmission can complete (O44). -/

open Sys2Proof Sys2Proof.Machine

namespace Sys2Proof.Machine

/-- The controller is active when it acknowledges neither initialization nor sleep (R37). -/
theorem mode_active_iff (s : State) : s.mode = .active ↔ s.inak = false ∧ s.slak = false := by
  unfold State.mode
  cases s.inak <;> cases s.slak <;> decide

/-- The operating mode is silent without loopback (R248). -/
theorem silentOnly_iff (s : State) : s.silentOnly = true ↔ s.silm = true ∧ s.lbkm = false := by
  simp [State.silentOnly]

/-- A transmission may fail only without retries and in normal mode (R246). -/
theorem outcomeAllowed_iff (ok : Bool) (s : State) :
    outcomeAllowed ok s = true ↔ ok = true ∨ (s.nart = true ∧ s.lbkm = false ∧ s.silm = false) := by
  simp [outcomeAllowed, and_assoc]

end Sys2Proof.Machine

/-- Settles O44: the condition of the event, part by part. -/
theorem txDoneEnabledExactly : Obligations.TxDoneEnabledExactly := by
  intro i ok s
  rw [← outcomeAllowed_iff, ← silentOnly_iff, ← and_assoc (a := s.inak = false), ← mode_active_iff]
  simp [enabled, and_assoc]
end

section
/-! PROOF. The end of a request: the flags of its mailbox and those of the others, after an abort and after a completed
transmission (O45, O43). -/

open Sys2Proof Sys2Proof.Machine

namespace Sys2Proof.Machine

/-- The flags of mailbox `i` in TSR after a request of it has ended (R245, R247). -/
theorem requestEnded_flags (i : Fin 3) (a b c : Bool) (s : State) :
    (requestEnded i a b c s).tme i = true ∧ (requestEnded i a b c s).rqcp i = true ∧
    (requestEnded i a b c s).txok i = a ∧ (requestEnded i a b c s).alst i = b ∧ (requestEnded i a b c s).terr i = c ∧
    (requestEnded i a b c s).abrq i = false := by
  refine ⟨?_, ?_, ?_, ?_, ?_, ?_⟩
  · rw [requestEnded_tme, if_pos rfl]
  · simp [State.rqcp, requestEnded_bit]
  · simp [State.txok, requestEnded_bit]
  · simp [State.alst, requestEnded_bit]
  · simp [State.terr, requestEnded_bit]
  · rw [requestEnded_abrq, if_pos rfl]

theorem clearTxrq_tir (i : Fin 3) (s : State) :
    ((clearTxrq i s).mailbox i).tir = (s.mailbox i).tir.patch 1#32 0#32 := by
  rw [clearTxrq_mailbox, if_pos rfl]

/-- What leaves the bits outside the flags of mailbox `i` leaves the flags of every other mailbox (R38). -/
theorem tsrOutside_other {i j : Fin 3} {s t : State} (h : TsrOutside i t.tsr s.tsr) (hj : j ≠ i) :
    t.tme j = s.tme j ∧ t.rqcp j = s.rqcp j ∧ t.txok j = s.txok j ∧ t.alst j = s.alst j ∧ t.terr j = s.terr j ∧
      t.abrq j = s.abrq j := by
  have ne : j.val ≠ i.val := fun e => hj (Fin.ext e)
  refine ⟨h _ ?_ ?_ ?_, h _ ?_ ?_ ?_, h _ ?_ ?_ ?_, h _ ?_ ?_ ?_, h _ ?_ ?_ ?_, h _ ?_ ?_ ?_⟩ <;> omega

end Sys2Proof.Machine

/-- Settles O45: the request ends without a result, and nothing beside its mailbox and its flags changes. -/
theorem txAbortFreesTheMailbox : Obligations.TxAbortFreesTheMailbox := by
  intro i s
  have fired : fire (.txAbort i) s = if s.abrq i = true ∧ s.tme i = false then txAbort i s else s :=
    fire_eq_ite (by simp [enabled])
  refine ⟨fun requested => ?_, fun idle => fired.trans (if_neg idle)⟩
  rw [fired, if_pos requested]
  obtain ⟨-, flags, others⟩ := txAbort_frame i s
  obtain ⟨tme, rqcp, txok, alst, terr, abrq⟩ := requestEnded_flags i false false false (clearTxrq i s)
  have txrq : bit ((txAbort i s).mailbox i).tir.val 0 = false := by
    show bit ((clearTxrq i s).mailbox i).tir.val 0 = false
    rw [clearTxrq_tir]
    exact (patch_txrq _).1
  refine ⟨tme, rqcp, txok, alst, terr, abrq, txrq, rfl, fun j hj => ?_⟩
  obtain ⟨tme, rqcp, -⟩ := tsrOutside_other flags hj
  exact ⟨others j hj, tme, rqcp⟩
end

section
/-! PROOF. A completed transmission: the flags and the registers of its mailbox, the offer it ends in, and the frame read
from a mailbox with its time stamp (O43). -/

open Sys2Proof Sys2Proof.Machine

namespace Sys2Proof.Machine

/-! ### The mailbox -/

/-- The high half of a word whose high half is replaced (R44). -/
theorem merge_high_shiftRight (old : Word) {v : Word} (h : v.toNat < 2 ^ 16) :
    merge old (v <<< 16) 0xFFFF0000#32 >>> 16 = v := by
  have cleared : (old &&& ~~~0xFFFF0000#32) >>> 16 = 0#32 := by
    have none : ~~~0xFFFF0000#32 >>> 16 = (0#32 : Word) := by decide
    rw [BitVec.ushiftRight_and_distrib, none, BitVec.and_zero]
  rw [merge, shiftLeft_and_highHalf v (by decide), BitVec.or_comm]
  exact shiftLeft_or_shiftRight h cleared

theorem or_high_shiftRight (v : Word) : (v ||| 0xFFFF0000#32) >>> 16 = 0xFFFF#32 := by
  have high : 0xFFFF0000#32 >>> 16 = (0xFFFF#32 : Word) := by decide
  refine word_ext fun j _ => ?_
  rw [BitVec.ushiftRight_or_distrib, high, bit_or, bit_shiftRight]
  by_cases low : j < 16
  · have set : ∀ j < 16, bit 0xFFFF#32 j = true := by decide
    rw [set j low, Bool.or_true]
  · rw [bit_of_ge v (by omega), Bool.false_or]

/-- A time stamp as a word (R59). -/
theorem timeWord_toNat (t : BitVec 16) : (t.zeroExtend 32).toNat = t.toNat := BitVec.toNat_setWidth_of_le (by decide)

/-- TDTiR.TIME holds the captured time stamp (R245). -/
theorem stampTime_time (i : Fin 3) (s : State) :
    ((stampTime i s).mailbox i).tdtr.val >>> 16 = s.timeStamp.zeroExtend 32 ∧
      ((stampTime i s).mailbox i).tdtr.known >>> 16 = 0xFFFF#32 := by
  have narrow : (s.timeStamp.zeroExtend 32).toNat < 2 ^ 16 := (timeWord_toNat s.timeStamp).trans_lt s.timeStamp.isLt
  rw [stampTime, setMailbox_mailbox_self]
  exact ⟨merge_high_shiftRight _ narrow, or_high_shiftRight _⟩

theorem stampTime_tir (i : Fin 3) (s : State) : ((stampTime i s).mailbox i).tir = (s.mailbox i).tir := by
  rw [stampTime, setMailbox_mailbox_self]

/-- The registers of a mailbox after a transmission ended at time `ts`: TXRQ is 0 and TIME is `ts`, both held (R245). -/
def SentRegisters (ts : BitVec 16) (mb : Mailbox) : Prop :=
  bit mb.tir.val 0 = false ∧ bit mb.tir.known 0 = true ∧ mb.tdtr.val >>> 16 = ts.zeroExtend 32 ∧
  mb.tdtr.known >>> 16 = 0xFFFF#32

theorem ended_registers (i : Fin 3) (a b c : Bool) (s : State) :
    SentRegisters s.timeStamp ((stampTime i (requestEnded i a b c (clearTxrq i s))).mailbox i) := by
  obtain ⟨time, held⟩ := stampTime_time i (requestEnded i a b c (clearTxrq i s))
  have tir : ((stampTime i (requestEnded i a b c (clearTxrq i s))).mailbox i).tir = (s.mailbox i).tir.patch 1#32 0#32 :=
    (stampTime_tir ..).trans (clearTxrq_tir i s)
  obtain ⟨txrq, known⟩ := patch_txrq (s.mailbox i).tir
  refine ⟨?_, ?_, time, held⟩
  · rw [tir]; exact txrq
  · rw [tir]; exact known

theorem transmitted_registers (i : Fin 3) (ok : Bool) (s : State) :
    SentRegisters (transmitted i ok s).2.timeStamp ((transmitted i ok s).2.mailbox i) := by
  obtain ⟨a, b, t, tape, n, h⟩ := transmitted_eq i ok s
  rw [h]
  exact ended_registers i ok a b { s with timeStamp := t, drawTape := tape, drawCount := n }

/-- The flags of the mailbox after a transmission: its outcome, and on failure one of ALST and TERR (R245). -/
def OutcomeFlags (i : Fin 3) (ok : Bool) (t : State) : Prop :=
  t.tme i = true ∧ t.rqcp i = true ∧ t.txok i = ok ∧ t.abrq i = false ∧
  (ok = true → t.alst i = false ∧ t.terr i = false) ∧ (ok = false → t.alst i = !t.terr i)

theorem transmitted_flags (i : Fin 3) (ok : Bool) (s : State) : OutcomeFlags i ok (transmitted i ok s).2 := by
  let loss := drawLoss ok (frameOfMailbox i (captureTime s)).2
  obtain ⟨tme, rqcp, txok, alst, terr, abrq⟩ := requestEnded_flags i ok loss.1.1 loss.1.2 (clearTxrq i loss.2)
  obtain ⟨success, failure⟩ := drawLoss_flags ok (frameOfMailbox i (captureTime s)).2
  refine ⟨tme, rqcp, txok, abrq, fun h => ?_, fun h => ?_⟩
  · exact ⟨alst.trans (congrArg Prod.fst (success h)), terr.trans (congrArg Prod.snd (success h))⟩
  · exact alst.trans ((failure h).trans (congrArg not terr.symm))

/-! ### The offer -/

/-- Behind the mailbox's completion a transmission changes FIFOs and what is left to draw, at most (R245, R252). -/
theorem txDone_eq (i : Fin 3) (ok : Bool) (s : State) : ∃ fifos tape n,
    txDone i ok s = { (transmitted i ok s).2 with fifos := fifos, drawTape := tape, drawCount := n } := by
  rcases txDone_cases i ok s with h | ⟨fr, t, h⟩
  · exact ⟨_, _, _, h⟩
  · exact ⟨_, _, _, h.trans (offer_frame ..)⟩

/-- In a loopback mode a success offers the frame with its time stamp, and nothing else is offered (R245). -/
theorem txDone_eq_ite (i : Fin 3) (ok : Bool) (s : State) : txDone i ok s = if ok = true ∧ s.lbkm = true
    then offer (transmitted i ok s).1 (transmitted i ok s).2.timeStamp (transmitted i ok s).2 else (transmitted i ok s).2 :=
  if_congr (by rw [transmitted_lbkm, Bool.and_eq_true]) rfl rfl

/-- The word on the tape is captured as the time stamp (R59). -/
theorem captureTime_of_tape (t : BitVec 16) (s : State) :
    captureTime { s with drawTape := t.zeroExtend 32 :: s.drawTape } = { s with timeStamp := t } := by
  have stamp : (t.zeroExtend 32).setWidth 16 = t := by simp
  exact congrArg (fun x => ({ s with timeStamp := x } : State)) stamp

/-! ### The frame of a mailbox -/

/-- Whether the time stamp goes into the payload (R249). -/
def stamped (ttcm : Bool) (tdt : Word) : Bool := ttcm && bit tdt 8 && decide (field tdt 3 0 = 8#32)

theorem stamped_iff (ttcm : Bool) (tdt : Word) :
    stamped ttcm tdt = true ↔ ttcm = true ∧ bit tdt 8 = true ∧ tdt.toNat % 16 = 8 := by
  have eight : field tdt 3 0 = 8#32 ↔ tdt.toNat % 16 = 8 := by
    rw [← BitVec.toNat_inj, field_toNat]
    rfl
  rw [stamped, Bool.and_eq_true, Bool.and_eq_true, decide_eq_true_iff, eight, and_assoc]

/-- The high data word with the time stamp in bytes 6 and 7 (R249). -/
def stampHigh (t : BitVec 16) (hi : Word) : Word :=
  merge hi ((field (t.zeroExtend 32) 7 0 <<< 24) ||| (field (t.zeroExtend 32) 15 8 <<< 16)) 0xFFFF0000#32

/-- A mailbox whose registers hold values is read without a draw (R249). -/
theorem frameOfMailbox_of {i : Fin 3} {ri tdt lo hi : Word} {s : State}
    (mailbox : s.mailbox i = ⟨.of ri, .of tdt, .of lo, .of hi⟩) : frameOfMailbox i s =
      (⟨bit ri 2, unpackId (bit ri 2) ri, bit ri 1, tdt.setWidth 4, lo,
        if stamped s.ttcm tdt then stampHigh s.timeStamp hi else hi⟩, s) := by
  simp only [frameOfMailbox, mailbox, resolve_of]
  rfl

theorem bit_stampHigh (t : BitVec 16) (hi : Word) {j : Nat} (hj : j < 32) : bit (stampHigh t hi) j =
    if j < 16 then bit hi j else if j < 24 then bit (t.zeroExtend 32) (8 + (j - 16)) else bit (t.zeroExtend 32) (j - 24) := by
  have high : ∀ j < 32, bit 0xFFFF0000#32 j = decide (16 ≤ j) := by decide
  rw [stampHigh, bit_merge, high j hj, bit_or, bit_shiftLeft, bit_shiftLeft, bit_field, bit_field]
  by_cases low : j < 16
  · simp [low]
  · by_cases middle : j < 24
    · simp [low, middle, hj, show 16 ≤ j by omega, show j - 16 < 32 by omega, show j - 16 < 8 by omega]
    · simp [low, middle, hj, show 16 ≤ j by omega, show j - 24 < 32 by omega, show j - 24 < 8 by omega,
        show ¬ j - 16 < 8 by omega]

/-- Bytes of two words are equal when their bits are. -/
theorem byte_congr {v w : Word} {a b : Nat} (h : ∀ j < 8, bit v (a + j) = bit w (b + j)) :
    field v (a + 7) a = field w (b + 7) b := by
  refine word_ext fun j _ => ?_
  rw [bit_field, bit_field]
  by_cases byte : j < 8
  · simp [h j byte, show j < a + 7 + 1 - a by omega, show j < b + 7 + 1 - b by omega]
  · simp [show ¬ j < a + 7 + 1 - a by omega, show ¬ j < b + 7 + 1 - b by omega]

/-- Bytes 4 and 5 stay; byte 6 is the high and byte 7 the low byte of the time stamp (R249). -/
theorem stampHigh_bytes (t : BitVec 16) (lo hi : Word) :
    payloadByte lo (stampHigh t hi) 4 = payloadByte lo hi 4 ∧ payloadByte lo (stampHigh t hi) 5 = payloadByte lo hi 5 ∧
    (payloadByte lo (stampHigh t hi) 6).toNat = t.toNat / 256 ∧
    (payloadByte lo (stampHigh t hi) 7).toNat = t.toNat % 256 := by
  have high : field (stampHigh t hi) 23 16 = field (t.zeroExtend 32) 15 8 := byte_congr fun j hj => by
    rw [bit_stampHigh t hi (by omega), if_neg (by omega), if_pos (by omega), Nat.add_sub_cancel_left]
  have low : field (stampHigh t hi) 31 24 = field (t.zeroExtend 32) 7 0 := byte_congr (b := 0) fun j hj => by
    rw [bit_stampHigh t hi (by omega), if_neg (by omega), if_neg (by omega), Nat.add_sub_cancel_left, Nat.zero_add]
  have narrow := t.isLt
  refine ⟨?_, ?_, ?_, ?_⟩
  · exact byte_congr (a := 0) (b := 0) fun j hj => by rw [bit_stampHigh t hi (by omega), if_pos (by omega)]
  · exact byte_congr (a := 8) (b := 8) fun j hj => by rw [bit_stampHigh t hi (by omega), if_pos (by omega)]
  · show (field (stampHigh t hi) 23 16).toNat = _
    rw [high, field_toNat, timeWord_toNat, Nat.shiftRight_eq_div_pow]
    omega
  · show (field (stampHigh t hi) 31 24).toNat = _
    rw [low, field_toNat, timeWord_toNat]
    rfl

end Sys2Proof.Machine

/-- Settles O43: the mailbox is completed before the offer, which touches neither its registers nor its flags. -/
theorem txDoneReportsCompletion : Obligations.TxDoneReportsCompletion := by
  refine ⟨fun i ok s ready => ?_, fun i ok s ready => ?_, fun i ok ts s => ⟨ts.zeroExtend 32, ?_⟩,
    fun i ri tdt lo hi s mailbox => ?_⟩
  · have fired : fire (.txDone i ok) s = txDone i ok s := if_pos ready
    obtain ⟨-, ⟨flags, others⟩, fifos, -⟩ := txDone_frame i ok s
    obtain ⟨tme, rqcp, txok, abrq, success, failure⟩ := transmitted_flags i ok s
    obtain ⟨txrq, txrqHeld, time, timeHeld⟩ := transmitted_registers i ok s
    rw [fired]
    have other (j : Fin 3) (hj : j ≠ i) := And.intro (others j hj) (tsrOutside_other flags hj)
    obtain ⟨q, tape, n, offered⟩ := txDone_eq i ok s
    rw [offered] at other fifos ⊢
    exact ⟨tme, rqcp, txok, abrq, success, failure, txrq, txrqHeld, time, timeHeld, other, fifos⟩
  · obtain ⟨t, tape, n, captured⟩ := captureTime_eq s
    refine ⟨(transmitted i ok s).2, (frameOfMailbox i (captureTime s)).2, (transmitted i ok s).1, t, tape, n, ?_, rfl, ?_,
      (transmitted_flags i ok s).1, transmitted_fifos i ok s, ?_⟩
    · rw [← captured]
      rfl
    · rw [transmitted_timeStamp, captured]
    · have stamp : (transmitted i ok s).2.timeStamp = t := by rw [transmitted_timeStamp, captured]
      rw [← stamp]
      exact (if_pos ready).trans (txDone_eq_ite i ok s)
  · rw [transmitted_timeStamp, captureTime_of_tape]
  · refine ⟨_, frameOfMailbox_of mailbox, rfl, rfl, unpackId_eq .., BitVec.toNat_setWidth .., rfl, fun timed => ?_,
      fun plain => ?_⟩
    · rw [← stamped_iff] at timed
      simp only [timed, if_true]
      exact stampHigh_bytes s.timeStamp lo hi
    · rw [← stamped_iff] at plain
      exact if_neg plain
end

section
/-! PROOF. What a store does to its FIFO (O48). -/

open Sys2Proof Sys2Proof.Machine

namespace Sys2Proof.Machine

section Store

variable (f : Fin 2) (e : Entry) {s : State}

/-- Below the depth the entry is appended (R253). -/
theorem store_below (room : (s.queue f).length < s.cfg.val.fifoDepth) : (store f e s).fifo f =
    ⟨s.queue f ++ [e], (s.fifo f).full || decide ((s.queue f).length + 1 = s.cfg.val.fifoDepth), (s.fifo f).fovr⟩ := by
  rw [store, if_pos (show (s.fifo f).queue.length < _ from room), setFifo_fifo_self]
  rfl

/-- At the depth the new entry is discarded or replaces the newest, and FOVR is set (R253). -/
theorem store_overrun (full : s.cfg.val.fifoDepth ≤ (s.queue f).length) : (store f e s).fifo f =
    ⟨if s.rflm then s.queue f else (s.queue f).dropLast ++ [e], (s.fifo f).full, true⟩ := by
  rw [store, if_neg (show ¬ (s.fifo f).queue.length < _ from Nat.not_lt.2 full)]
  split
  · rw [setFifo_fifo_self]; rfl
  · rw [setFifo_fifo_self]; rfl

end Store

theorem store_frame (f : Fin 2) (e : Entry) (s : State) : store f e s = { s with fifos := (store f e s).fifos } := by
  obtain ⟨q, h⟩ := store_eq f e s
  rw [h]
  rfl

end Sys2Proof.Machine

/-- Settles O48: the FIFO after a store, below its depth and at it. -/
theorem storeAppendsOrOverruns : Obligations.StoreAppendsOrOverruns := by
  intro f e s
  refine ⟨fun room => ?_, fun full => ?_, fun _ _ head => store_head head e, fun _ other => store_other other e s,
    store_frame f e s⟩
  · rw [State.queue, store_below f e room]
    exact ⟨rfl, rfl, rfl⟩
  · rw [State.queue, store_overrun f e full]
    exact ⟨rfl, rfl, rfl⟩
end

section
/-! PROOF. When an arriving frame is offered, and what an offered frame is stored as (O47). -/

open Sys2Proof Sys2Proof.Machine

namespace Sys2Proof.Machine

/-! ### Suspension -/

/-- In filter-initialization mode an offered frame is lost (R251). -/
theorem offer_suspended {s : State} (h : s.finit = true) (f : Frame) (t : BitVec 16) : offer f t s = s := if_pos h

theorem rxFrame_suspended {s : State} (h : s.finit = true) (f : Frame) : (rxFrame f s).fifos = s.fifos := by
  obtain ⟨t, tape, n, arrival⟩ := rxFrame_eq f s
  have suspended : ({ s with timeStamp := t, drawTape := tape, drawCount := n } : State).finit = true := h
  rw [arrival, offer_suspended suspended]

theorem txDone_suspended {s : State} (h : s.finit = true) (i : Fin 3) (ok : Bool) : (txDone i ok s).fifos = s.fifos := by
  have suspended : (transmitted i ok s).2.finit = true := by
    rw [transmitted_traffic i ok s]
    exact h
  rcases txDone_cases i ok s with done | ⟨fr, t, done⟩
  · rw [done, transmitted_fifos]
  · rw [done, offer_suspended suspended, transmitted_fifos]

/-- A frame arrives only in active mode and outside the loopback modes (R251). -/
theorem enabled_rxFrame_iff (f : Frame) (s : State) : enabled (.rxFrame f) s = true ↔
    (s.inak = false ∧ s.slak = false) ∧ s.lbkm = false ∧ idFits f.ide f.id = true := by
  rw [← mode_active_iff]
  simp [enabled, Frame.wellFormed, and_assoc]

/-- An arrival takes its time stamp from the tape (R59, R252). -/
theorem rxFrame_of_tape (f : Frame) (t : BitVec 16) (s : State) :
    rxFrame f { s with drawTape := t.zeroExtend 32 :: s.drawTape } = offer f t { s with timeStamp := t } := by
  rw [rxFrame, captureTime_of_tape]

/-! ### What is stored -/

theorem offer_discarded {f : Frame} {s : State} (ready : s.finit = false) (discarded : (accept f s).1 = none)
    (t : BitVec 16) : offer f t s = (accept f s).2 := by
  rw [offer, if_neg (by simp [ready])]
  simp only [discarded]

theorem offer_accepted {f : Frame} {s : State} {q : Fin 2} {index : Nat} (ready : s.finit = false)
    (accepted : (accept f s).1 = some (q, index)) (t : BitVec 16) :
    offer f t s = store q (entryOf f t index) (accept f s).2 := by
  rw [offer, if_neg (by simp [ready])]
  simp only [accepted]

/-- The number of payload bytes a frame carries (R260, R261). -/
def carried (f : Frame) : Nat := if f.rtr then 0 else min f.dlc.toNat 8

theorem lt_carried_iff (f : Frame) {k : Nat} (hk : k < 8) : k < carried f ↔ f.rtr = false ∧ k < f.dlc.toNat := by
  unfold carried
  cases f.rtr with
  | true => simp
  | false => simp [hk]

/-- A data lane holds a value exactly when the frame carries its byte, and then that byte (R260, R261). -/
theorem storedData_byte (f : Frame) {k : Nat} (hk : k < 8) :
    payloadByte (storedData f).1.known (storedData f).2.known k = (if k < carried f then 0xFF#32 else 0#32) ∧
    payloadByte (storedData f).1.val (storedData f).2.val k = (if k < carried f then payloadByte f.lo f.hi k else 0#32) := by
  have short : carried f ≤ 8 := by
    unfold carried
    split
    · exact Nat.zero_le 8
    · exact Nat.min_le_right ..
  have ones : ∀ k < 8, payloadByte (BitVec.allOnes 32) (BitVec.allOnes 32) k = 0xFF#32 := by decide
  have lanes := payloadMasksKeepBytesBelowLength (BitVec.allOnes 32) (BitVec.allOnes 32) (carried f) k short hk
  rw [BitVec.allOnes_and, BitVec.allOnes_and, ones k hk] at lanes
  exact ⟨lanes, payloadMasksKeepBytesBelowLength f.lo f.hi (carried f) k short hk⟩

end Sys2Proof.Machine

/-- Settles O47: an arrival is an offer when it is enabled, and an offer stores the entry of the frame when a filter accepts
it. -/
theorem receptionStoresOrSuspends : Obligations.ReceptionStoresOrSuspends := by
  intro f s
  have arrives {u : State} (inak : u.inak = false) (slak : u.slak = false) (lbkm : u.lbkm = false)
      (fits : idFits f.ide f.id = true) : fire (.rxFrame f) u = rxFrame f u :=
    if_pos ((enabled_rxFrame_iff f u).2 ⟨⟨inak, slak⟩, lbkm, fits⟩)
  refine ⟨fun suspended => ?_, fun suspended i ok => ?_, fun closed => ?_, fun inak slak lbkm fits => ?_,
    fun inak slak lbkm fits t => ⟨t.zeroExtend 32, ?_⟩, fun t ready discarded => ?_, fun t q index ready accepted => ?_⟩
  · exact fire_of (fun t => t.fifos = s.fifos) rfl fun _ => rxFrame_suspended suspended f
  · exact fire_of (fun t => t.fifos = s.fifos) rfl fun _ => txDone_suspended suspended i ok
  · refine if_neg fun arrived => ?_
    obtain ⟨⟨inak, slak⟩, lbkm, -⟩ := (enabled_rxFrame_iff f s).1 arrived
    simp [inak, slak, lbkm] at closed
  · rw [arrives inak slak lbkm fits]
    exact rxFrame_eq f s
  · rw [← rxFrame_of_tape]
    exact arrives inak slak lbkm fits
  · rw [offer_discarded ready discarded]
    exact accept_frame f s
  · obtain ⟨tape, n, drawn⟩ := accept_frame f s
    refine ⟨entryOf f t index, tape, n, drawn ▸ offer_accepted ready accepted t, rfl, rfl, fun k hk => ?_⟩
    obtain ⟨known, value⟩ := storedData_byte f hk
    rw [← lt_carried_iff f hk]
    exact ⟨fun inside => ⟨known.trans (if_pos inside), value.trans (if_pos inside)⟩,
      fun outside => known.trans (if_neg outside)⟩
end

section
/-! PROOF. The two numberings of the filters, and that both follow the order of the banks (O51). -/

open Sys2Proof Sys2Proof.Machine

namespace Sys2Proof.Machine

/-- The number of filters of FIFO `f` in the banks before `b` (R262). -/
def filtersBefore (s : State) (f : Fin 2) (b : Nat) : Nat :=
  (((List.range b).filter (fun b' => decide (s.ffa b' = f))).map (fun b' => filterCount (s.fsc b') (s.fbm b'))).sum

section Numbering

variable {s : State} {f : Fin 2} {b b' p p' : Nat}

theorem fmi_bank (h : s.cfg.val.fmiNumbering = .bank) : fmi s f b p = b := by
  simp only [fmi, h]

theorem fmi_filter (h : s.cfg.val.fmiNumbering = .filter) : fmi s f b p = filtersBefore s f b + p := by
  simp only [fmi, h, filtersBefore]

theorem filtersBefore_succ_of_eq (h : s.ffa b = f) :
    filtersBefore s f (b + 1) = filtersBefore s f b + filterCount (s.fsc b) (s.fbm b) := by
  simp [filtersBefore, List.range_succ, h]

theorem filtersBefore_succ_of_ne (h : s.ffa b ≠ f) : filtersBefore s f (b + 1) = filtersBefore s f b := by
  simp [filtersBefore, List.range_succ, h]

theorem filtersBefore_mono (s : State) (f : Fin 2) : Monotone (filtersBefore s f) :=
  monotone_nat_of_le_succ fun b => by
    by_cases h : s.ffa b = f
    · rw [filtersBefore_succ_of_eq h]
      exact Nat.le_add_right ..
    · rw [filtersBefore_succ_of_ne h]

/-- Banks of the other FIFO do not count. -/
theorem filtersBefore_gap (le : b ≤ b') (other : ∀ c, b ≤ c → c < b' → s.ffa c ≠ f) :
    filtersBefore s f b' = filtersBefore s f b := by
  induction b', le using Nat.le_induction with
  | base => rfl
  | succ c le ih =>
    rw [filtersBefore_succ_of_ne (other c le (Nat.lt_succ_self c))]
    exact ih fun d hb hd => other d hb (hd.trans (Nat.lt_succ_self c))

/-- The filters of an earlier bank of the FIFO come before those of a later one (R262). -/
theorem filtersBefore_add_lt (h : s.ffa b = f) (hp : p < filterCount (s.fsc b) (s.fbm b)) (lt : b < b') :
    filtersBefore s f b + p < filtersBefore s f b' :=
  calc filtersBefore s f b + p < filtersBefore s f b + filterCount (s.fsc b) (s.fbm b) := Nat.add_lt_add_left hp _
    _ = filtersBefore s f (b + 1) := (filtersBefore_succ_of_eq h).symm
    _ ≤ filtersBefore s f b' := filtersBefore_mono s f lt

/-- The filter numbering follows bank, then position (R258, R262). -/
theorem fmi_filter_lt (filter : s.cfg.val.fmiNumbering = .filter) (h : s.ffa b = f)
    (hp : p < filterCount (s.fsc b) (s.fbm b)) (before : b < b' ∨ (b = b' ∧ p < p')) : fmi s f b p < fmi s f b' p' := by
  rw [fmi_filter filter, fmi_filter filter]
  rcases before with lt | ⟨rfl, lt⟩
  · exact (filtersBefore_add_lt h hp lt).trans_le (Nat.le_add_right ..)
  · exact Nat.add_lt_add_left lt _

end Numbering

theorem filterCount_eq (fsc fbm : Bool) :
    filterCount fsc fbm = if fsc then (if fbm then 2 else 1) else (if fbm then 4 else 2) := by
  cases fsc <;> cases fbm <;> rfl

end Sys2Proof.Machine

/-- Settles O51: the filter numbering is the number of filters in the banks before and the position, which grows with both. -/
theorem filterMatchIndexNumbersFilters : Obligations.FilterMatchIndexNumbersFilters := by
  intro s f b p hb hp
  refine ⟨?_, fmi_bank, fun filter => ?_, fun filter first => ?_, fun filter own b' lt other => ?_,
    fun b' p' own _ before => ⟨?_, fun filter => fmi_filter_lt filter own hp before⟩⟩
  · obtain ⟨-, -, ⟨-, banks⟩, -⟩ := s.cfg.property
    have position := filterCount_le (s.fsc b) (s.fbm b)
    have le := fmi_le s f b p
    omega
  · rw [fmi_filter filter, fmi_filter filter, Nat.add_zero]
  · have none : filtersBefore s f b = 0 := filtersBefore_gap (Nat.zero_le b) fun c _ hc => first c hc
    rw [fmi_filter filter, none, Nat.zero_add]
  · rw [fmi_filter filter, fmi_filter filter, ← filterCount_eq, Nat.add_zero, Nat.add_zero, ← filtersBefore_succ_of_eq own]
    exact filtersBefore_gap lt other
  · cases numbering : s.cfg.val.fmiNumbering with
    | bank =>
      rw [fmi_bank numbering, fmi_bank numbering]
      omega
    | filter => exact (fmi_filter_lt numbering own hp before).le
end

section
/-! PROOF. Which filter accepts a frame: the filters that match as a list in order of bank and position, those of the greatest
class among them, and the first of these for the FIFO chosen (O49). -/

open Sys2Proof Sys2Proof.Machine

namespace Sys2Proof.Machine

/-! ### The matcher's banks -/

/-- A bank as the matcher sees it when its registers hold values. -/
def storedBank (s : State) (b : Fin 28) : MatchBank :=
  ⟨b.val, s.fsc b.val, s.fbm b.val, s.ffa b.val, (s.bank b).fr1.val, (s.bank b).fr2.val⟩

/-- The registers of every active bank hold values (R60). -/
def BanksWritten (s : State) : Prop :=
  ∀ b : Fin 28, s.fact b.val = true →
    (s.bank b).fr1.known = BitVec.allOnes 32 ∧ (s.bank b).fr2.known = BitVec.allOnes 32

/-- The active banks below `FB_COUNT`, in order. -/
def activeIndices (s : State) : List (Fin 28) := (List.finRange 28).filter fun b => s.hasBank b.val && s.fact b.val

theorem mem_activeIndices {s : State} {b : Fin 28} :
    b ∈ activeIndices s ↔ b.val < s.cfg.val.fbCount ∧ s.fact b.val = true := by
  simp [activeIndices, State.hasBank]

/-- Banks whose registers hold values are read without a draw (R256). -/
theorem activeBanks_written {s : State} (written : BanksWritten s) (l : List (Fin 28)) :
    activeBanks l s = ((l.filter fun b => s.hasBank b.val && s.fact b.val).map (storedBank s), s) := by
  induction l with
  | nil => rfl
  | cons b rest ih =>
    rw [activeBanks]
    split
    · next active =>
      obtain ⟨fr1, fr2⟩ := written b (Bool.and_eq_true _ _ ▸ active).2
      simp only [resolve_of_known fr1, resolve_of_known fr2, ih, List.filter_cons, if_pos active]
      rfl
    · next inactive => rw [ih, List.filter_cons, if_neg inactive]

/-! ### The filters that match -/

/-- The hit of the filter at position `p` of bank `b` (R256, R258). -/
def hitOf (s : State) (b : Fin 28) (p : Nat) : Hit := ⟨b.val, p, s.ffa b.val, classRank (s.fsc b.val) (s.fbm b.val)⟩

/-- The filters that match a frame, in order of bank and position. -/
def matching (s : State) (f : Frame) : List Hit := (activeIndices s).flatMap fun b => (storedBank s b).hits f

theorem mem_hits_storedBank {s : State} {f : Frame} {b : Fin 28} {x : Hit} : x ∈ (storedBank s b).hits f ↔
    ∃ p, ((storedBank s b).conditions f)[p]? = some true ∧ x = hitOf s b p := by
  unfold MatchBank.hits
  rw [List.mem_filterMap]
  constructor
  · rintro ⟨⟨c, p⟩, hc, hit⟩
    cases c with
    | false => cases hit
    | true => exact ⟨p, List.mem_zipIdx_iff_getElem?.1 hc, (Option.some_inj.1 hit).symm⟩
  · rintro ⟨p, holds, rfl⟩
    exact ⟨(true, p), List.mem_zipIdx_iff_getElem?.2 holds, rfl⟩

theorem mem_matching {s : State} {f : Frame} {x : Hit} :
    x ∈ matching s f ↔ ∃ b p, FilterMatches s f b p ∧ x = hitOf s b p := by
  simp only [matching, List.mem_flatMap, mem_activeIndices, mem_hits_storedBank]
  constructor
  · rintro ⟨b, ⟨present, active⟩, p, holds, rfl⟩
    exact ⟨b, p, ⟨present, active, holds⟩, rfl⟩
  · rintro ⟨b, p, ⟨present, active, holds⟩, rfl⟩
    exact ⟨b, ⟨present, active⟩, p, holds, rfl⟩

/-- The order of R258: by bank, then by position. -/
def HitBefore (x y : Hit) : Prop := x.bank < y.bank ∨ (x.bank = y.bank ∧ x.position < y.position)

theorem zipIdx_pairwise {α : Type} (l : List α) : l.zipIdx.Pairwise fun x y => x.2 < y.2 := by
  rw [← List.pairwise_map (f := Prod.snd) (R := (· < ·)), List.zipIdx_map_snd]
  exact List.pairwise_lt_range'

theorem hits_pairwise (b : MatchBank) (f : Frame) : (b.hits f).Pairwise HitBefore := by
  unfold MatchBank.hits
  refine List.pairwise_filterMap.2 ((zipIdx_pairwise _).imp fun {x y} lt u hu v hv => ?_)
  split at hu
  · cases hu
    split at hv
    · cases hv
      exact .inr ⟨rfl, lt⟩
    · cases hv
  · cases hu

theorem matching_pairwise (s : State) (f : Frame) : (matching s f).Pairwise HitBefore := by
  refine List.pairwise_flatMap.2 ⟨fun b _ => hits_pairwise _ f, ?_⟩
  refine ((List.pairwise_lt_finRange 28).filter _).imp fun {b c} lt x hx y hy => .inl ?_
  rw [(mem_hits hx).1, (mem_hits hy).1]
  exact lt

/-! ### The selection -/

theorem mem_bestClass {hits : List Hit} {x : Hit} : x ∈ bestClass hits ↔ x ∈ hits ∧ ∀ y ∈ hits, y.rank ≤ x.rank := by
  simp [bestClass]

/-- What a search finds comes before everything else it could have found. -/
theorem find?_first {α : Type} {R : α → α → Prop} {l : List α} {P : α → Bool} {x y : α} (sorted : l.Pairwise R)
    (found : l.find? P = some x) (hy : y ∈ l) (holds : P y = true) : y = x ∨ R x y := by
  obtain ⟨-, before, after, rfl, failed⟩ := List.find?_eq_some_iff_append.1 found
  rcases List.mem_append.1 hy with hy | hy
  · have fails := failed y hy
    rw [holds] at fails
    cases fails
  · rcases List.mem_cons.1 hy with rfl | hy
    · exact .inl rfl
    · exact .inr ((List.pairwise_cons.1 (List.pairwise_append.1 sorted).2.1).1 y hy)

/-- The FIFO the frame goes to, when a filter accepts it (R258). -/
def chosenFifo (f : Frame) (s : State) : Fin 2 := (chooseFifo (bestClass (matching s f)) s).1

/-- The first filter of the greatest class for the FIFO chosen (R258, R259). -/
def selected (f : Frame) (s : State) : Option Hit :=
  (bestClass (matching s f)).find? fun x => decide (x.ffa = chosenFifo f s)

theorem accept_written {s : State} (written : BanksWritten s) (f : Frame) : (accept f s).1 =
    (selected f s).map fun x => (chosenFifo f s, fmi s (chosenFifo f s) x.bank x.position) := by
  have hits : ((activeBanks (List.finRange 28) s).1.flatMap fun b => b.hits f) = matching s f := by
    rw [activeBanks_written written, List.flatMap_map]
    rfl
  have drawn : (activeBanks (List.finRange 28) s).2 = s := by rw [activeBanks_written written]
  unfold accept selected chosenFifo
  simp only [hits, drawn]
  split
  · next none => rw [none]; rfl
  · next some =>
    rw [some]
    split
    · next found => rw [found]; rfl
    · next missing => rw [missing]; rfl

/-- Whenever a filter matches, the FIFO chosen has a filter of the greatest class. -/
theorem selected_eq_none_iff {f : Frame} {s : State} : selected f s = none ↔ matching s f = [] := by
  constructor
  · intro none
    by_contra some
    obtain ⟨x, hx, ffa⟩ := exists_mem_chooseFifo (bestClass_ne_nil some) s
    exact absurd (decide_eq_true ffa) (List.find?_eq_none.1 none x hx)
  · intro none
    rw [selected, none]
    rfl

/-- When the class reaches both FIFOs, a draw can choose either (R258). -/
theorem chooseFifo_of_tape {c : List Hit} {x : Hit} (hx : x ∈ c) (s : State) :
    (chooseFifo c { s with drawTape := BitVec.ofNat 32 x.ffa.val :: s.drawTape }).1 = x.ffa := by
  have drawn : ∀ q : Fin 2, (drawIn (0 : Fin 2) [1] { s with drawTape := BitVec.ofNat 32 q.val :: s.drawTape }).1 = q := by
    intro q
    simp only [drawIn, draw]
    revert q
    decide
  unfold chooseFifo
  split
  · next all0 => exact (of_decide_eq_true (List.all_eq_true.1 all0 x hx)).symm
  split
  · next all1 => exact (of_decide_eq_true (List.all_eq_true.1 all1 x hx)).symm
  · exact drawn x.ffa

/-- The class order is the order of the ranks (R258). -/
theorem classAtMost_iff (fsc' fbm' fsc fbm : Bool) :
    ClassAtMost fsc' fbm' fsc fbm ↔ classRank fsc' fbm' ≤ classRank fsc fbm := by
  unfold ClassAtMost
  revert fsc' fbm' fsc fbm
  decide

/-- The filters of the greatest class, by bank and position. -/
theorem mem_bestClass_matching {s : State} {f : Frame} {x : Hit} : x ∈ bestClass (matching s f) ↔
    ∃ b p, FilterMatches s f b p ∧ x = hitOf s b p ∧ ∀ b' p', FilterMatches s f b' p' →
      ClassAtMost (s.fsc b'.val) (s.fbm b'.val) (s.fsc b.val) (s.fbm b.val) := by
  simp only [classAtMost_iff, mem_bestClass, mem_matching]
  constructor
  · rintro ⟨⟨b, p, hit, rfl⟩, greatest⟩
    exact ⟨b, p, hit, rfl, fun b' p' hit' => greatest _ ⟨b', p', hit', rfl⟩⟩
  · rintro ⟨b, p, hit, rfl, greatest⟩
    refine ⟨⟨b, p, hit, rfl⟩, ?_⟩
    rintro _ ⟨b', p', hit', rfl⟩
    exact greatest b' p' hit'

theorem selected_ffa {f : Frame} {s : State} {x : Hit} (found : selected f s = some x) : x.ffa = chosenFifo f s :=
  of_decide_eq_true (List.find?_some (p := fun x : Hit => decide (x.ffa = chosenFifo f s)) found)

/-- A frame is accepted for the FIFO chosen when a filter of the greatest class feeds it. -/
theorem exists_accept {f : Frame} {s : State} {x : Hit} (written : BanksWritten s) (best : x ∈ bestClass (matching s f))
    (chosen : chosenFifo f s = x.ffa) : ∃ index, (accept f s).1 = some (x.ffa, index) := by
  have some : selected f s ≠ none := fun none =>
    List.ne_nil_of_mem (mem_bestClass.1 best).1 (selected_eq_none_iff.1 none)
  obtain ⟨y, found⟩ := Option.ne_none_iff_exists'.1 some
  refine ⟨fmi s x.ffa y.bank y.position, ?_⟩
  rw [accept_written written, found, chosen]
  rfl

/-- The selected filter is the first of its class and FIFO (R258). -/
theorem selected_first {f : Frame} {s : State} {b b' : Fin 28} {p p' : Nat} (found : selected f s = some (hitOf s b p))
    (hit : hitOf s b' p' ∈ bestClass (matching s f)) (ffa : s.ffa b'.val = chosenFifo f s) :
    b.val < b'.val ∨ (b = b' ∧ p ≤ p') := by
  rcases find?_first ((matching_pairwise s f).filter _) found hit (decide_eq_true ffa) with same | before | ⟨bank, position⟩
  · exact .inr ⟨Fin.ext (congrArg Hit.bank same).symm, (congrArg Hit.position same).ge⟩
  · exact .inl before
  · exact .inr ⟨Fin.ext bank, Nat.le_of_lt position⟩

end Sys2Proof.Machine

/-- Settles O49: `accept` searches the filters of the greatest class that matches, in order of bank and position. -/
theorem acceptanceFollowsClassAndOrder : Obligations.AcceptanceFollowsClassAndOrder := by
  intro f s written
  refine ⟨?_, fun q index accepted => ?_, fun b p hit greatest => ?_⟩
  · rw [accept_written written, Option.map_eq_none_iff, selected_eq_none_iff, List.eq_nil_iff_forall_not_mem]
    constructor
    · exact fun none b p hit => none _ (mem_matching.2 ⟨b, p, hit, rfl⟩)
    · intro none x hx
      obtain ⟨b, p, hit, -⟩ := mem_matching.1 hx
      exact none b p hit
  · rw [accept_written written] at accepted
    obtain ⟨x, found, same⟩ := Option.map_eq_some_iff.1 accepted
    obtain ⟨rfl, rfl⟩ := Prod.mk.inj same
    obtain ⟨b, p, hit, rfl, greatest⟩ := mem_bestClass_matching.1 (List.mem_of_find?_eq_some found)
    refine ⟨b, p, hit, selected_ffa found, rfl, fun b' p' hit' => ⟨greatest b' p' hit', ?_⟩⟩
    intro fsc fbm ffa
    refine selected_first found (mem_bestClass_matching.2 ⟨b', p', hit', rfl, ?_⟩) ffa
    rw [fsc, fbm]
    exact greatest
  · have best : hitOf s b p ∈ bestClass (matching s f) := mem_bestClass_matching.2 ⟨b, p, hit, rfl, greatest⟩
    exact ⟨BitVec.ofNat 32 (s.ffa b.val).val, exists_accept (s := { s with drawTape := _ :: s.drawTape }) written best
      (chooseFifo_of_tape best s)⟩
end

section
/-! PROOF. No agent adds a move to the agenda, and nothing but a refused access stops the machine (O9). -/

open Sys2Proof Sys2Proof.Machine

namespace Sys2Proof.Machine

/-! ### The moves of the agenda -/

theorem DrawnFrom.agenda {s t : State} (h : DrawnFrom s t) : t.agenda = s.agenda := by
  obtain ⟨_, _, rfl⟩ := h
  rfl

/-- No register write schedules a move. -/
theorem writeReg_agenda (r : Reg) (v : Word) (s : State) : (writeReg r v s).agenda = s.agenda := by
  cases r with
  | mcr => simp only [writeReg, writeMcr]; split <;> rfl
  | rfr f => simp only [writeReg, writeRfr]; split <;> rfl
  | tir i => exact (congrArg State.agenda (tx_tir_frame i v s).1.1 :)
  | btr | tdtr | tdlr | tdhr | fm1r | fs1r | ffa1r | fr1 | fr2 => simp only [writeReg]; split <;> rfl
  | msr | tsr | ier | esr | rir | rdtr | rdlr | rdhr | fmr | fa1r => rfl

theorem hostAct_agenda {a : HostAction} {s t : State} (h : hostAct a s = .next t) : t.agenda = s.agenda := by
  rcases hostAct_cases h with ⟨cmd, a0, a1, a2, rfl⟩ | ⟨ws, u, hu, rfl⟩ | rfl | ⟨r, v, rfl⟩
  · rfl
  · exact hu.agenda
  · rfl
  · exact writeReg_agenda r v s

theorem perform_agenda {m : Move} {s t : State} (h : perform m s = .next t) : t.agenda = s.agenda := by
  cases m with
  | host a => exact hostAct_agenda h
  | env e =>
    cases h
    exact (fire_frame e s).sees State.agenda

/-- A step of the sequencer counts a wait down, and schedules nothing. -/
theorem sequencer_moves {s t : State} (h : sequencer s = .next t) :
    t.agenda.map Turn.move = s.agenda.map Turn.move := by
  have aged : (elapse s).agenda.map Turn.move = s.agenda.map Turn.move := ageAgenda_moves s.agenda
  rcases sequencer_cases h with ⟨-, rfl⟩ | ⟨i, -, -, h⟩ | ⟨e, -, -, rfl⟩
  · rfl
  · obtain ⟨-, agenda, -⟩ := exec_keeps h
    rw [agenda, aged]
  · exact aged

/-- A step adds no move to the agenda: what is scheduled is fixed before the run (log entry 7). -/
theorem step_moves_subset {s t : State} (h : step s = .next t) : t.agenda.map Turn.move ⊆ s.agenda.map Turn.move := by
  rcases step_cases h with h | ⟨turn, rest, scheduled, -, h⟩
  · rw [sequencer_moves h]
    exact List.Subset.refl _
  · rw [perform_agenda h, scheduled]
    exact List.subset_cons_self ..

/-- Whether the scheduled accesses are allowed is a matter of the moves alone. -/
theorem State.HostAccessesAllowed.of_moves_subset {s t : State} (allowed : s.HostAccessesAllowed)
    (h : t.agenda.map Turn.move ⊆ s.agenda.map Turn.move) : t.HostAccessesAllowed := by
  intro turn scheduled
  obtain ⟨turn', scheduled', same⟩ := List.mem_map.1 (h (List.mem_map_of_mem scheduled))
  rw [← same]
  exact allowed turn' scheduled'

/-! ### Who answers a next state -/

/-- The sequencer never stops: a command ends with a status, whatever it finds (R288). -/
theorem sequencer_answers (s : State) : ∃ t, sequencer s = .next t := by
  unfold sequencer
  split
  · exact ⟨s, rfl⟩
  · split
    · next i _ =>
      obtain ⟨t, answer, -⟩ := exec_oneAccess i (elapse s)
      exact ⟨t, answer⟩
    · exact ⟨_, rfl⟩

/-- A host action stops the machine only by an access that the port refuses (R290). -/
theorem hostAct_answers {a : HostAction} (s : State)
    (read : ∀ off width, a = .memRead off width → accessAllowed off width = true)
    (write : ∀ off width v, a = .memWrite off width v → accessAllowed off width = true) : ∃ t, hostAct a s = .next t := by
  cases a with
  | issue cmd a0 a1 a2 => exact ⟨_, rfl⟩
  | result => exact ⟨_, rfl⟩
  | memRead off width => exact ⟨_, if_pos (read off width rfl)⟩
  | memWrite off width v => exact ⟨_, if_pos (write off width v rfl)⟩

theorem step_answers {s : State} (allowed : s.HostAccessesAllowed) : ∃ t, step s = .next t := by
  unfold step advance
  split
  · exact sequencer_answers s
  · next turn rest scheduled =>
    split
    · obtain ⟨read, write⟩ := allowed turn (scheduled ▸ List.mem_cons_self)
      cases hm : turn.move with
      | host a =>
        exact hostAct_answers _ (fun off width e => read off width (hm.trans (congrArg Move.host e)))
          fun off width v e => write off width v (hm.trans (congrArg Move.host e))
      | env e => exact ⟨_, rfl⟩
    · exact sequencer_answers s

theorem step_keeps_hostAccessesAllowed {s : State} (allowed : s.HostAccessesAllowed) :
    ∃ t, step s = .next t ∧ t.HostAccessesAllowed := by
  obtain ⟨t, answer⟩ := step_answers allowed
  exact ⟨t, answer, allowed.of_moves_subset (step_moves_subset answer)⟩

/-- A run is safe from a state with `P`, when every step from such a state answers a next state with `P`. -/
theorem safe_of_invariant {P : State → Prop} (next : ∀ s, P s → ∃ t, step s = .next t ∧ P t) {s : State} (h : P s) :
    Safe s := by
  intro k
  induction k generalizing s with
  | zero => exact ⟨s, rfl⟩
  | succ k ih =>
    obtain ⟨t, answer, kept⟩ := next s h
    rw [run_succ_of_step answer]
    exact ih kept

end Sys2Proof.Machine

/-- Settles O9: the accesses that are left are among those scheduled, so what the port accepts it accepts for ever. -/
theorem onlyRefusedAccessStops : Obligations.OnlyRefusedAccessStops :=
  fun _ allowed => ⟨step_keeps_hostAccessesAllowed allowed,
    safe_of_invariant (fun _ => step_keeps_hostAccessesAllowed) allowed⟩
end

section
/-! PROOF. The event outputs and the interrupt request lines (O56). -/

open Sys2Proof Sys2Proof.Machine

namespace Sys2Proof.Machine

/-- RXPEND says that the queue holds a frame (R285). -/
theorem rxPendOut_iff (s : State) (f : Fin 2) : s.rxPendOut f = true ↔ s.queue f ≠ [] := by
  simp [State.rxPendOut]

/-- A queue within its depth holds a frame exactly when FMP reads other than 0 (R39, R56). -/
theorem queue_ne_nil_iff {f : Fin 2} {s : State} (fit : (s.queue f).length ≤ s.cfg.val.fifoDepth) :
    s.queue f ≠ [] ↔ fmpOf (view (.rfr f) s).val ≠ 0 := by
  refine ⟨fun pending => fmpOf_word_ne_zero pending fit, fun fmp empty => fmp ?_⟩
  have none : fmpOf (readReg (.rfr f) s).1 = 0 := fmpOf_of_empty empty
  rw [readReg_rfr] at none
  exact none

/-- IRQ_TX under its enable bit: some mailbox reports an end (R285). -/
theorem irqTx_iff (s : State) : s.irqTx = true ↔ bit s.ier 0 = true ∧ ∃ i, s.txDoneOut i = true := by
  simp [State.irqTx, State.txDoneOut, Fin.exists_fin_succ, or_assoc]

/-- IRQ_RX0 and IRQ_RX1: the enable bits of FIFO 1 stand 3 above those of FIFO 0 (R40, R285). -/
theorem irqRx_iff (s : State) (f : Fin 2) : s.irqRx f = true ↔
    (bit s.ier (1 + 3 * f.val) = true ∧ s.rxPendOut f = true) ∨
      (bit s.ier (2 + 3 * f.val) = true ∧ (s.fifo f).full = true) ∨
      (bit s.ier (3 + 3 * f.val) = true ∧ (s.fifo f).fovr = true) := by
  simp [State.irqRx, or_assoc]

theorem irqSce_iff (s : State) : s.irqSce = true ↔ (bit s.ier 15 = true ∧ bit s.msr 2 = true) ∨
    (bit s.ier 16 = true ∧ bit s.msr 3 = true) ∨ (bit s.ier 17 = true ∧ bit s.msr 4 = true) := by
  simp [State.irqSce, or_assoc]

end Sys2Proof.Machine

/-- Settles O56: each output is the disjunction of its flags, each under its enable bit. -/
theorem interruptLinesAreGated : Obligations.InterruptLinesAreGated := fun s =>
  ⟨fun _ => rfl, fun f fit => (rxPendOut_iff s f).trans (queue_ne_nil_iff fit), irqTx_iff s, irqRx_iff s 0, irqRx_iff s 1,
    irqSce_iff s⟩
end

section
/-! PROOF. What clears a notification, and that nothing else does, whoever makes the step (O55). -/

open Sys2Proof Sys2Proof.Machine

namespace Sys2Proof.Machine

/-! ### Register writes -/

/-- A write of TSR clears RQCP where it is written 1 (R38). -/
theorem tsr_write_rqcp (v : Word) (s : State) (i : Fin 3) :
    (writeReg .tsr v s).rqcp i = (s.rqcp i && !bit v (8 * i.val)) := tsr_write_flag v s i (k := 0) (by decide)

/-- Of the register writes only a master reset, and a write of TSR with RQCP of the mailbox 1, reach RQCP (R38, R311). -/
theorem writeReg_rqcp {r : Reg} {v : Word} {i : Fin 3} (reset : r = .mcr → bit v 15 = false)
    (clear : r = .tsr → bit v (8 * i.val) = false) (s : State) : (writeReg r v s).rqcp i = s.rqcp i := by
  cases r with
  | mcr => rw [writeReg, writeMcr_eq (reset rfl)]; rfl
  | tsr => rw [tsr_write_rqcp, clear rfl, Bool.not_false, Bool.and_true]
  | rfr f => simp only [writeReg, writeRfr]; split <;> rfl
  | tir m =>
    obtain ⟨⟨-, -, -, flags⟩, -⟩ := tx_tir_frame m v s
    exact flags (8 * i.val) (by omega)
  | btr | tdtr | tdlr | tdhr | fm1r | fs1r | ffa1r | fr1 | fr2 => simp only [writeReg]; split <;> rfl
  | msr | ier | esr | rir | rdtr | rdlr | rdhr | fmr | fa1r => rfl

/-- A write of RFfR takes a frame from no other queue, and from its own only with RFOM = 1 (R39, R226). -/
theorem writeRfr_queue_kept {f g : Fin 2} {v : Word} (kept : g = f → bit v 5 = false) (s : State) :
    (writeRfr f v s).queue g = s.queue g := by
  unfold writeRfr
  simp only
  split
  · next rfom =>
    have other : g ≠ f := fun e => Bool.false_ne_true ((kept e).symm.trans rfom)
    rw [release, setFifo_setFifo, State.queue, setFifo_fifo, if_neg other]
    rfl
  · rw [State.queue, setFifo_fifo]
    split
    · next e => subst e; rfl
    · rfl

/-- Of the register writes only a master reset, and a release, reach a queue (R226, R311). -/
theorem writeReg_queue {r : Reg} {v : Word} {f : Fin 2} (reset : r = .mcr → bit v 15 = false)
    (release : r = .rfr f → bit v 5 = false) (s : State) : (writeReg r v s).queue f = s.queue f := by
  cases r with
  | mcr => rw [writeReg, writeMcr_eq (reset rfl)]; rfl
  | rfr g => exact writeRfr_queue_kept (fun e => release (congrArg Reg.rfr e.symm)) s
  | tir m => rw [writeReg, (tx_tir_frame m v s).1.1]; rfl
  | btr | tdtr | tdlr | tdhr | fm1r | fs1r | ffa1r | fr1 | fr2 => simp only [writeReg]; split <;> rfl
  | msr | tsr | ier | esr | rir | rdtr | rdlr | rdhr | fmr | fa1r => rfl

/-- A write of RFfR fills no queue (R286). -/
theorem writeRfr_pending {f : Fin 2} {v : Word} {s : State} (h : (writeRfr f v s).queue f ≠ []) : s.queue f ≠ [] := by
  intro empty
  refine h ?_
  cases rfom : bit v 5 with
  | false => rw [writeRfr_queue_kept fun _ => rfom, empty]
  | true => rw [writeRfr_queue rfom, empty, List.tail_nil]

/-! ### Micro-operations -/

theorem exec_tx_frame {ide rtr tgt : Bool} {dlc : Nat} {s t : State} (h : exec (.tx ide rtr tgt dlc) s = .next t) :
    ∃ m, TxFrame m s t := by
  obtain ⟨m, -, frame, -⟩ := tx_reaches (.inl h)
  exact ⟨m, frame⟩

/-- No command reaches RQCP. -/
theorem exec_rqcp {i : Instr} {s t : State} (h : exec i s = .next t) (m : Fin 3) : t.rqcp m = s.rqcp m := by
  cases i with
  | init mode flags baud => cases h; rw [(initMicro_frame mode flags baud s.pos s).1]; rfl
  | cfgf bank scale mode fifo => cases h; rw [(cfgfMicro_frame bank scale mode fifo s.pos s).1]; rfl
  | tx ide rtr tgt dlc =>
    obtain ⟨k, -, -, -, flags⟩ := exec_tx_frame h
    exact flags (8 * m.val) (by omega)
  | rx f => cases h; rw [(rxMicro_frame f s).1.1]; rfl

/-- No command reaches a queue but RX on that FIFO (R227). -/
theorem exec_queue {i : Instr} {s t : State} {f : Fin 2} (h : exec i s = .next t) (other : i ≠ .rx f) :
    t.queue f = s.queue f := by
  cases i with
  | init mode flags baud => cases h; rw [(initMicro_frame mode flags baud s.pos s).1]; rfl
  | cfgf bank scale mode fifo => cases h; rw [(cfgfMicro_frame bank scale mode fifo s.pos s).1]; rfl
  | tx ide rtr tgt dlc =>
    obtain ⟨m, frame, -⟩ := exec_tx_frame h
    rw [frame]
    rfl
  | rx g =>
    cases h
    obtain ⟨-, others, -⟩ := (rxMicro_frame g s).1
    exact congrArg Fifo.queue (others f fun e => other (e ▸ rfl))

/-! ### Events -/

/-- A request that ends raises RQCP of its mailbox, and leaves RQCP of the others (R245, R247). -/
theorem rqcp_of_requestFrame {i m : Fin 3} {s t : State} (flags : TsrOutside i t.tsr s.tsr) (ended : t.rqcp i = true)
    (h : s.rqcp m = true) : t.rqcp m = true := by
  by_cases e : m = i
  · exact e ▸ ended
  · exact (tsrOutside_other flags e).2.1.trans h

theorem txDone_rqcp (i : Fin 3) (ok : Bool) (s : State) : (txDone i ok s).rqcp i = true := by
  obtain ⟨-, rqcp, -⟩ := transmitted_flags i ok s
  obtain ⟨fifos, tape, n, offered⟩ := txDone_eq i ok s
  rw [offered]
  exact rqcp

theorem txAbort_rqcp (i : Fin 3) (s : State) : (txAbort i s).rqcp i = true :=
  (requestEnded_flags i false false false (clearTxrq i s)).2.1

theorem statusDrift_rqcp (m : Fin 3) (s : State) : (statusDrift s).rqcp m = s.rqcp m := by
  obtain ⟨a, b, c, tape, n, h⟩ := statusDrift_eq s
  have fixed : ∀ i : Fin 3, bit 0xE0000000#32 (8 * i.val) = false := by decide
  rw [h, State.rqcp, bit_merge, fixed m]
  rfl

/-- No event clears RQCP (R286). -/
theorem effect_rqcp {m : Fin 3} {s : State} (h : s.rqcp m = true) (e : EnvEvent) : (effect e s).rqcp m = true := by
  cases e with
  | txDone i ok => exact rqcp_of_requestFrame (txDone_frame i ok s).2.1.1 (txDone_rqcp i ok s) h
  | txAbort i => exact rqcp_of_requestFrame (txAbort_frame i s).2.1 (txAbort_rqcp i s) h
  | rxFrame f =>
    rw [effect, (rxFrame_frame f s).1]
    exact h
  | statusDrift => exact (statusDrift_rqcp m s).trans h
  | sleepExit | initEnter | initExit | sleepEnter | wakeup | none => exact h

/-- No event empties a queue (R286). -/
theorem effect_pending {f : Fin 2} {s : State} (h : s.queue f ≠ []) (e : EnvEvent) : (effect e s).queue f ≠ [] := by
  obtain ⟨head, rest, queue⟩ := List.exists_cons_of_ne_nil h
  obtain ⟨rest', queue'⟩ := effect_head queue e
  rw [queue']
  exact List.cons_ne_nil head rest'

/-! ### Every step -/

theorem Reg.offset_of_at {off : Nat} {r : Reg} (h : Reg.at off = some r) : r.offset = off :=
  beq_iff_eq.1 (List.find?_some (p := fun x : Reg => x.offset == off) h)

/-- TSR and the FIFOs, of which TXDONE and RXPEND are read, stay as they are (R285). -/
def SameNotifications (s t : State) : Prop := t.tsr = s.tsr ∧ t.fifos = s.fifos

theorem DrawnFrom.sameNotifications {s t : State} (h : DrawnFrom s t) : SameNotifications s t := by
  obtain ⟨_, _, rfl⟩ := h
  exact ⟨rfl, rfl⟩

/-- A host action leaves the notifications, or it is the write of a register at its offset (R92, R96). -/
theorem hostAct_writes {a : HostAction} {s t : State} (h : hostAct a s = .next t) :
    SameNotifications s t ∨ ∃ r v, a = .memWrite (Reg.offset r) 4 v ∧ t = writeReg r v s := by
  cases a with
  | issue cmd a0 a1 a2 => cases h; exact .inl ⟨rfl, rfl⟩
  | result => cases h; exact .inl ⟨rfl, rfl⟩
  | memRead off width =>
    simp only [hostAct] at h
    split at h
    · cases h; exact .inl (memRead_frame off s).sameNotifications
    · cases h
  | memWrite off width v =>
    simp only [hostAct] at h
    split at h
    · next allowed =>
      obtain ⟨rfl, -⟩ := (accessAllowed_iff off width).1 allowed
      cases h
      unfold memWrite
      split
      · next r named => exact .inr ⟨r, v, by rw [Reg.offset_of_at named], rfl⟩
      · exact .inl ⟨rfl, rfl⟩
    · cases h

/-- What a step can do to the notifications: nothing, a micro-operation, a register write of the host, or an event (R14). -/
theorem step_writes {s t : State} (h : step s = .next t) :
    SameNotifications s t ∨ (∃ i, s.seq ≠ .idle ∧ decode s.cmd = .ok i ∧ exec i (elapse s) = .next t) ∨
      (∃ n r v rest, s.seq = .idle ∧ s.agenda = ⟨n, .host (.memWrite (Reg.offset r) 4 v)⟩ :: rest ∧
        t = writeReg r v { s with agenda := rest }) ∨
      ∃ e rest, t = fire e { s with agenda := rest } := by
  rcases step_cases h with h | ⟨⟨n, move⟩, rest, scheduled, due, h⟩
  · rcases sequencer_cases h with ⟨-, rfl⟩ | micro | ⟨_, -, -, rfl⟩
    · exact .inl ⟨rfl, rfl⟩
    · exact .inr (.inl micro)
    · exact .inl ⟨rfl, rfl⟩
  · cases move with
    | host a =>
      have idle : s.seq = .idle := of_decide_eq_true due
      rcases hostAct_writes h with same | ⟨r, v, rfl, written⟩
      · exact .inl same
      · exact .inr (.inr (.inl ⟨n, r, v, rest, idle, scheduled, written⟩))
    | env e => cases h; exact .inr (.inr (.inr ⟨e, rest, rfl⟩))

/-- TXDONE stays over every step but a write that clears it and a master reset (R286, R317). -/
theorem step_keeps_rqcp {i : Fin 3} {s t : State} (h : step s = .next t) (done : s.rqcp i = true)
    (kept : ∀ n off v rest, s.seq = .idle → s.agenda = ⟨n, .host (.memWrite off 4 v)⟩ :: rest →
      (off = 0x008 → bit v (8 * i.val) = false) ∧ (off = 0x000 → bit v 15 = false)) : t.rqcp i = true := by
  rcases step_writes h with ⟨tsr, -⟩ | ⟨j, -, -, h⟩ | ⟨n, r, v, rest, idle, scheduled, rfl⟩ | ⟨e, rest, rfl⟩
  · rw [State.rqcp, tsr]
    exact done
  · exact (exec_rqcp h i).trans done
  · obtain ⟨clear, reset⟩ := kept n _ v rest idle scheduled
    exact (writeReg_rqcp (fun e => reset (congrArg Reg.offset e)) (fun e => clear (congrArg Reg.offset e)) _).trans done
  · exact fire_of (fun u => u.rqcp i = true) done fun _ => effect_rqcp (s := { s with agenda := rest }) done e

/-- RXPEND stays over every step but a release, a step of RX on its FIFO and a master reset (R286). -/
theorem step_keeps_pending {f : Fin 2} {s t : State} (h : step s = .next t) (pending : s.queue f ≠ [])
    (kept : ∀ n off v rest, s.seq = .idle → s.agenda = ⟨n, .host (.memWrite off 4 v)⟩ :: rest →
      (off = 0x00C + 4 * f.val → bit v 5 = false) ∧ (off = 0x000 → bit v 15 = false))
    (other : s.seq ≠ .idle → decode s.cmd ≠ .ok (.rx f)) : t.queue f ≠ [] := by
  rcases step_writes h with ⟨-, fifos⟩ | ⟨j, busy, command, h⟩ | ⟨n, r, v, rest, idle, scheduled, rfl⟩ | ⟨e, rest, rfl⟩
  · rw [State.queue, State.fifo, fifos]
    exact pending
  · have notRx : j ≠ .rx f := fun e => other busy (e ▸ command)
    rw [exec_queue h notRx]
    exact pending
  · obtain ⟨release, reset⟩ := kept n _ v rest idle scheduled
    rw [writeReg_queue (fun e => reset (congrArg Reg.offset e)) (fun e => release (congrArg Reg.offset e))]
    exact pending
  · exact fire_of (fun u => u.queue f ≠ []) pending fun _ => effect_pending (s := { s with agenda := rest }) pending e

end Sys2Proof.Machine

/-- Settles O55: the ends of requests raise TXDONE, and of the agents' steps only the excepted ones reach RQCP or take a frame
from a queue. -/
theorem notificationsPendUntilCleared : Obligations.NotificationsPendUntilCleared := by
  refine ⟨fun s => ⟨fun i ok ready => ?_, fun i ready => ?_, fun i v clear => ?_, fun i v kept => ?_, rxPendOut_iff s,
    fun f v => ?_⟩, fun i s t h done kept => step_keeps_rqcp h done kept, fun f s t h pending kept other => ?_⟩
  · rw [fire, if_pos ready]
    exact txDone_rqcp i ok s
  · rw [fire, if_pos ready]
    exact txAbort_rqcp i s
  · rw [State.txDoneOut, tsr_write_rqcp, clear, Bool.not_true, Bool.and_false]
  · exact writeReg_rqcp (r := .tsr) nofun (fun _ => kept) s
  · rw [rxPendOut_iff, rxPendOut_iff]
    exact writeRfr_pending
  · rw [rxPendOut_iff] at pending ⊢
    exact step_keeps_pending h pending kept other
end

section
/-! PROOF. The reset state has both invariants, the block waits while it has nothing to do, and what the software master reset
leaves of the mailboxes (O12, O40, O57). -/

open Sys2Proof Sys2Proof.Machine

namespace Sys2Proof.Machine

/-! ### The reset state -/

theorem resetOf_tme (c : Config) (i : Fin 3) : (State.resetOf c).tme i = true := by
  have h : ∀ i : Fin 3, tmeOf 0x1C000000#32 i = true := by decide
  exact h i

theorem resetOf_abrq (c : Config) (i : Fin 3) : (State.resetOf c).abrq i = false := by
  have h : ∀ i : Fin 3, bit 0x1C000000#32 (8 * i.val + 7) = false := by decide
  exact h i

theorem resetOf_bank (c : Config) (b : Fin 28) : (State.resetOf c).bank b = FilterBank.reset := by
  simp [State.bank, State.resetOf]

theorem Cell.zero_canonical (known : Word) : (⟨0, known⟩ : Cell).Canonical := BitVec.zero_and

/-- After reset the mailboxes are empty and so are the queues, and every stored word is within the bits of its register
(R310). -/
theorem resetOf_consistent (c : Config) : (State.resetOf c).Consistent where
  mailboxFlags i := by
    rw [resetOf_mailbox, resetOf_tme]
    decide
  queuesFit f := by
    rw [resetOf_queue]
    exact Nat.zero_le _
  oneMode := fun ⟨inak, _⟩ => absurd inak (by decide : ¬inakOf 0x00000C02#32 = true)
  abortsPending i h := absurd ((resetOf_abrq c i).symm.trans h) Bool.false_ne_true
  orderPending := by
    refine ⟨List.nodup_nil, fun i => ?_⟩
    rw [resetOf_tme]
    exact iff_of_false List.not_mem_nil nofun
  reservedClear := by
    have mcr : 0x00010002#32 &&& ~~~0x000100FF#32 = 0 := by decide
    have msr : 0x00000C02#32 &&& ~~~0x00000F1F#32 = 0 := by decide
    have tsr : 0x1C000000#32 &&& ~~~tsrMask = 0 := by decide
    have btr : 0x01230000#32 &&& ~~~0xC37F03FF#32 = 0 := by decide
    have fmr : 0x00000E01#32 &&& ~~~1#32 = 0x00000E00#32 := by decide
    exact ⟨mcr, msr, tsr, BitVec.zero_and, BitVec.zero_and, btr, fmr, BitVec.zero_and, BitVec.zero_and, BitVec.zero_and,
      BitVec.zero_and⟩
  cellsCanonical := by
    refine ⟨fun i => ?_, fun b => ?_, fun f e he => ?_⟩
    · rw [resetOf_mailbox]
      exact ⟨Cell.zero_canonical _, Cell.zero_canonical _, Cell.zero_canonical _, Cell.zero_canonical _⟩
    · rw [resetOf_bank]
      exact ⟨Cell.zero_canonical _, Cell.zero_canonical _⟩
    · rw [resetOf_queue] at he
      exact absurd he List.not_mem_nil
  mailboxReserved i := by
    rw [resetOf_mailbox]
    exact ⟨by decide, by decide⟩

/-! ### Waiting -/

/-- With nothing scheduled a step is the sequencer's (R14). -/
theorem step_of_agenda_nil {s : State} (h : s.agenda = []) : step s = sequencer s := by
  rw [step, advance, h]

theorem sequencer_of_idle {s : State} (h : s.seq = .idle) : sequencer s = .next s := by
  rw [sequencer, h]

/-! ### The software master reset -/

theorem writeReg_mcr_of_reset {v : Word} (h : bit v 15 = true) (s : State) : writeReg .mcr v s = masterReset s := if_pos h

/-- The master reset clears TXRQ of every mailbox and touches no other bit of a mailbox (R311). -/
theorem masterReset_keeps_mailbox (s : State) (i : Fin 3) :
    let mb := s.mailbox i
    let mb' := (masterReset s).mailbox i
    mb'.tdtr = mb.tdtr ∧ mb'.tdlr = mb.tdlr ∧ mb'.tdhr = mb.tdhr ∧ bit mb'.tir.val 0 = false ∧
      mb'.tir.val &&& 0xFFFFFFFE#32 = mb.tir.val &&& 0xFFFFFFFE#32 ∧
      mb'.tir.known &&& 0xFFFFFFFE#32 = mb.tir.known &&& 0xFFFFFFFE#32 := by
  rw [masterReset_mailbox]
  exact ⟨rfl, rfl, rfl, (patch_txrq _).1, patch_and_of_disjoint (by decide) _ _⟩

theorem masterReset_mode (s : State) : (masterReset s).mode = .sleep := resetOf_mode s.cfg

/-- MCR.RESET reads 0 whatever MCR holds (R36). -/
theorem readReg_mcr_resetBit (s : State) : bit (readReg .mcr s).1 15 = false := by
  have unread : bit 0x000100FF#32 15 = false := by decide
  rw [readReg_of_view (by decide) rfl, bit_and, unread, Bool.and_false]

end Sys2Proof.Machine

/-- Settles O12: the step is the sequencer's, which waits. -/
theorem idleBlockWaits : Obligations.IdleBlockWaits := fun _ idle empty =>
  (step_of_agenda_nil empty).trans (sequencer_of_idle idle)

/-- Settles O57: the register file is consistent at reset, and no command is in flight. -/
theorem resetIsConsistent : Obligations.ResetIsConsistent := fun c =>
  ⟨resetOf_consistent c, inFlightSafe_of_idle rfl⟩

/-- Settles O40: the write is the master reset, one update of the controller's registers and of TXRQ in the mailboxes. -/
theorem masterResetKeepsFiltersAndPort : Obligations.MasterResetKeepsFiltersAndPort := by
  intro v s reset t
  have written : t = masterReset s := writeReg_mcr_of_reset reset s
  rw [written]
  exact ⟨masterReset_eq s, masterReset_keeps_mailbox s, masterReset_mode s, readReg_mcr_resetBit _⟩
end
